-- ==== Sys2Proof/Word.lean ====
section
/-! DEFINITION. The bit vectors of the block: the fields of a packet (10_state.md R20), the tick
selector (30_encoding.md R90) and the host command word (R94). -/

namespace Sys2Proof

/-- One payload byte (R20). -/
abbrev Byte := BitVec 8

/-- A node identifier: `sender` or `destination`, 4 bits (R20; `ID_W` of R8). -/
abbrev NodeId := BitVec 4

/-- `payloadSize`, 8 bits unsigned (R20; `SIZE_W` of R8). -/
abbrev PayloadSize := BitVec 8

/-- The tick selector SEL, 6 bits (R90). -/
abbrev Sel := BitVec 6

/-- The host command word HCW, 20 bits (R94). -/
abbrev Hcw := BitVec 20

end Sys2Proof
end

