-- ==== Sys2Proof/Config.lean ====
section
/-! DEFINITION. What is fixed for the machine (the parameters of 00_scope.md R8) and what the environment chooses
freely (10_state.md R37): the turns of the step relation and the free schedule. -/

namespace Sys2Proof

/-- `SLOT_INIT` (R8, decision D12): what a queue slot's payload byte holds before its first write. -/
inductive SlotInit where
  /-- No value: reading the byte where its value is needed raises a fault (R10). -/
  | undef
  /-- The platform zeroes the storage. -/
  | zero
  deriving DecidableEq, Repr

/-- The parameters of R8. The widths `ID_W` and `SIZE_W` of the packet fields are types and no parameters
(93_implementation_defined.md U26). -/
structure Params where
  /-- `SQ_CAP`: send queue capacity in slots. -/
  sqCap : Nat
  /-- `RQ_CAP`: receive queue capacity in slots. -/
  rqCap : Nat
  /-- `PAYLOAD_CAP`: payload bytes per packet buffer. -/
  payloadCap : Nat
  /-- `MAX_DEST`: the largest destination SEND accepts. -/
  maxDest : Nat
  /-- `BROADCAST_ID`: never read by the block (R6, R8). -/
  broadcastId : Nat
  /-- `BIT_TIME`: the tick period; no rule reads it (R219). -/
  bitTime : Nat
  /-- `BIDX_W`: the width of the bit index register `BIDX`, in bits. -/
  bidxW : Nat
  /-- `NODES`: the number of nodes on one line. Only a composition reads it (`Machine.Bus.wf`). -/
  nodes : Nat
  /-- `SLOT_INIT`. -/
  slotInit : SlotInit
  deriving DecidableEq, Repr

/-- The deployment values and defaults of R8, each "a default and not a law". `NODES` is open there: the model takes the
least it allows (DESIGN CHOICE, log 22). -/
def Params.deployment : Params where
  sqCap := 3
  rqCap := 5
  payloadCap := 128
  maxDest := 8
  broadcastId := 8
  bitTime := 100
  bidxW := 12
  nodes := 1
  slotInit := .undef

/-- A node's line configuration as the others see it: `LINE_OE` and `LINE_OUT` (10_state.md R26). -/
structure Drive where
  oe : Bool
  out : Bool
  deriving DecidableEq, Repr

/-- One turn of the step relation: who moves next, with the environment's choices (R7, R37). -/
inductive Turn where
  /-- A tick. `peers` are the other nodes' line configurations as they stood after the previous tick (60_exceptions.md
  R221), `noise` the draw that inverts the sample (R223), `draw` the level sampled if the drivers disagree (R224; log 15). -/
  | tick (peers : List Drive) (noise draw : Bool)
  /-- H runs its next operation whole, at its linearisation point (20_memory.md R61; DEDUCED, log 1), or retries the held
  one. -/
  | host
  /-- H runs one micro-step of its operation (40_queue.md R117, R118); `pick` chooses among the pending writes of step
  E4, which may be done "in any order". -/
  | micro (pick : Nat)
  deriving DecidableEq, Repr, Inhabited

/-- FREE VALUE (DESIGN CHOICE, log 2): the turn that comes when none is placed in the state's agenda. The schedule, the other nodes'
drives, noise and contention draws are "parameters of the step relation" (R37); nothing constrains them. -/
opaque Config.environment : Nat → Turn

end Sys2Proof
end

