-- ==== Sys2Proof/Syntax.lean ====
section
/-! DEFINITION. The instruction set: one constructor per row of spec/opcode_table.json (30_encoding.md R92, R95), and
the command H presents. -/

namespace Sys2Proof

/-- The arms of one tick step and the host operations (00_scope.md R1). A constructor carries the bits its row leaves
free: in a tick arm `line` is SEL[3], `sqne` is SEL[2] and `ph` is SEL[1:0] (R90). -/
inductive Instr where
  /-- RX_HDR, 41_engine.md R142. -/
  | rxHdr (line sqne : Bool)
  /-- RX_PAY, R143. -/
  | rxPay (line sqne : Bool)
  /-- RX_PAR, R144. -/
  | rxPar (line sqne : Bool)
  /-- TX_HDR, R145. -/
  | txHdr (line sqne : Bool)
  /-- TX_PAY, R146. -/
  | txPay (line sqne : Bool)
  /-- TX_PAR, R147. -/
  | txPar (line sqne : Bool)
  /-- TX_REL, R148. -/
  | txRel (line sqne : Bool)
  /-- IDLE_RXSTART, R149 (LINE is 0). -/
  | idleRxstart (sqne : Bool) (ph : BitVec 2)
  /-- IDLE_CLAIM, R150 (LINE and SQNE are 1). -/
  | idleClaim (ph : BitVec 2)
  /-- IDLE_NOP, R151 (LINE is 1, SQNE is 0). -/
  | idleNop (ph : BitVec 2)
  /-- RECEIVING with PH = 0b11, reserved, R152. -/
  | reservedRxPh11 (line sqne : Bool)
  /-- MODE = 0b11, reserved, R152. -/
  | reservedMode11 (line sqne : Bool) (ph : BitVec 2)
  /-- INIT, OP 0x0, 42_link_api.md R181. -/
  | init
  /-- SQ_ISEMPTY, OP 0x1, R182. -/
  | sqIsempty
  /-- SQ_ISFULL, OP 0x2, R183. -/
  | sqIsfull
  /-- SQ_ENQ, OP 0x3, R184; the payload is on the DIN port (30_encoding.md R94). -/
  | sqEnq (snd dst : NodeId) (size : PayloadSize)
  /-- RQ_ISEMPTY, OP 0x4, R185. -/
  | rqIsempty
  /-- RQ_ISFULL, OP 0x5, R186. -/
  | rqIsfull
  /-- RQ_DEQ, OP 0x6, R187. -/
  | rqDeq
  /-- SEND, OP 0x7, R188; the payload is on the DIN port. -/
  | send (snd dst : NodeId) (size : PayloadSize)
  /-- GET, OP 0x8, R189. -/
  | get
  /-- HAS, OP 0x9, R190. -/
  | has
  /-- OP 0xA or 0xB, reserved, 30_encoding.md R96; `rest` is HCW[19:4]. -/
  | reservedOpAB (op : BitVec 4) (rest : BitVec 16)
  /-- OP 0xC to 0xF, reserved, R96; `rest` is HCW[19:4]. -/
  | reservedOpCF (op : BitVec 4) (rest : BitVec 16)
  deriving DecidableEq, Repr

/-- What H presents for one operation: the host command word and the bytes on the DIN port (30_encoding.md R94). -/
structure Command where
  hcw : Hcw
  din : List Byte
  deriving DecidableEq, Repr

end Sys2Proof
end

