-- ==== Sys2Proof/WellFormed.lean ====
section
/-! DEFINITION. The checks on what is written for the machine: instructions, commands and parameter sets. -/

namespace Sys2Proof

/-- An instruction is well-formed when its operands are ones its row's encoding admits. The widths are the types'; only
the two reserved host rows leave less than a whole field free (30_encoding.md R96 and the opcode table). -/
def Instr.wf : Instr → Bool
  | .reservedOpAB op _ => op.toNat == 10 || op.toNat == 11
  | .reservedOpCF op _ => 12 ≤ op.toNat
  | .rxHdr _ _ | .rxPay _ _ | .rxPar _ _ | .txHdr _ _ | .txPay _ _ | .txPar _ _ | .txRel _ _ => true
  | .idleRxstart _ _ | .idleClaim _ | .idleNop _ | .reservedRxPh11 _ _ | .reservedMode11 _ _ _ => true
  | .init | .sqIsempty | .sqIsfull | .sqEnq _ _ _ | .rqIsempty | .rqIsfull | .rqDeq => true
  | .send _ _ _ | .get | .has => true

/-- Whether an OP code is that of a packet operation, SQ_ENQ or SEND (R94). -/
def isPacketOp (op : BitVec 4) : Bool := op == 3#4 || op == 7#4

/-- A command is well-formed when its payload port holds exactly the bytes its SIZE field announces, and none for an
operation without packet operands (R94). -/
def Command.wf (c : Command) : Bool :=
  if isPacketOp (c.hcw.extractLsb' 0 4) then c.din.length == (c.hcw.extractLsb' 12 8).toNat else c.din.isEmpty

/-- The legality line of R8: capacities of at least one slot, a payload buffer of 128 to 255 bytes; the table's at least
one node; and a bit index register that holds the largest index, 2057 (10_state.md R23; DESIGN CHOICE, log 22). -/
def Params.legal (c : Params) : Bool :=
  1 ≤ c.sqCap && 1 ≤ c.rqCap && 128 ≤ c.payloadCap && c.payloadCap ≤ 255 && 1 ≤ c.nodes &&
    2057 < 2 ^ c.bidxW

end Sys2Proof
end

