-- ==== Sys2Proof/Decode.lean ====
section
/-! DEFINITION. The decoder of the tick selector (30_encoding.md R90 to R93) and of the host command word (R94 to R96),
total and rejecting by name, and the encoder written from the same tables. -/

namespace Sys2Proof

/-- Why a word stands for no instruction. -/
inductive DecodeError where
  /-- A non-packet operation with HCW[19:4] not 0 (R96); safe. -/
  | reservedBits
  deriving DecidableEq, Repr

/-- A word of one of the two encodings: a tick selector or a host command word. -/
inductive CodeWord where
  | sel (w : Sel)
  | hcw (w : Hcw)
  deriving DecidableEq, Repr

/-- SEL[5:4] = MODE (R90). -/
def selMode (w : Sel) : BitVec 2 := w.extractLsb' 4 2
/-- SEL[3] = LINE (R90). -/
def selLine (w : Sel) : Bool := w.getLsbD 3
/-- SEL[2] = SQNE (R90). -/
def selSqne (w : Sel) : Bool := w.getLsbD 2
/-- SEL[1:0] = PH (R90). -/
def selPh (w : Sel) : BitVec 2 := w.extractLsb' 0 2

/-- SEL from its fields: MODE ‖ LINE ‖ SQNE ‖ PH (R90). -/
def mkSel (mode : BitVec 2) (line sqne : Bool) (ph : BitVec 2) : Sel :=
  mode ++ BitVec.ofBool line ++ BitVec.ofBool sqne ++ ph

/-- The rows `10 x x ..` of the tick decode table (R92). -/
def decodeRx (line sqne : Bool) (ph : BitVec 2) : Instr :=
  if ph == 0b00#2 then .rxHdr line sqne
  else if ph == 0b01#2 then .rxPay line sqne
  else if ph == 0b10#2 then .rxPar line sqne
  else .reservedRxPh11 line sqne

/-- The rows `01 x x ..` (R92). -/
def decodeTx (line sqne : Bool) (ph : BitVec 2) : Instr :=
  if ph == 0b00#2 then .txHdr line sqne
  else if ph == 0b01#2 then .txPay line sqne
  else if ph == 0b10#2 then .txPar line sqne
  else .txRel line sqne

/-- The rows `00 ....` (R92): line low before queue non-empty (41_engine.md R141). -/
def decodeIdle (line sqne : Bool) (ph : BitVec 2) : Instr :=
  if !line then .idleRxstart sqne ph
  else if sqne then .idleClaim ph
  else .idleNop ph

/-- The tick decode table: exactly one arm for every selector value (R92, R93). -/
def decodeSel (w : Sel) : Instr :=
  let line := selLine w
  let sqne := selSqne w
  let ph := selPh w
  if selMode w == 0b10#2 then decodeRx line sqne ph
  else if selMode w == 0b01#2 then decodeTx line sqne ph
  else if selMode w == 0b00#2 then decodeIdle line sqne ph
  else .reservedMode11 line sqne ph

/-- HCW[3:0] = OP (R94). -/
def hcwOp (w : Hcw) : BitVec 4 := w.extractLsb' 0 4
/-- HCW[7:4] = SND (R94). -/
def hcwSnd (w : Hcw) : NodeId := w.extractLsb' 4 4
/-- HCW[11:8] = DST (R94). -/
def hcwDst (w : Hcw) : NodeId := w.extractLsb' 8 4
/-- HCW[19:12] = SIZE (R94). -/
def hcwSize (w : Hcw) : PayloadSize := w.extractLsb' 12 8
/-- HCW[19:4], which a non-packet operation must hold at 0 (R94). -/
def hcwRest (w : Hcw) : BitVec 16 := w.extractLsb' 4 16

/-- A non-packet operation has exactly one encoding (R95); other values of HCW[19:4] are illegal (R96). -/
def plainOp (w : Hcw) (i : Instr) : Except DecodeError Instr :=
  if hcwRest w == 0#16 then .ok i else .error .reservedBits

/-- The host operation codes (R95), the reserved ones included (R96). -/
def decodeHcw (w : Hcw) : Except DecodeError Instr :=
  match (hcwOp w).toNat with
  | 0x0 => plainOp w .init
  | 0x1 => plainOp w .sqIsempty
  | 0x2 => plainOp w .sqIsfull
  | 0x3 => .ok (.sqEnq (hcwSnd w) (hcwDst w) (hcwSize w))
  | 0x4 => plainOp w .rqIsempty
  | 0x5 => plainOp w .rqIsfull
  | 0x6 => plainOp w .rqDeq
  | 0x7 => .ok (.send (hcwSnd w) (hcwDst w) (hcwSize w))
  | 0x8 => plainOp w .get
  | 0x9 => plainOp w .has
  | 0xA => .ok (.reservedOpAB (hcwOp w) (hcwRest w))
  | 0xB => .ok (.reservedOpAB (hcwOp w) (hcwRest w))
  | _ => .ok (.reservedOpCF (hcwOp w) (hcwRest w))

/-- The decoder. -/
def decode : CodeWord → Except DecodeError Instr
  | .sel w => .ok (decodeSel w)
  | .hcw w => decodeHcw w

/-- HCW of a packet operation: SIZE<<12 | DST<<8 | SND<<4 | OP (42_link_api.md R184, R188). -/
def packetHcw (op : BitVec 4) (snd dst : NodeId) (size : PayloadSize) : Hcw := size ++ dst ++ snd ++ op

/-- The encoder: the word of an instruction, from the tables of R92 and R95. -/
def encode : Instr → CodeWord
  | .rxHdr l q => .sel (mkSel 0b10#2 l q 0b00#2)
  | .rxPay l q => .sel (mkSel 0b10#2 l q 0b01#2)
  | .rxPar l q => .sel (mkSel 0b10#2 l q 0b10#2)
  | .txHdr l q => .sel (mkSel 0b01#2 l q 0b00#2)
  | .txPay l q => .sel (mkSel 0b01#2 l q 0b01#2)
  | .txPar l q => .sel (mkSel 0b01#2 l q 0b10#2)
  | .txRel l q => .sel (mkSel 0b01#2 l q 0b11#2)
  | .idleRxstart q ph => .sel (mkSel 0b00#2 false q ph)
  | .idleClaim ph => .sel (mkSel 0b00#2 true true ph)
  | .idleNop ph => .sel (mkSel 0b00#2 true false ph)
  | .reservedRxPh11 l q => .sel (mkSel 0b10#2 l q 0b11#2)
  | .reservedMode11 l q ph => .sel (mkSel 0b11#2 l q ph)
  | .init => .hcw 0x00000#20
  | .sqIsempty => .hcw 0x00001#20
  | .sqIsfull => .hcw 0x00002#20
  | .sqEnq snd dst size => .hcw (packetHcw 0x3#4 snd dst size)
  | .rqIsempty => .hcw 0x00004#20
  | .rqIsfull => .hcw 0x00005#20
  | .rqDeq => .hcw 0x00006#20
  | .send snd dst size => .hcw (packetHcw 0x7#4 snd dst size)
  | .get => .hcw 0x00008#20
  | .has => .hcw 0x00009#20
  | .reservedOpAB op rest => .hcw (rest ++ op)
  | .reservedOpCF op rest => .hcw (rest ++ op)

/-- The instruction the decoder reads from an opcode-table word of `nbits` bits: the table's 6-bit rows are tick
selectors and its 20-bit rows host command words, each given in whole bytes. A word with a bit beyond its row's width
is none (DESIGN CHOICE, log 19). -/
def decodeTableWord (nbits w : Nat) : Option Instr :=
  if nbits ≤ 8 then
    if w < 2 ^ 6 then some (decodeSel (BitVec.ofNat 6 w)) else none
  else if w < 2 ^ 20 then
    match decodeHcw (BitVec.ofNat 20 w) with
    | .ok i => some i
    | .error _ => none
  else none

/-- The name of an instruction's row in spec/opcode_table.json. -/
def Instr.mnemonic : Instr → String
  | .rxHdr _ _ => "RX_HDR"
  | .rxPay _ _ => "RX_PAY"
  | .rxPar _ _ => "RX_PAR"
  | .txHdr _ _ => "TX_HDR"
  | .txPay _ _ => "TX_PAY"
  | .txPar _ _ => "TX_PAR"
  | .txRel _ _ => "TX_REL"
  | .idleRxstart _ _ => "IDLE_RXSTART"
  | .idleClaim _ => "IDLE_CLAIM"
  | .idleNop _ => "IDLE_NOP"
  | .reservedRxPh11 _ _ => "RESERVED_RX_PH11"
  | .reservedMode11 _ _ _ => "RESERVED_MODE11"
  | .init => "INIT"
  | .sqIsempty => "SQ_ISEMPTY"
  | .sqIsfull => "SQ_ISFULL"
  | .sqEnq _ _ _ => "SQ_ENQ"
  | .rqIsempty => "RQ_ISEMPTY"
  | .rqIsfull => "RQ_ISFULL"
  | .rqDeq => "RQ_DEQ"
  | .send _ _ _ => "SEND"
  | .get => "GET"
  | .has => "HAS"
  | .reservedOpAB _ _ => "RESERVED_OP_A_B"
  | .reservedOpCF _ _ => "RESERVED_OP_C_F"

end Sys2Proof
end

