-- ==== Sys2Proof/Machine/State.lean ====
section
/-! DEFINITION. The state of one block and its ports (10_state.md R20 to R35), as plain data, and the state after
power-on (70_reset_and_hazards.md R250). -/

namespace Sys2Proof.Machine

open Sys2Proof

/-! ### Value types -/

/-- The record of R20 over a type of payload bytes: `Option Byte` where a byte may be unwritten, `Byte` where every
byte is defined (DEDUCED, log 13). -/
structure PacketOf (α : Type) where
  snd : NodeId
  dst : NodeId
  size : PayloadSize
  pay : List α
  deriving DecidableEq, Repr

/-- A Packet as the host passes it in and gets it back; a payload byte `none` is `undef` (R20). -/
abbrev Packet := PacketOf (Option Byte)

/-- A Slot, one queue storage cell: the same four fields with the same types (R20). -/
abbrev Slot := PacketOf (Option Byte)

/-- The type of `WP`: a Packet "every payload byte" of which "is always defined" (R25). -/
abbrev WorkPacket := PacketOf Byte

/-- The zero packet ZP (R25) of a block with `cap` payload bytes per buffer. -/
def zeroPacket (cap : Nat) : WorkPacket where
  snd := 0
  dst := 0
  size := 0
  pay := List.replicate cap 0

/-- The content of a slot payload byte before its first write (R8 `SLOT_INIT`). -/
def slotFill : SlotInit → Option Byte
  | .undef => none
  | .zero => some 0

/-- A slot at power-on: header fields 0, payload bytes per `SLOT_INIT` (R250; log 12). -/
def freshSlot (c : Params) : Slot where
  snd := 0
  dst := 0
  size := 0
  pay := List.replicate c.payloadCap (slotFill c.slotInit)

/-- A Packet Queue: "a fixed-capacity circular buffer of Packets with two indices" (R28). Its capacity is a parameter. -/
structure Queue where
  head : Nat
  tail : Nat
  slots : List Slot
  deriving DecidableEq, Repr

/-- A queue at power-on (R250). -/
def freshQueue (c : Params) (cap : Nat) : Queue where
  head := 0
  tail := 0
  slots := List.replicate cap (freshSlot c)

/-- The engine's mode (R22), with the value 0b11 that no run reaches. -/
inductive Mode where
  | idle
  | sending
  | receiving
  | reserved
  deriving DecidableEq, Repr

/-- The fault codes of 60_exceptions.md R213. -/
inductive FaultCode where
  /-- Bit 0, `F_RX_OVF`. -/
  | rxOvf
  /-- Bit 1, `F_ENQ_OVR`. -/
  | enqOvr
  /-- Bit 2, `F_SCAN_UNDEF`. -/
  | scanUndef
  /-- Bit 3, `F_SCAN_OVR`. -/
  | scanOvr
  /-- Bit 4, `F_TX_OVR`. -/
  | txOvr
  /-- Bit 5, `F_UNREACHABLE`. -/
  | unreachable
  deriving DecidableEq, Repr

/-- The result port RES (30_encoding.md R94), in the shape each operation gives it (R95). The marks `empty` and `done` are
the model's (DESIGN CHOICE, log 4). -/
inductive Result where
  /-- No result is on the port: nothing has run, or an operation is in progress or held. -/
  | empty
  /-- An operation without a result has completed (INIT, SEND). -/
  | done
  /-- A one-bit result. -/
  | bit (b : Bool)
  /-- RQ_DEQ's result: valid = 0, or valid = 1 with a packet (42_link_api.md R187). -/
  | dequeued (r : Option Packet)
  /-- GET's result (R189). -/
  | packet (p : Packet)
  deriving DecidableEq, Repr

/-! ### H's hidden state (R35) -/

/-- Which operation an enqueue in micro-steps belongs to. -/
inductive EnqCaller where
  | sqEnq
  | send
  deriving DecidableEq, Repr

/-- Which operation a dequeue in micro-steps belongs to. -/
inductive DeqCaller where
  | rqDeq
  | get
  deriving DecidableEq, Repr

/-- One access unit of a slot copy: a header field or a payload byte (20_memory.md R54). -/
inductive SlotField where
  | snd
  | dst
  | size
  | byte (j : Nat)
  deriving DecidableEq, Repr

/-- Where H stands (R35): idle; held by a blocking operation (42_link_api.md R193); or between two micro-steps of an
enqueue (40_queue.md R117) or a dequeue (R118), with the index values it has read and its position in the copy. -/
inductive HostPhase where
  | idle
  /-- SEND of `p` waits for room in SQ. -/
  | sendHeld (p : Packet)
  /-- GET waits for a packet in RQ. -/
  | getHeld
  /-- Before E1. -/
  | enqRead (c : EnqCaller) (p : Packet)
  /-- Before E2, with the indices read at E1. -/
  | enqTest (c : EnqCaller) (p : Packet) (h t : Nat)
  /-- Before E3. -/
  | enqBound (c : EnqCaller) (p : Packet) (t : Nat)
  /-- In E4, with the slot writes still to do; before E5 when none is left. -/
  | enqCopy (c : EnqCaller) (p : Packet) (t : Nat) (todo : List SlotField)
  /-- Before Q1. -/
  | deqRead (c : DeqCaller)
  /-- Before Q2, with the indices read at Q1. -/
  | deqTest (c : DeqCaller) (t h : Nat)
  /-- In Q3, before payload byte `j` of the scan. -/
  | deqScan (c : DeqCaller) (h j : Nat)
  /-- In Q4, with the copies still to do and the result so far; before Q5 when none is left. -/
  | deqCopy (c : DeqCaller) (h : Nat) (todo : List SlotField) (acc : Packet)
  deriving DecidableEq, Repr

/-! ### The state -/

/-- One block, its ports, H's hidden state and the environment's side of the step relation. -/
structure State where
  /-- The parameters of R8, fixed when the block is built (R34); no step writes them (log 10). -/
  cfg : Params
  /-- `MODE` (R22). -/
  mode : Mode
  /-- `BIDX`, `cfg.bidxW` bits unsigned (R23; arithmetic in natural numbers, 00_scope.md R11). -/
  bidx : Nat
  /-- `PAR` (R24). -/
  par : Bool
  /-- `WP` (R25). -/
  wp : WorkPacket
  /-- `LINE_OE` (R26). -/
  lineOe : Bool
  /-- `LINE_OUT` (R26). -/
  lineOut : Bool
  /-- The send queue SQ (R28). -/
  sq : Queue
  /-- The receive queue RQ (R29). -/
  rq : Queue
  /-- `FAULT` (R30). -/
  fault : BitVec 8
  /-- `READY` (R31). -/
  ready : Bool
  /-- The result port RES (30_encoding.md R94). -/
  res : Result
  /-- The payload data port DIN (30_encoding.md R94). -/
  din : List Byte
  /-- H's hidden state (R35). -/
  host : HostPhase
  /-- MODEL'S OWN (DESIGN CHOICE, log 3): the commands H has still to present, in program order (20_memory.md R57). -/
  program : List Command
  /-- The environment's sticky `CONTENTION` mark (60_exceptions.md R224; log 11). -/
  contention : Bool
  /-- MODEL'S OWN (DESIGN CHOICE, log 2): the turns the schedule and the environment have settled (R37). -/
  agenda : List Turn
  /-- MODEL'S OWN (DESIGN CHOICE, log 2): turns taken so far, the argument of the free value `Config.environment`. -/
  turns : Nat
  deriving DecidableEq, Repr

/-- Why the machine stops with no state after it. -/
inductive Fault where
  /-- Raised by a host operation, or a step of one, while FAULT is not 0: "the operation takes no step" (42_link_api.md
  R180), neither agent steps any more (60_exceptions.md R212), stuck (93 U25; DEDUCED, log 7). Safe: nothing follows. -/
  | stopped
  deriving DecidableEq, Repr

/-- Why a host operation has no meaning (60_exceptions.md R214). The outcome that ends the run is R214's refusal mark
(DESIGN CHOICE, log 8). -/
inductive Refusal where
  /-- An instruction the model does not give a meaning; raised by a dispatch arm. Safe. -/
  | notModelled (mnemonic : String)
  /-- `R_PRE_INIT`: any operation but INIT while READY = 0. Safe. -/
  | preInit
  /-- `R_REINIT`: INIT while READY = 1. Safe. -/
  | reinit
  /-- `R_RESERVED_OP`: OP 0xA to 0xF. Safe. -/
  | reservedOp
  /-- `R_RESERVED_BITS`: a non-packet operation with HCW[19:4] not 0. Safe. -/
  | reservedBits
  deriving DecidableEq, Repr

/-- Power-on of a block built with parameters `c` (70_reset_and_hazards.md R250). The ports, H and the environment's side
are the model's choice (DESIGN CHOICE, logs 2, 3, 4, 11). -/
def State.powerOn (c : Params) : State where
  cfg := c
  mode := .idle
  bidx := 0
  par := false
  wp := zeroPacket c.payloadCap
  lineOe := false
  lineOut := true
  sq := freshQueue c c.sqCap
  rq := freshQueue c c.rqCap
  fault := 0
  ready := false
  res := .empty
  din := []
  host := .idle
  program := []
  contention := false
  agenda := []
  turns := 0

/-- The machine right after reset, with the default parameters of R8. -/
def State.reset : State := State.powerOn Params.deployment

end Sys2Proof.Machine
end

