-- ==== Sys2Proof/Machine/Flags.lean ====
section
/-! DEFINITION. The flag-like state (10_state.md R33): the parity accumulator and its two tests, the queue predicates,
the bit index and the frame phase of the selector. -/

namespace Sys2Proof.Machine

open Sys2Proof

/-! ### Parity (30_encoding.md R84) -/

/-- A data bit joins the accumulator: `PAR xor b` (41_engine.md R142, R145). -/
def parityAdd (par b : Bool) : Bool := xor par b

/-- The parity bit the transmitter drives: "0 if the accumulated data-bit sum is odd, else 1" (R147). -/
def parityBit (par : Bool) : Bool := !par

/-- The receiver's check: `(b xor PAR) == 1` (R144). -/
def parityPasses (par b : Bool) : Bool := xor b par

/-! ### Queue predicates -/

/-- `is_empty(q)` (40_queue.md R112). -/
def Queue.isEmpty (q : Queue) : Bool := q.head == q.tail

/-- The index after `i` in a queue of capacity `cap`: `(i + 1) mod CAP` (00_scope.md R11). -/
def nextIndex (cap i : Nat) : Nat := (i + 1) % cap

/-- `is_full(q)` (40_queue.md R113). -/
def Queue.isFull (cap : Nat) (q : Queue) : Bool := nextIndex cap q.tail == q.head

/-! ### The bit index -/

/-- `BIDX + 1` in a register of `w` bits (10_state.md R23). It never wraps in a legal block (41_engine.md R158). -/
def nextBit (w i : Nat) : Nat := (i + 1) % 2 ^ w

/-! ### Selector fields -/

/-- The 2-bit encoding of `MODE` (10_state.md R22). -/
def modeBits : Mode → BitVec 2
  | .idle => 0b00#2
  | .sending => 0b01#2
  | .receiving => 0b10#2
  | .reserved => 0b11#2

/-- The frame phase PH (30_encoding.md R91), with `n` the size assembled so far. -/
def framePhase (bidx n : Nat) : BitVec 2 :=
  if bidx < 16 then 0b00#2
  else if bidx < 16 + 8 * n then 0b01#2
  else if bidx = 16 + 8 * n then 0b10#2
  else 0b11#2

end Sys2Proof.Machine
end

