-- ==== Sys2Proof/Machine/Operands.lean ====
section
/-! DEFINITION. The operand forms: a bit of the working packet by frame index (30_encoding.md R81 to R83), and the
host packet built from HCW and DIN (R94). -/

namespace Sys2Proof.Machine

open Sys2Proof

/-- `v` with bit `k` set to `b` (00_scope.md R9). -/
def setBit (n : Nat) (v : BitVec n) (k : Nat) (b : Bool) : BitVec n :=
  if b then v ||| (1#n <<< k) else v &&& ~~~(1#n <<< k)

/-- The payload byte index of frame index `i` (R81). -/
def byteIndex (i : Nat) : Nat := (i - 16) / 8

/-- The bit position within its payload byte of frame index `i` (R81). -/
def bitInByte (i : Nat) : Nat := (i - 16) % 8

/-- `frameBit(p, i)`: data bit `i` of packet `p` (R82), in a block with `cap` payload bytes. -/
def frameBit (cap : Nat) (p : WorkPacket) (i : Nat) : Except FaultCode Bool :=
  if i < 4 then .ok (p.snd.getLsbD i)
  else if i < 8 then .ok (p.dst.getLsbD (i - 4))
  else if i < 16 then .ok (p.size.getLsbD (i - 8))
  else if cap ≤ byteIndex i then .error .txOvr
  else .ok ((p.pay.getD (byteIndex i) 0).getLsbD (bitInByte i))

/-- `setFrameBit(p, i, b)`: `p` with received data bit `b` at frame index `i` (R83). -/
def setFrameBit (cap : Nat) (p : WorkPacket) (i : Nat) (b : Bool) : Except FaultCode WorkPacket :=
  if i < 4 then .ok { p with snd := setBit 4 p.snd i b }
  else if i < 8 then .ok { p with dst := setBit 4 p.dst (i - 4) b }
  else if i < 16 then .ok { p with size := setBit 8 p.size (i - 8) b }
  else if cap ≤ byteIndex i then .error .rxOvf
  else .ok { p with pay := p.pay.set (byteIndex i) (setBit 8 (p.pay.getD (byteIndex i) 0) (bitInByte i) b) }

/-- The host packet `p = (SND, DST, SIZE, DIN)` of R94 as a buffer of `cap` bytes; a byte the port does not present is
`undef` (DESIGN CHOICE, log 5). -/
def hostPacket (cap : Nat) (snd dst : NodeId) (size : PayloadSize) (din : List Byte) : Packet where
  snd := snd
  dst := dst
  size := size
  pay := (din.map some ++ List.replicate cap none).take cap

/-- `WP` as a Packet: every byte defined (10_state.md R25). -/
def PacketOf.toPacket (p : WorkPacket) : Packet where
  snd := p.snd
  dst := p.dst
  size := p.size
  pay := p.pay.map some

/-- The undefined result buffer UB (42_link_api.md, introduction): fields 0, every payload byte `undef`. -/
def undefBuffer (cap : Nat) : Packet where
  snd := 0
  dst := 0
  size := 0
  pay := List.replicate cap none

end Sys2Proof.Machine
end

