-- ==== Sys2Proof/Machine/Ops.lean ====
section
/-! DEFINITION. The shared operations: raising a fault (60_exceptions.md R212), the Packet Queue (40_queue.md), the
gate of a tick (41_engine.md R140) and the checks before a host operation (42_link_api.md R180). -/

namespace Sys2Proof.Machine

open Sys2Proof

/-- The outcome of a step of this machine. -/
abbrev Out := Host.Outcome State Fault Refusal

/-! ### Faults -/

/-- The FAULT bit of a code (60_exceptions.md R213). -/
def faultMask : FaultCode → BitVec 8
  | .rxOvf => 0x01#8
  | .enqOvr => 0x02#8
  | .scanUndef => 0x04#8
  | .scanOvr => 0x08#8
  | .txOvr => 0x10#8
  | .unreachable => 0x20#8

/-- `raise Fault(c)`: sets `FAULT[c]` and commits no other write (60_exceptions.md R212). There is no return: "no step
clears FAULT", and no handler (R210). -/
def raise (c : FaultCode) (s : State) : State := { s with fault := s.fault ||| faultMask c }

/-- The end of a step: its writes take effect together, or, if it raised a fault, only FAULT changes (41_engine.md,
introduction; R212). -/
def commit (s : State) : Except FaultCode State → State
  | .ok s' => s'
  | .error c => raise c s

/-! ### The Packet Queue -/

/-- Slot `i` of a queue; beyond its storage, a slot nothing has written (DESIGN CHOICE, log 17). -/
def Queue.slotAt (q : Queue) (i : Nat) : Slot := q.slots.getD i (undefBuffer 0)

/-- `new(q, C)` (R111): both indices 0 and every payload byte as `SLOT_INIT` says; the header fields keep what they hold
(DEDUCED, log 12). -/
def Queue.new (c : Params) (q : Queue) : Queue where
  head := 0
  tail := 0
  slots := q.slots.map fun sl => { sl with pay := List.replicate c.payloadCap (slotFill c.slotInit) }

/-- A slot after an enqueue's copy: the header fields and "exactly payloadSize payload bytes"; the bytes after them
"keep whatever they held before" (R114). -/
def copyIn (p : Packet) (sl : Slot) : Slot where
  snd := p.snd
  dst := p.dst
  size := p.size
  pay := p.pay.take p.size.toNat ++ sl.pay.drop p.size.toNat

/-- `enqueue(q, p)` (R114), for a queue of capacity `cap`: `none` is the answer false, a full queue and no mutation. -/
def Queue.enqueue (c : Params) (cap : Nat) (q : Queue) (p : Packet) : Except FaultCode (Option Queue) :=
  if q.isFull cap then .ok none
  else if c.payloadCap < p.size.toNat then .error .enqOvr
  else .ok (some { q with
    slots := q.slots.set q.tail (copyIn p (q.slotAt q.tail))
    tail := nextIndex cap q.tail })

/-- The payload bytes up to and including the first 0x00: the scan of R115, answering the bytes it has read. -/
def scanBytes : List (Option Byte) → Except FaultCode (List Byte)
  | [] => .error .scanOvr
  | none :: _ => .error .scanUndef
  | some b :: rest =>
    if b == 0#8 then .ok [b]
    else
      match scanBytes rest with
      | .ok bs => .ok (b :: bs)
      | .error e => .error e

/-- The bytes a dequeue copies out of slot `sl`, in a block with `cap` payload bytes (R115). -/
def scanSlot (cap : Nat) (sl : Slot) : Except FaultCode (List Byte) := scanBytes (sl.pay.take cap)

/-- `scanLen(s)` (R115). -/
def scanLen (cap : Nat) (sl : Slot) : Except FaultCode Nat :=
  match scanSlot cap sl with
  | .ok bs => .ok bs.length
  | .error e => .error e

/-- The destination buffer `d` after a dequeue's copy out of slot `sl`, whose scanned bytes are `bs`: the header fields
and the scanned bytes; the bytes after them "keep d's previous content" (R116). -/
def copyOut {α : Type} (f : Byte → α) (sl : Slot) (bs : List Byte) (d : PacketOf α) : PacketOf α where
  snd := sl.snd
  dst := sl.dst
  size := sl.size
  pay := bs.map f ++ d.pay.drop bs.length

/-- `dequeue(q, d)` (R116), for a queue of capacity `cap`: `none` for an empty queue and no mutation. `f` places a byte
read into the buffer. -/
def Queue.dequeue {α : Type} (c : Params) (cap : Nat) (q : Queue) (f : Byte → α) (d : PacketOf α) :
    Except FaultCode (Option (PacketOf α × Queue)) :=
  if q.isEmpty then .ok none
  else
    match scanSlot c.payloadCap (q.slotAt q.head) with
    | .error e => .error e
    | .ok bs => .ok (some (copyOut f (q.slotAt q.head) bs d, { q with head := nextIndex cap q.head }))

/-! ### The tick -/

/-- One tick step: E runs the arm "while READY = 1 and FAULT = 0" (41_engine.md R140); otherwise no tick reaches E
(60_exceptions.md R216) and nothing changes. -/
def engineTick (s : State) (arm : State → Except FaultCode State) : Out :=
  .next (if s.ready && s.fault == 0#8 then commit s (arm s) else s)

/-- "Regardless of outcome, reset to IDLE" (R144): MODE, BIDX, PAR and WP. -/
def toIdle (s : State) : State :=
  { s with mode := .idle, bidx := 0, par := false, wp := zeroPacket s.cfg.payloadCap }

/-- Drive one data bit: LINE_OUT, PAR and BIDX (R145, R146). -/
def driveDataBit (s : State) : Except FaultCode State :=
  match frameBit s.cfg.payloadCap s.wp s.bidx with
  | .error e => .error e
  | .ok b => .ok { s with lineOut := b, par := parityAdd s.par b, bidx := nextBit s.cfg.bidxW s.bidx }

/-- Store one sampled data bit: WP, PAR and BIDX (R142, R143). -/
def storeDataBit (b : Bool) (s : State) : Except FaultCode State :=
  match setFrameBit s.cfg.payloadCap s.wp s.bidx b with
  | .error e => .error e
  | .ok p => .ok { s with wp := p, par := parityAdd s.par b, bidx := nextBit s.cfg.bidxW s.bidx }

/-! ### Host operations -/

/-- Whether H has no operation in progress or held (42_link_api.md R180). -/
def HostPhase.isIdle : HostPhase → Bool
  | .idle => true
  | _ => false

/-- Put a result on RES; the operation has ended (R180). -/
def finish (r : Result) (s : State) : State := { s with res := r, host := .idle }

/-- Hold the operation (R193): no result is on RES yet. -/
def hold (h : HostPhase) (s : State) : State := { s with res := .empty, host := h }

/-- The checks of R180 that remain once an operation is decoded, then the operation. A second operation does not start
while one is in progress or held (DESIGN CHOICE, log 6). -/
def hostOp (s : State) (run : State → Except FaultCode State) : Out :=
  if !s.ready then .refused .preInit
  else if s.fault != 0#8 then .fault .stopped
  else if !s.host.isIdle then .next s
  else .next (commit s (run s))

/-- A host word that stands for no operation with a meaning: R_PRE_INIT comes first (R180), then the word's own reason. -/
def refuseWord (isInit : Bool) (r : Refusal) (s : State) : Out :=
  if !s.ready && !isInit then .refused .preInit else .refused r

/-- The poll of SEND (R188): hold while SQ is full, else enqueue and complete. -/
def trySend (p : Packet) (s : State) : Except FaultCode State :=
  match s.sq.enqueue s.cfg s.cfg.sqCap p with
  | .error e => .error e
  | .ok none => .ok (hold (.sendHeld p) s)
  | .ok (some q) => .ok (finish .done { s with sq := q })

/-- The poll of GET (R189): hold while RQ is empty, else dequeue and complete. -/
def tryGet (s : State) : Except FaultCode State :=
  match s.rq.dequeue s.cfg s.cfg.rqCap some (undefBuffer s.cfg.payloadCap) with
  | .error e => .error e
  | .ok none => .ok (hold .getHeld s)
  | .ok (some (p, q)) => .ok (finish (.packet p) { s with rq := q })

end Sys2Proof.Machine
end

