-- ==== Sys2Proof/Machine/Line.lean ====
section
/-! DEFINITION. The line primitive (60_exceptions.md R220) and its resolution over several drivers (R222 to R224). -/

namespace Sys2Proof.Machine

open Sys2Proof

/-- The level of the line, or the contention of disagreeing drivers (R222). -/
inductive LineLevel where
  | level (b : Bool)
  | contended
  deriving DecidableEq, Repr

/-- The block's own line configuration (10_state.md R26). -/
def State.drive (s : State) : Drive := ⟨s.lineOe, s.lineOut⟩

/-- Line resolution (R222): no driver gives 1, agreeing drivers their level, disagreeing drivers contention. -/
def resolveLine (ds : List Drive) : LineLevel :=
  match (ds.filter (·.oe)).map (·.out) with
  | [] => .level true
  | v :: vs => if vs.all (· == v) then .level v else .contended

/-- The level a node samples: the line's level inverted by a noise draw of 1 (R223), or under contention the draw
itself (R224; DEDUCED, log 15). -/
def sampleLine (ds : List Drive) (noise draw : Bool) : Bool :=
  match resolveLine ds with
  | .level b => xor b noise
  | .contended => draw

/-- The environment's side of a tick: disagreeing drivers set the sticky CONTENTION mark (R224; log 11). -/
def markContention (ds : List Drive) (s : State) : State :=
  { s with contention := s.contention || decide (resolveLine ds = .contended) }

end Sys2Proof.Machine
end

