-- ==== Sys2Proof/Machine/Idle.lean ====
section
/-! DEFINITION. The idle arms (41_engine.md R149 to R151) and the reserved mode (R152). -/

namespace Sys2Proof.Machine

open Sys2Proof

/-- IDLE_RXSTART: the line is sensed low, start receiving (R149). -/
def execIdleRxstart (_sqne : Bool) (_ph : BitVec 2) (s : State) : Out :=
  engineTick s fun s =>
    .ok { s with mode := .receiving, wp := zeroPacket s.cfg.payloadCap, bidx := 0, par := false }

/-- IDLE_CLAIM: claim the line and load the head of SQ into WP (R150). A fault of the scan commits nothing. On an empty
SQ, which the selector never lets through, it raises F_UNREACHABLE (DESIGN CHOICE, log 9). -/
def idleClaim (s : State) : Except FaultCode State :=
  match s.sq.dequeue s.cfg s.cfg.sqCap id s.wp with
  | .error e => .error e
  | .ok none => .error .unreachable
  | .ok (some (p, q)) =>
    .ok { s with
      lineOe := true, lineOut := false, sq := q, wp := p, mode := .sending, bidx := 0, par := false }

/-- IDLE_CLAIM (R150). -/
def execIdleClaim (_ph : BitVec 2) (s : State) : Out := engineTick s idleClaim

/-- IDLE_NOP: no state is written (R151). -/
def execIdleNop (_ph : BitVec 2) (s : State) : Out := engineTick s .ok

/-- MODE = 0b11: `raise Fault(F_UNREACHABLE)` (R152). -/
def execReservedMode11 (_line _sqne : Bool) (_ph : BitVec 2) (s : State) : Out :=
  engineTick s fun _ => .error .unreachable

end Sys2Proof.Machine
end

