-- ==== Sys2Proof/Machine/Link.lean ====
section
/-! DEFINITION. The host operations, each whole at its linearisation point (42_link_api.md R181 to R190; 20_memory.md
R61), and the reserved operation codes (30_encoding.md R96). -/

namespace Sys2Proof.Machine

open Sys2Proof

/-- INIT's own effect (R181): the line a sensing input, both queues built, READY set. The engine registers other than
LINE_OE keep their values. -/
def initBlock (s : State) : State :=
  finish .done { s with
    lineOe := false, sq := s.sq.new s.cfg, rq := s.rq.new s.cfg, ready := true }

/-- INIT: once per block, R_REINIT afterwards; it does not clear FAULT (R181). The checks of R180 come first (DEDUCED,
log 7). -/
def execInit (s : State) : Out :=
  if s.fault != 0#8 then .fault .stopped
  else if !s.host.isIdle then .next s
  else if s.ready then .refused .reinit
  else .next (initBlock s)

/-- SQ_ISEMPTY (R182). -/
def execSqIsempty (s : State) : Out := hostOp s fun s => .ok (finish (.bit s.sq.isEmpty) s)

/-- SQ_ISFULL (R183). -/
def execSqIsfull (s : State) : Out := hostOp s fun s => .ok (finish (.bit (s.sq.isFull s.cfg.sqCap)) s)

/-- SQ_ENQ: RES is the answer of the enqueue (R184). No destination check. -/
def execSqEnq (snd dst : NodeId) (size : PayloadSize) (s : State) : Out :=
  hostOp s fun s =>
    match s.sq.enqueue s.cfg s.cfg.sqCap (hostPacket s.cfg.payloadCap snd dst size s.din) with
    | .error e => .error e
    | .ok none => .ok (finish (.bit false) s)
    | .ok (some q) => .ok (finish (.bit true) { s with sq := q })

/-- RQ_ISEMPTY (R185). -/
def execRqIsempty (s : State) : Out := hostOp s fun s => .ok (finish (.bit s.rq.isEmpty) s)

/-- RQ_ISFULL (R186). -/
def execRqIsfull (s : State) : Out := hostOp s fun s => .ok (finish (.bit (s.rq.isFull s.cfg.rqCap)) s)

/-- RQ_DEQ: dequeue into the undefined buffer; valid = 0 when RQ is empty (R187). -/
def execRqDeq (s : State) : Out :=
  hostOp s fun s =>
    match s.rq.dequeue s.cfg s.cfg.rqCap some (undefBuffer s.cfg.payloadCap) with
    | .error e => .error e
    | .ok none => .ok (finish (.dequeued none) s)
    | .ok (some (p, q)) => .ok (finish (.dequeued (some p)) { s with rq := q })

/-- SEND: a destination above MAX_DEST completes as a no-op; otherwise enqueue, holding while SQ is full (R188). -/
def execSend (snd dst : NodeId) (size : PayloadSize) (s : State) : Out :=
  hostOp s fun s =>
    if s.cfg.maxDest < dst.toNat then .ok (finish .done s)
    else trySend (hostPacket s.cfg.payloadCap snd dst size s.din) s

/-- GET: dequeue, holding while RQ is empty (R189). -/
def execGet (s : State) : Out := hostOp s tryGet

/-- HAS: the complement of RQ_ISEMPTY (R190). -/
def execHas (s : State) : Out := hostOp s fun s => .ok (finish (.bit (!s.rq.isEmpty)) s)

/-- OP 0xA or 0xB: refused with R_RESERVED_OP, after R_PRE_INIT (R180, R96). -/
def execReservedOpAB (_op : BitVec 4) (_rest : BitVec 16) (s : State) : Out := refuseWord false .reservedOp s

/-- OP 0xC to 0xF: refused with R_RESERVED_OP, after R_PRE_INIT (R180, R96). -/
def execReservedOpCF (_op : BitVec 4) (_rest : BitVec 16) (s : State) : Out := refuseWord false .reservedOp s

end Sys2Proof.Machine
end

