-- ==== Sys2Proof/Machine/Receive.lean ====
section
/-! DEFINITION. The receive arms (41_engine.md R142 to R144) and the reserved receive row (R152). -/

namespace Sys2Proof.Machine

open Sys2Proof

/-- RX_HDR: receive one header bit (R142). -/
def execRxHdr (line _sqne : Bool) (s : State) : Out := engineTick s (storeDataBit line)

/-- RX_PAY: receive one payload bit; F_RX_OVF at payload byte PAYLOAD_CAP (R143). -/
def execRxPay (line _sqne : Bool) (s : State) : Out :=
  engineTick s fun s =>
    if s.cfg.payloadCap ≤ byteIndex s.bidx then .error .rxOvf else storeDataBit line s

/-- RX_PAR: check the parity bit, deliver or drop, and return to IDLE (R144). A full RQ drops the packet. -/
def rxPar (line : Bool) (s : State) : Except FaultCode State :=
  if parityPasses s.par line then
    match s.rq.enqueue s.cfg s.cfg.rqCap s.wp.toPacket with
    | .error e => .error e
    | .ok none => .ok (toIdle s)
    | .ok (some q) => .ok (toIdle { s with rq := q })
  else .ok (toIdle s)

/-- RX_PAR (R144). -/
def execRxPar (line _sqne : Bool) (s : State) : Out := engineTick s (rxPar line)

/-- RECEIVING past the parity bit: `raise Fault(F_UNREACHABLE)` (R152). -/
def execReservedRxPh11 (_line _sqne : Bool) (s : State) : Out := engineTick s fun _ => .error .unreachable

end Sys2Proof.Machine
end

