-- ==== Sys2Proof/Machine/Transmit.lean ====
section
/-! DEFINITION. The send arms (41_engine.md R145 to R148). They do not read LINE (R154). -/

namespace Sys2Proof.Machine

open Sys2Proof

/-- TX_HDR: drive one header bit (R145). -/
def execTxHdr (_line _sqne : Bool) (s : State) : Out := engineTick s driveDataBit

/-- TX_PAY: drive one payload bit (R146). -/
def execTxPay (_line _sqne : Bool) (s : State) : Out := engineTick s driveDataBit

/-- TX_PAR: drive the parity bit; PAR is read and left unchanged (R147). -/
def execTxPar (_line _sqne : Bool) (s : State) : Out :=
  engineTick s fun s => .ok { s with lineOut := parityBit s.par, bidx := nextBit s.cfg.bidxW s.bidx }

/-- TX_REL: release the line and return to IDLE; LINE_OUT is left as it was (R148). -/
def execTxRel (_line _sqne : Bool) (s : State) : Out :=
  engineTick s fun s => .ok (toIdle { s with lineOe := false })

end Sys2Proof.Machine
end

