-- ==== Sys2Proof/Machine/Dispatch.lean ====
section
/-! DEFINITION. One arm per instruction. -/

namespace Sys2Proof.Machine

open Sys2Proof

def exec (i : Instr) (s : State) : Host.Outcome State Fault Refusal :=
  match i with
  -- tick arms, 41_engine.md
  | .rxHdr line sqne => Sys2Proof.Machine.execRxHdr line sqne s
  | .rxPay line sqne => Sys2Proof.Machine.execRxPay line sqne s
  | .rxPar line sqne => Sys2Proof.Machine.execRxPar line sqne s
  | .txHdr line sqne => Sys2Proof.Machine.execTxHdr line sqne s
  | .txPay line sqne => Sys2Proof.Machine.execTxPay line sqne s
  | .txPar line sqne => Sys2Proof.Machine.execTxPar line sqne s
  | .txRel line sqne => Sys2Proof.Machine.execTxRel line sqne s
  | .idleRxstart sqne ph => Sys2Proof.Machine.execIdleRxstart sqne ph s
  | .idleClaim ph => Sys2Proof.Machine.execIdleClaim ph s
  | .idleNop ph => Sys2Proof.Machine.execIdleNop ph s
  | .reservedRxPh11 line sqne => Sys2Proof.Machine.execReservedRxPh11 line sqne s
  | .reservedMode11 line sqne ph => Sys2Proof.Machine.execReservedMode11 line sqne ph s
  -- host operations, 42_link_api.md
  | .init => Sys2Proof.Machine.execInit s
  | .sqIsempty => Sys2Proof.Machine.execSqIsempty s
  | .sqIsfull => Sys2Proof.Machine.execSqIsfull s
  | .sqEnq snd dst size => Sys2Proof.Machine.execSqEnq snd dst size s
  | .rqIsempty => Sys2Proof.Machine.execRqIsempty s
  | .rqIsfull => Sys2Proof.Machine.execRqIsfull s
  | .rqDeq => Sys2Proof.Machine.execRqDeq s
  | .send snd dst size => Sys2Proof.Machine.execSend snd dst size s
  | .get => Sys2Proof.Machine.execGet s
  | .has => Sys2Proof.Machine.execHas s
  | .reservedOpAB op rest => Sys2Proof.Machine.execReservedOpAB op rest s
  | .reservedOpCF op rest => Sys2Proof.Machine.execReservedOpCF op rest s

end Sys2Proof.Machine
end

