-- ==== Sys2Proof/Machine/Micro.lean ====
section
/-! DEFINITION. Host queue operations as micro-steps (40_queue.md R117, R118), between which the schedule may put any
number of ticks (20_memory.md R56). What a micro turn is, is the model's choice (DESIGN CHOICE, log 14). -/

namespace Sys2Proof.Machine

open Sys2Proof

/-- The access units of a slot copy of `n` payload bytes (20_memory.md R54). -/
def slotFields (n : Nat) : List SlotField := [.snd, .dst, .size] ++ (List.range n).map .byte

/-- Copy one field or byte of `p` into `d`, one access (R54). -/
def writeField (p : Packet) (f : SlotField) (d : Packet) : Packet :=
  match f with
  | .snd => { d with snd := p.snd }
  | .dst => { d with dst := p.dst }
  | .size => { d with size := p.size }
  | .byte j => { d with pay := d.pay.set j (p.pay.getD j none) }

/-- The answer of a host enqueue: RES for SQ_ENQ (42_link_api.md R184); for SEND, complete or go round its loop (R188). -/
def enqAnswer (c : EnqCaller) (p : Packet) (accepted : Bool) (s : State) : State :=
  match c, accepted with
  | .sqEnq, b => finish (.bit b) s
  | .send, true => finish .done s
  | .send, false => hold (.sendHeld p) s

/-- The answer of a host dequeue: RES for RQ_DEQ (R187); for GET, complete or go round its loop (R189). -/
def deqAnswer (c : DeqCaller) (r : Option Packet) (s : State) : State :=
  match c, r with
  | .rqDeq, r => finish (.dequeued r) s
  | .get, some p => finish (.packet p) s
  | .get, none => hold .getHeld s

/-- E4: write one of the pending fields of `p` into slot `t` of SQ, the one `pick` chooses. -/
def enqWrite (pick : Nat) (c : EnqCaller) (p : Packet) (t : Nat) (f : SlotField) (fs : List SlotField) (s : State) :
    State :=
  let k := pick % (fs.length + 1)
  { s with
    sq := { s.sq with slots := s.sq.slots.set t (writeField p ((f :: fs).getD k f) (s.sq.slotAt t)) }
    host := .enqCopy c p t ((f :: fs).eraseIdx k) }

/-- Q3: scan payload byte `j` of slot `h` of RQ (R115); at the terminator the copy begins. -/
def deqScanByte (c : DeqCaller) (h j : Nat) (s : State) : Except FaultCode State :=
  match ((s.rq.slotAt h).pay.take s.cfg.payloadCap)[j]? with
  | none => .error .scanOvr
  | some none => .error .scanUndef
  | some (some b) =>
    .ok { s with
      host :=
        if b == 0#8 then .deqCopy c h (slotFields (j + 1)) (undefBuffer s.cfg.payloadCap) else .deqScan c h (j + 1) }

/-- One micro-step of H's operation. -/
def microStep (pick : Nat) (s : State) : Except FaultCode State :=
  match s.host with
  | .idle => .ok s
  -- the polls of R188 and R189
  | .sendHeld p => .ok (if s.sq.isFull s.cfg.sqCap then s else { s with host := .enqRead .send p })
  | .getHeld => .ok (if s.rq.isEmpty then s else { s with host := .deqRead .get })
  -- E1 to E5
  | .enqRead c p => .ok { s with host := .enqTest c p s.sq.head s.sq.tail }
  | .enqTest c p h t =>
    .ok (if nextIndex s.cfg.sqCap t == h then enqAnswer c p false s else { s with host := .enqBound c p t })
  | .enqBound c p t =>
    if s.cfg.payloadCap < p.size.toNat then .error .enqOvr
    else .ok { s with host := .enqCopy c p t (slotFields p.size.toNat) }
  | .enqCopy c p t (f :: fs) => .ok (enqWrite pick c p t f fs s)
  | .enqCopy c p t [] => .ok (enqAnswer c p true { s with sq := { s.sq with tail := nextIndex s.cfg.sqCap t } })
  -- Q1 to Q5
  | .deqRead c => .ok { s with host := .deqTest c s.rq.tail s.rq.head }
  | .deqTest c t h => .ok (if h == t then deqAnswer c none s else { s with host := .deqScan c h 0 })
  | .deqScan c h j => deqScanByte c h j s
  | .deqCopy c h (f :: fs) acc => .ok { s with host := .deqCopy c h fs (writeField (s.rq.slotAt h) f acc) }
  | .deqCopy c h [] acc =>
    .ok (deqAnswer c (some acc) { s with rq := { s.rq with head := nextIndex s.cfg.rqCap h } })

/-- Start an operation in micro-steps. Only an enqueue or a dequeue has any (R56); every other operation is one step. -/
def beginMicro (i : Instr) (s : State) : Out :=
  match i with
  | .sqEnq snd dst size =>
    hostOp s fun s => .ok (hold (.enqRead .sqEnq (hostPacket s.cfg.payloadCap snd dst size s.din)) s)
  | .send snd dst size =>
    hostOp s fun s =>
      .ok (if s.cfg.maxDest < dst.toNat then finish .done s
        else hold (.sendHeld (hostPacket s.cfg.payloadCap snd dst size s.din)) s)
  | .rqDeq => hostOp s fun s => .ok (hold (.deqRead .rqDeq) s)
  | .get => hostOp s fun s => .ok (hold .getHeld s)
  | .rxHdr _ _ | .rxPay _ _ | .rxPar _ _ | .txHdr _ _ | .txPay _ _ | .txPar _ _ | .txRel _ _ | .idleRxstart _ _
  | .idleClaim _ | .idleNop _ | .reservedRxPh11 _ _ | .reservedMode11 _ _ _ | .init | .sqIsempty | .sqIsfull
  | .rqIsempty | .rqIsfull | .has | .reservedOpAB _ _ | .reservedOpCF _ _ => exec i s

end Sys2Proof.Machine
end

