-- ==== Sys2Proof/Machine/Turn.lean ====
section
/-! DEFINITION. One turn of the block: how a tick forms its selector and how H's next operation is presented. -/

namespace Sys2Proof.Machine

open Sys2Proof

/-! ### The tick -/

/-- SEL as the engine forms it (30_encoding.md R90). -/
def formSel (s : State) (line : Bool) : Sel :=
  mkSel (modeBits s.mode) line (!s.sq.isEmpty) (framePhase s.bidx s.wp.size.toNat)

/-- One tick of E that samples `line`: form SEL, execute the single arm it selects, end (41_engine.md R140; log 16). -/
def tickAt (line : Bool) (s : State) : Out := exec (decodeSel (formSel s line)) s

/-- A tick turn: the line is resolved from every node's drive as it stood after the previous tick (60_exceptions.md
R221), sampled (R223, R224), and the tick reaches E. -/
def tickTurn (peers : List Drive) (noise draw : Bool) (s : State) : Out :=
  tickAt (sampleLine (s.drive :: peers) noise draw) (markContention (s.drive :: peers) s)

/-! ### H -/

/-- The command on HCW and DIN (30_encoding.md R94). -/
def present (c : Command) (rest : List Command) (s : State) : State := { s with program := rest, din := c.din }

/-- Present H's next command, decode it and run it by `run`; a word that decodes to nothing is refused by its reason. With
no command left H does nothing (DESIGN CHOICE, log 3). -/
def fetchHost (run : Instr → State → Out) (s : State) : Out :=
  match s.program with
  | [] => .next s
  | c :: rest =>
    match decodeHcw c.hcw with
    | .ok i => run i (present c rest s)
    | .error .reservedBits => refuseWord (hcwOp c.hcw == 0#4) .reservedBits s

/-- A further step of an operation already started: none while FAULT is not 0 (60_exceptions.md R212). -/
def hostStep (s : State) (run : State → Except FaultCode State) : Out :=
  if s.fault != 0#8 then .fault .stopped else .next (commit s (run s))

/-- A host turn: the next operation whole, or one poll of the held one, or the next micro-step of one in progress. -/
def hostTurn (s : State) : Out :=
  match s.host with
  | .idle => fetchHost exec s
  | .sendHeld p => hostStep s (trySend p)
  | .getHeld => hostStep s tryGet
  | _ => hostStep s (microStep 0)

/-- A micro turn: start the next operation in micro-steps, or take the next one. -/
def microTurn (pick : Nat) (s : State) : Out :=
  match s.host with
  | .idle => fetchHost beginMicro s
  | _ => hostStep s (microStep pick)

/-! ### The turn -/

/-- The effect of one turn. -/
def runTurn (t : Turn) (s : State) : Out :=
  match t with
  | .tick peers noise draw => tickTurn peers noise draw s
  | .host => hostTurn s
  | .micro pick => microTurn pick s

/-- The turn that comes next: the first of the agenda, or the environment's free choice (DESIGN CHOICE, log 2). -/
def nextTurn (s : State) : Turn :=
  match s.agenda with
  | t :: _ => t
  | [] => Config.environment s.turns

/-- The state with that turn taken off the agenda. -/
def takeTurn (s : State) : State := { s with agenda := s.agenda.tail, turns := s.turns + 1 }

/-! ### Placing an instruction where the next step runs it (DESIGN CHOICE, log 3) -/

/-- A state whose next tick forms `w`, on a line no other node drives: MODE, the frame phase, SQ empty or holding one
terminated packet, and the noise draw that gives LINE. The tick reaches E. -/
def placeSel (w : Sel) (s : State) : State :=
  let s' : State := { s with
    mode := if selMode w == 0b00#2 then .idle else if selMode w == 0b01#2 then .sending
      else if selMode w == 0b10#2 then .receiving else .reserved
    bidx := if selPh w == 0b00#2 then 0 else if selPh w == 0b11#2 then 17 else 16
    wp := { s.wp with size := if selPh w == 0b01#2 then 1 else 0 }
    sq := if selSqne w then
        { head := 0, tail := 1, slots := s.sq.slots.set 0 (copyIn (hostPacket s.cfg.payloadCap 0 0 1 [0]) (s.sq.slotAt 0)) }
      else { s.sq with tail := s.sq.head }
    ready := true
    fault := 0 }
  { s' with agenda := [.tick [] (xor (sampleLine [s'.drive] false false) (selLine w)) false] }

/-- A state in which H, idle, presents `w` with SIZE payload bytes of 0 on DIN as its next operation. The block is
ready, as INIT leaves it, unless the word is INIT. -/
def placeHcw (w : Hcw) (s : State) : State := { s with
  ready := hcwOp w != 0#4
  fault := 0
  host := .idle
  program := [{ hcw := w, din := if isPacketOp (hcwOp w) then List.replicate (hcwSize w).toNat 0 else [] }]
  agenda := [.host] }

end Sys2Proof.Machine
end

