-- ==== Sys2Proof/Machine/Step.lean ====
section
/-! DEFINITION. One step of the machine, and where an instruction is placed for the next step to run it. -/

namespace Sys2Proof.Machine

open Sys2Proof

/-- One step: the next turn (10_state.md R37; DESIGN CHOICE, log 2). -/
def step (s : State) : Host.Outcome State Fault Refusal := runTurn (nextTurn s) (takeTurn s)

/-- `s` with the opcode-table word `w` of `nbits` bits placed so that the very next step runs it: a tick selector for a
row of at most 8 bits, a host command word otherwise (DESIGN CHOICE, log 3). -/
def State.withFetchWord (s : State) (nbits w : Nat) : State :=
  if nbits ≤ 8 then placeSel (BitVec.ofNat 6 w) s else placeHcw (BitVec.ofNat 20 w) s

end Sys2Proof.Machine
end

