-- ==== Sys2Proof/Machine/Wire.lean ====
section
/-! DEFINITION. The wire frame as a sequence of bits (30_encoding.md R80, R81, R84), and runs of ticks. -/

namespace Sys2Proof.Machine

open Sys2Proof

/-- The bits of a field, least-significant first (20_memory.md R52). -/
def fieldBits (n : Nat) (v : BitVec n) : List Bool := (List.range n).map fun k => v.getLsbD k

/-- The data bits of a packet's frame: sender, destination, payloadSize, the payload bytes (R80). -/
def dataBits (p : WorkPacket) : List Bool :=
  fieldBits 4 p.snd ++ fieldBits 4 p.dst ++ fieldBits 8 p.size ++ (p.pay.take p.size.toNat).flatMap (fieldBits 8)

/-- The xor of a sequence of bits: 1 iff the number of one bits is odd. -/
def xorBits (bs : List Bool) : Bool := bs.foldr xor false

/-- The frame of a packet: its data bits, then the odd-parity bit (R80, R84). -/
def frame (p : WorkPacket) : List Bool := dataBits p ++ [!xorBits (dataBits p)]

/-- The length of the frame of a packet of size `n` (R80). -/
def frameLength (n : Nat) : Nat := 17 + 8 * n

/-- The state after a tick's outcome. A tick always has a next state (`tickAt_exists`), so the other two cases never
arise. -/
def settle (s : State) : Out → State
  | .next s' => s'
  | .fault _ => s
  | .refused _ => s

/-- The state after a tick that samples `line`. -/
def afterTick (line : Bool) (s : State) : State := settle s (tickAt line s)

/-- The state after ticks that sample `lines`, in order. -/
def afterTicks (lines : List Bool) (s : State) : State := lines.foldl (fun s l => afterTick l s) s

/-- What follows an outcome. A fault or a refusal ends the run: it stays the outcome of the whole (60_exceptions.md
R214: the refusal mark "is kept for the whole run"). -/
def andThen (o : Out) (run : State → Out) : Out :=
  match o with
  | .next s => run s
  | .fault f => .fault f
  | .refused r => .refused r

/-- The outcome of turns, in order. -/
def runTurns : List Turn → State → Out
  | [], s => .next s
  | t :: ts, s => andThen (runTurn t s) (runTurns ts)

end Sys2Proof.Machine
end

