-- ==== Sys2Proof/Machine/Bus.lean ====
section
/-! DEFINITION. Several blocks on one line (60_exceptions.md R221 to R225): one global tick, the line resolved from
every node's drive, noise and contention draws for each node. One common tick (D2; log 18). -/

namespace Sys2Proof.Machine

open Sys2Proof

/-- The nodes of a line, the number of the next global tick, and the refusal mark: the node and the reason of the first
operation refused (60_exceptions.md R214). -/
structure Bus where
  nodes : List State
  tick : Nat
  refused : Option (Nat × Refusal)
  deriving DecidableEq, Repr

/-- A line of `NODES` blocks, at least one, each built with that parameter (00_scope.md R8; 60_exceptions.md R221). -/
abbrev Bus.wf (b : Bus) : Prop := 1 ≤ b.nodes.length ∧ ∀ s ∈ b.nodes, s.cfg.nodes = b.nodes.length

/-- Power-on of a line of `NODES` blocks built with parameters `c`, before global tick 0. -/
def Bus.powerOn (c : Params) : Bus where
  nodes := List.replicate c.nodes (State.powerOn c)
  tick := 0
  refused := none

/-- Every node's line configuration. -/
def Bus.drives (b : Bus) : List Drive := b.nodes.map State.drive

/-- The line configurations that node `i` sees beside its own. -/
def Bus.peers (b : Bus) (i : Nat) : List Drive := b.drives.eraseIdx i

/-- The line level after the latest tick (R222). -/
def Bus.level (b : Bus) : LineLevel := resolveLine b.drives

/-- ENV's sticky CONTENTION mark (R224), which every node's state carries. -/
def Bus.contention (b : Bus) : Bool := b.nodes.any (·.contention)

/-- The global tick at which node `i` has noise draw `noise[i]` and contention draw `draw[i]`, 0 where none is listed.
"Steps within one global tick do not see one another's writes" (R221). A node that is not ready or has a fault takes no
step, by the gate of its own tick (41_engine.md R140). -/
def Bus.globalTick (noise draw : List Bool) (b : Bus) : Bus where
  nodes := b.nodes.mapIdx fun i s =>
    settle s (runTurn (.tick (b.peers i) (noise.getD i false) (draw.getD i false)) s)
  tick := b.tick + 1
  refused := b.refused

/-- Set the refusal mark, which keeps the first refusal of the run (R214; DESIGN CHOICE, log 8). -/
def Bus.markRefused (i : Nat) (r : Refusal) (b : Bus) : Bus :=
  { b with refused := b.refused.or (some (i, r)) }

/-- A turn of node `i`'s host between ticks; no other node is touched (R225). A block stopped by a fault stays as it is
(R212), and a refused operation "changes no state of the block" and is marked (R214). -/
def Bus.nodeTurn (i : Nat) (turn : Turn) (b : Bus) : Bus :=
  match b.nodes[i]? with
  | none => b
  | some s =>
    match runTurn turn s with
    | .next t => { b with nodes := b.nodes.set i t }
    | .fault _ => b
    | .refused r => b.markRefused i r

/-- Node `i`'s host takes a whole turn. -/
def Bus.hostTurn (i : Nat) (b : Bus) : Bus := b.nodeTurn i .host

/-- Node `i`'s host takes a micro-step. -/
def Bus.microTurn (i pick : Nat) (b : Bus) : Bus := b.nodeTurn i (.micro pick)

/-- `k` global ticks under the clean-line premise (R223). -/
def Bus.cleanTicks : Nat → Bus → Bus
  | 0, b => b
  | k + 1, b => Bus.cleanTicks k (b.globalTick [] [])

end Sys2Proof.Machine
end

