-- ==== Sys2Proof/Safety.lean ====
section
/-! DEFINITION. The terms claims are made in: when the block runs, the invariants of its state (41_engine.md R155;
20_memory.md R60), and what a queue holds. -/

namespace Sys2Proof.Machine

open Sys2Proof

/-! ### When the block runs -/

/-- Ticks reach E (41_engine.md R140). -/
abbrev Ticking (s : State) : Prop := s.ready = true ∧ s.fault = 0#8

/-- H's next operation starts (42_link_api.md R180). -/
abbrev Accepting (s : State) : Prop := s.ready = true ∧ s.fault = 0#8 ∧ s.host = .idle

/-- A turn of the tick source. -/
def isTick : Turn → Bool
  | .tick _ _ _ => true
  | .host => false
  | .micro _ => false

/-- A micro-step of H. -/
def isMicro : Turn → Bool
  | .tick _ _ _ => false
  | .host => false
  | .micro _ => true

/-! ### Buffers and queues -/

/-- A slot of a block with `cap` payload bytes: a full buffer, and a size that fits it. The size bound is the check of
40_queue.md R114. -/
abbrev slotWf (cap : Nat) (sl : Slot) : Prop := sl.pay.length = cap ∧ sl.size.toNat ≤ cap

/-- A queue of capacity `cap`: both indices in `0..cap-1` (40_queue.md R121) and `cap` well-formed slots (R28). -/
abbrev Queue.wf (payloadCap cap : Nat) (q : Queue) : Prop :=
  q.head < cap ∧ q.tail < cap ∧ q.slots.length = cap ∧ ∀ sl ∈ q.slots, slotWf payloadCap sl

/-- The number of packets a queue holds: `(tail - head) mod C` (R119). -/
def Queue.count (cap : Nat) (q : Queue) : Nat := (q.tail + cap - q.head) % cap

/-- The slots a queue holds, the next to dequeue first: the consumer-owned slots of 20_memory.md R60. -/
def Queue.contents (cap : Nat) (q : Queue) : List Slot :=
  (List.range (q.count cap)).map fun k => q.slotAt ((q.head + k) % cap)

/-! ### The engine (R155) -/

/-- The xor of the data bits of `wp` before frame index BIDX. -/
def sentParity (s : State) : Bool := xorBits ((dataBits s.wp).take s.bidx)

/-- IDLE: `BIDX = 0`, `PAR = 0`, `WP = ZP` and `LINE_OE = 0`. -/
abbrev IdleInv (s : State) : Prop :=
  s.bidx = 0 ∧ s.par = false ∧ s.wp = zeroPacket s.cfg.payloadCap ∧ s.lineOe = false

/-- SENDING: `LINE_OE = 1`, `WP.size <= PAYLOAD_CAP`, `BIDX <= 17 + 8·WP.size`, and PAR the parity of the data bits
driven, until the parity bit has been. -/
abbrev SendingInv (s : State) : Prop :=
  s.lineOe = true ∧ s.wp.size.toNat ≤ s.cfg.payloadCap ∧ s.bidx ≤ 17 + 8 * s.wp.size.toNat ∧
    (s.bidx ≤ 16 + 8 * s.wp.size.toNat → s.par = sentParity s)

/-- RECEIVING: `LINE_OE = 0`, `BIDX <= 16 + 8·WP.size`, no bit stored beyond the buffer, and PAR the parity of the bits
sampled, which WP holds. -/
abbrev ReceivingInv (s : State) : Prop :=
  s.lineOe = false ∧ s.bidx ≤ 16 + 8 * s.wp.size.toNat ∧ s.bidx ≤ 16 + 8 * s.cfg.payloadCap ∧
    s.par = sentParity s

/-- The engine invariants of R155; MODE is never 0b11. -/
abbrev EngineInv (s : State) : Prop :=
  s.wp.pay.length = s.cfg.payloadCap ∧ s.mode ≠ .reserved ∧ (s.mode = .idle → IdleInv s) ∧
    (s.mode = .sending → SendingInv s) ∧ (s.mode = .receiving → ReceivingInv s)

/-! ### H between two micro-steps (20_memory.md R60) -/

/-- What holds while H is in an operation: the packet it carries fills its buffer, the index it owns is the one it read,
and the slot it copies is its own (the other side's index, read earlier, can only be stale in the safe direction). -/
def hostInv (s : State) : Bool :=
  match s.host with
  | .idle => true
  | .sendHeld p => p.pay.length == s.cfg.payloadCap
  | .getHeld => true
  | .enqRead _ p => p.pay.length == s.cfg.payloadCap
  | .enqTest _ p h t =>
    p.pay.length == s.cfg.payloadCap && t == s.sq.tail && (nextIndex s.cfg.sqCap t == h || !s.sq.isFull s.cfg.sqCap)
  | .enqBound _ p t => p.pay.length == s.cfg.payloadCap && t == s.sq.tail && !s.sq.isFull s.cfg.sqCap
  | .enqCopy _ p t _ =>
    p.pay.length == s.cfg.payloadCap && decide (p.size.toNat ≤ s.cfg.payloadCap) && t == s.sq.tail &&
      !s.sq.isFull s.cfg.sqCap
  | .deqRead _ => true
  | .deqTest _ t h => h == s.rq.head && (h == t || !s.rq.isEmpty)
  | .deqScan _ h _ => h == s.rq.head && !s.rq.isEmpty
  | .deqCopy _ h _ _ => h == s.rq.head && !s.rq.isEmpty

/-! ### The whole state -/

/-- The invariant of the block: legal parameters, well-formed queues, a BIDX within its width, the engine invariants, H's
side, nothing running before INIT, and the reserved FAULT bits 0 (60_exceptions.md R213). -/
structure Inv (s : State) : Prop where
  legal : s.cfg.legal = true
  sq : s.sq.wf s.cfg.payloadCap s.cfg.sqCap
  rq : s.rq.wf s.cfg.payloadCap s.cfg.rqCap
  bidxWidth : s.bidx < 2 ^ s.cfg.bidxW
  engine : EngineInv s
  host : hostInv s = true
  boot : s.ready = false → s.mode = .idle ∧ s.host = .idle
  faultBits : s.fault &&& 0xC0#8 = 0#8

/-! ### Packets and queue runs -/

/-- Whether a buffer holds the packet of a host operation (30_encoding.md R94): `snd = SND`, `dst = DST`, `size = SIZE` and
`pay[j] = DIN[j]` for each `j < SIZE` that the buffer of `cap` bytes has and the port presents. -/
def carries (cap : Nat) (p : Packet) (snd dst : NodeId) (size : PayloadSize) (din : List Byte) : Prop :=
  p.snd = snd ∧ p.dst = dst ∧ p.size = size ∧
    ∀ (j : Nat) (b : Byte), j < size.toNat → j < cap → din[j]? = some b → p.pay[j]? = some (some b)

/-- The 16 header bits of a packet as one word, frame index 0 at bit 0 (30_encoding.md R81). -/
def headerWord {α : Type} (p : PacketOf α) : BitVec 16 := p.size ++ p.dst ++ p.snd

/-- A listener after a valid frame of `w`: RQ holds it, unless RQ is full (41_engine.md R144). -/
def deliver (w : WorkPacket) (r : State) : State :=
  match r.rq.enqueue r.cfg r.cfg.rqCap w.toPacket with
  | .ok (some q) => { r with rq := q }
  | .ok none => r
  | .error _ => r

/-- An operation on one queue, by its producer or its consumer. -/
inductive QueueOp where
  | enq (p : Packet)
  | deq
  deriving DecidableEq, Repr

/-- A run of operations on a queue of capacity `cap`: the packets accepted, the packets returned (each into an undefined
buffer), both in order, and the queue at the end. -/
def runQueueOps (c : Params) (cap : Nat) : List QueueOp → Queue → Except FaultCode (List Packet × List Packet × Queue)
  | [], q => .ok ([], [], q)
  | .enq p :: os, q =>
    match q.enqueue c cap p with
    | .error e => .error e
    | .ok none => runQueueOps c cap os q
    | .ok (some q') =>
      match runQueueOps c cap os q' with
      | .error e => .error e
      | .ok (ins, outs, r) => .ok (p :: ins, outs, r)
  | .deq :: os, q =>
    match q.dequeue c cap some (undefBuffer c.payloadCap) with
    | .error e => .error e
    | .ok none => runQueueOps c cap os q
    | .ok (some (p, q')) =>
      match runQueueOps c cap os q' with
      | .error e => .error e
      | .ok (ins, outs, r) => .ok (ins, p :: outs, r)

/-! ### Rows of the opcode table, as the spec prints them -/

/-- A row of a decode table: mnemonic, match and mask. -/
structure Row (n : Nat) where
  mnemonic : String
  pattern : BitVec n
  mask : BitVec n
  deriving DecidableEq, Repr

/-- Whether a word matches a row. -/
def Row.hits {n : Nat} (r : Row n) (w : BitVec n) : Bool := w &&& r.mask == r.pattern

/-- The match and mask pairs over SEL (30_encoding.md R92; the two reserved rows from the opcode table). -/
def tickRows : List (Row 6) :=
  [⟨"RX_HDR", 0x20, 0x33⟩, ⟨"RX_PAY", 0x21, 0x33⟩, ⟨"RX_PAR", 0x22, 0x33⟩, ⟨"TX_HDR", 0x10, 0x33⟩,
   ⟨"TX_PAY", 0x11, 0x33⟩, ⟨"TX_PAR", 0x12, 0x33⟩, ⟨"TX_REL", 0x13, 0x33⟩, ⟨"IDLE_RXSTART", 0x00, 0x38⟩,
   ⟨"IDLE_CLAIM", 0x0C, 0x3C⟩, ⟨"IDLE_NOP", 0x08, 0x3C⟩, ⟨"RESERVED_RX_PH11", 0x23, 0x33⟩,
   ⟨"RESERVED_MODE11", 0x30, 0x30⟩]

/-- The match and mask pairs over HCW (30_encoding.md R95, R96; the opcode table). -/
def hostRows : List (Row 20) :=
  [⟨"INIT", 0x00000, 0xFFFFF⟩, ⟨"SQ_ISEMPTY", 0x00001, 0xFFFFF⟩, ⟨"SQ_ISFULL", 0x00002, 0xFFFFF⟩,
   ⟨"SQ_ENQ", 0x00003, 0x0000F⟩, ⟨"RQ_ISEMPTY", 0x00004, 0xFFFFF⟩, ⟨"RQ_ISFULL", 0x00005, 0xFFFFF⟩,
   ⟨"RQ_DEQ", 0x00006, 0xFFFFF⟩, ⟨"SEND", 0x00007, 0x0000F⟩, ⟨"GET", 0x00008, 0xFFFFF⟩,
   ⟨"HAS", 0x00009, 0xFFFFF⟩, ⟨"RESERVED_OP_A_B", 0x0000A, 0x0000E⟩, ⟨"RESERVED_OP_C_F", 0x0000C, 0x0000C⟩]

end Sys2Proof.Machine
end

