-- ==== Sys2Proof/Certificates/Slice0/Obligations.lean ====
section
/-! DEFINITION. The statements about the model, from the numbered rules of spec/. -/

open Sys2Proof Sys2Proof.Machine

/-! ### Encodings (30_encoding.md) -/

/-- R92, R95: every well-formed instruction is what its own word decodes to. -/
def Obligations.EncodedInstructionDecodesBack : Prop :=
  ∀ i : Instr, i.wf = true → decode (encode i) = .ok i

/-- R92, R95, R96: every word that decodes is the one encoding of its instruction, and that is well-formed. -/
def Obligations.DecodedWordIsItsEncoding : Prop :=
  ∀ (w : CodeWord) (i : Instr), decode w = .ok i → encode i = w ∧ i.wf = true

/-- R92: "Exactly one row matches each selector value", and it is the arm decoded. -/
def Obligations.SelectorMatchesOneTableRow : Prop :=
  ∀ w : Sel, (tickRows.filter (·.hits w)).map (·.mnemonic) = [(decodeSel w).mnemonic]

/-- R95, R96: the rows a host command word matches are the one of the operation decoded, or none for a rejected word. -/
def Obligations.HostWordMatchesItsTableRow : Prop :=
  ∀ w : Hcw,
    (hostRows.filter (·.hits w)).map (·.mnemonic) =
      match decodeHcw w with
      | .ok i => [i.mnemonic]
      | .error _ => []

/-- R96: exactly the non-packet operations with HCW[19:4] not 0 are rejected. -/
def Obligations.IllegalHostWordRejected : Prop :=
  ∀ w : Hcw,
    decodeHcw w = .error .reservedBits ↔
      w.toNat % 16 < 10 ∧ w.toNat % 16 ≠ 3 ∧ w.toNat % 16 ≠ 7 ∧ w.toNat / 16 ≠ 0

/-- 95_test_vectors.md tables SEL and H: words written out from the encodings decode to their instructions. -/
def Obligations.WrittenWordsDecode : Prop :=
  decode (.sel 0x2C#6) = .ok (.rxHdr true true) ∧ decode (.sel 0x2A#6) = .ok (.rxPar true false) ∧
    decode (.sel 0x19#6) = .ok (.txPay true false) ∧ decode (.sel 0x04#6) = .ok (.idleRxstart true 0#2) ∧
    decode (.sel 0x0C#6) = .ok (.idleClaim 0#2) ∧ decode (.sel 0x2F#6) = .ok (.reservedRxPh11 true true) ∧
    decode (.hcw 0x03523#20) = .ok (.sqEnq 2#4 5#4 3#8) ∧ decode (.hcw 0x06527#20) = .ok (.send 2#4 5#4 6#8) ∧
    decode (.hcw 0x00008#20) = .ok .get ∧ decode (.hcw 0x1234F#20) = .ok (.reservedOpCF 0xF#4 0x1234#16) ∧
    decode (.hcw 0x00019#20) = .error .reservedBits

/-- R90, R91: the selector a tick forms. -/
def Obligations.SelectorFormedFromState : Prop :=
  ∀ (s : State) (line : Bool),
    selMode (formSel s line) =
        (match s.mode with | .idle => 0b00#2 | .sending => 0b01#2 | .receiving => 0b10#2 | .reserved => 0b11#2) ∧
      selLine (formSel s line) = line ∧
      (selSqne (formSel s line) = true ↔ s.sq.head ≠ s.sq.tail) ∧
      (selPh (formSel s line) = 0b00#2 ↔ s.bidx < 16) ∧
      (selPh (formSel s line) = 0b01#2 ↔ 16 ≤ s.bidx ∧ s.bidx < 16 + 8 * s.wp.size.toNat) ∧
      (selPh (formSel s line) = 0b10#2 ↔ s.bidx = 16 + 8 * s.wp.size.toNat) ∧
      (selPh (formSel s line) = 0b11#2 ↔ 17 + 8 * s.wp.size.toNat ≤ s.bidx)

/-! ### The wire frame -/

/-- R80, R84: a frame has 17 + 8n bits and an odd number of one bits. -/
def Obligations.FrameHasLengthAndOddParity : Prop :=
  ∀ p : WorkPacket, p.size.toNat ≤ p.pay.length →
    (frame p).length = 17 + 8 * p.size.toNat ∧ (frame p).count true % 2 = 1

/-- R80 to R82: `frameBit` reads the frame's data bits in order. -/
def Obligations.FrameBitReadsFrame : Prop :=
  ∀ (cap : Nat) (p : WorkPacket) (i : Nat), p.pay.length = cap → p.size.toNat ≤ cap → i < 16 + 8 * p.size.toNat →
    ∃ b, (frame p)[i]? = some b ∧ frameBit cap p i = .ok b

/-- R83: a received bit is read back at its own frame index, every other index is as it was, and an index beyond the
buffer raises F_RX_OVF. -/
def Obligations.SetFrameBitReadsBack : Prop :=
  ∀ (cap : Nat) (p : WorkPacket) (i : Nat) (b : Bool), p.pay.length = cap →
    (i < 16 + 8 * cap →
      ∃ p', setFrameBit cap p i b = .ok p' ∧ p'.pay.length = cap ∧
        ∀ k, k < 16 + 8 * cap → frameBit cap p' k = if k = i then .ok b else frameBit cap p k) ∧
      (16 + 8 * cap ≤ i → setFrameBit cap p i b = .error .rxOvf)

/-! ### A step runs the decoded instruction -/

/-- R140, R221 to R224: a tick turn samples the resolved level inverted by its noise draw, or under contention its
contention draw (log 15), and runs the arm its selector decodes to; around it only the turn is consumed and a contention
is marked. The agenda and its turns are the model's choice (log 2). -/
def Obligations.StepRunsSelectedArm : Prop :=
  ∀ (s : State) (peers : List Drive) (noise draw : Bool) (rest : List Turn) (line : Bool),
    s.agenda = .tick peers noise draw :: rest →
    (∀ v, resolveLine (s.drive :: peers) = .level v → line = xor v noise) →
    (resolveLine (s.drive :: peers) = .contended → line = draw) →
      step s =
        exec (decodeSel (formSel s line))
          { s with
            agenda := rest, turns := s.turns + 1
            contention := s.contention || decide (resolveLine (s.drive :: peers) = .contended) }

/-- R94, R180: a host turn of an idle H presents its next command and runs the operation it decodes to. The list of
commands is the model's choice (log 3), and so is the whole operation in one turn (log 1). -/
def Obligations.StepRunsPresentedOperation : Prop :=
  ∀ (s : State) (rest : List Turn) (c : Command) (cs : List Command) (i : Instr),
    s.agenda = .host :: rest → s.host = .idle → s.program = c :: cs → decodeHcw c.hcw = .ok i →
      step s = exec i { s with agenda := rest, turns := s.turns + 1, program := cs, din := c.din }

/-- R96, R180, R214: a word with illegal bits is refused with R_RESERVED_BITS, after R_PRE_INIT. A refusal is kept for the
whole run: it stays the outcome of a run of turns, and on a line of several nodes it changes no node and sets the
refusal mark, which no later turn changes. The two forms of the mark are the model's choice (log 8). -/
def Obligations.StepRefusesIllegalBits : Prop :=
  (∀ (s : State) (rest : List Turn) (c : Command) (cs : List Command),
    s.agenda = .host :: rest → s.host = .idle → s.program = c :: cs → decodeHcw c.hcw = .error .reservedBits →
      step s = .refused (if s.ready = false ∧ c.hcw.toNat % 16 ≠ 0 then .preInit else .reservedBits)) ∧
  (∀ (s u : State) (us vs : List Turn) (turn : Turn) (r : Refusal),
    runTurns us s = .next u → runTurn turn u = .refused r → runTurns (us ++ turn :: vs) s = .refused r) ∧
  (∀ (b : Bus) (i : Nat) (s : State) (turn : Turn) (r : Refusal),
    b.nodes[i]? = some s → runTurn turn s = .refused r → b.refused = none →
      b.nodeTurn i turn = { b with refused := some (i, r) }) ∧
  ∀ (b : Bus) (m : Nat × Refusal), b.refused = some m →
    (∀ (i : Nat) (turn : Turn), (b.nodeTurn i turn).refused = some m) ∧
      ∀ noise draw : List Bool, (b.globalTick noise draw).refused = some m

/-! ### Receive arms (41_engine.md R142 to R144) -/

/-- R142: RX_HDR puts LINE at header bit BIDX, adds it to PAR and advances BIDX; nothing else changes. -/
def Obligations.RxHdrStoresHeaderBit : Prop :=
  ∀ (s : State) (line sqne : Bool), Ticking s → s.bidx < 16 →
    ∃ w, exec (.rxHdr line sqne) s = .next { s with wp := w, par := xor s.par line, bidx := (s.bidx + 1) % 2 ^ s.cfg.bidxW } ∧
      w.pay = s.wp.pay ∧
      ∀ k, k < 16 → (headerWord w).getLsbD k = if k = s.bidx then line else (headerWord s.wp).getLsbD k

/-- R143: RX_PAY puts LINE at bit (BIDX-16) mod 8 of payload byte (BIDX-16)/8, adds it to PAR and advances BIDX; at
payload byte PAYLOAD_CAP it raises F_RX_OVF. Nothing else changes. -/
def Obligations.RxPayStoresPayloadBitOrOverflows : Prop :=
  ∀ (s : State) (line sqne : Bool), Ticking s → s.wp.pay.length = s.cfg.payloadCap → 16 ≤ s.bidx →
    ((s.bidx - 16) / 8 < s.cfg.payloadCap →
      ∃ w, exec (.rxPay line sqne) s = .next { s with wp := w, par := xor s.par line, bidx := (s.bidx + 1) % 2 ^ s.cfg.bidxW } ∧
        headerWord w = headerWord s.wp ∧ w.pay.length = s.cfg.payloadCap ∧
        ∀ j k, j < s.cfg.payloadCap → k < 8 →
          (w.pay.getD j 0).getLsbD k =
            if j = (s.bidx - 16) / 8 ∧ k = (s.bidx - 16) % 8 then line
            else (s.wp.pay.getD j 0).getLsbD k) ∧
    (s.cfg.payloadCap ≤ (s.bidx - 16) / 8 →
      exec (.rxPay line sqne) s = .next { s with fault := 0x01#8 })

/-- R144: RX_PAR returns to IDLE; RQ gets WP if the parity check passes and RQ has room, and is unchanged otherwise. -/
def Obligations.RxParDeliversOrDrops : Prop :=
  ∀ (s : State) (line sqne : Bool), Ticking s → s.wp.size.toNat ≤ s.cfg.payloadCap →
    ∃ q, exec (.rxPar line sqne) s =
        .next { s with rq := q, mode := .idle, bidx := 0, par := false, wp := zeroPacket s.cfg.payloadCap } ∧
      (xor line s.par = false → q = s.rq) ∧
      (s.rq.isFull s.cfg.rqCap = true → q = s.rq) ∧
      (xor line s.par = true → s.rq.isFull s.cfg.rqCap = false →
        s.rq.enqueue s.cfg s.cfg.rqCap s.wp.toPacket = .ok (some q))

/-! ### Send arms (R145 to R148) -/

/-- R145: TX_HDR drives header bit BIDX of WP, adds it to PAR and advances BIDX; nothing else changes. -/
def Obligations.TxHdrDrivesHeaderBit : Prop :=
  ∀ (s : State) (line sqne : Bool), Ticking s → s.bidx < 16 →
    exec (.txHdr line sqne) s = .next { s with
      lineOut := (headerWord s.wp).getLsbD s.bidx
      par := xor s.par ((headerWord s.wp).getLsbD s.bidx)
      bidx := (s.bidx + 1) % 2 ^ s.cfg.bidxW }

/-- R146: TX_PAY drives bit (BIDX-16) mod 8 of payload byte (BIDX-16)/8; beyond the buffer it raises F_TX_OVR. -/
def Obligations.TxPayDrivesPayloadBit : Prop :=
  ∀ (s : State) (line sqne : Bool), Ticking s → 16 ≤ s.bidx →
    ((s.bidx - 16) / 8 < s.cfg.payloadCap → (s.bidx - 16) / 8 < s.wp.pay.length →
      ∃ byte, s.wp.pay[(s.bidx - 16) / 8]? = some byte ∧
        exec (.txPay line sqne) s = .next { s with
          lineOut := byte.getLsbD ((s.bidx - 16) % 8)
          par := xor s.par (byte.getLsbD ((s.bidx - 16) % 8))
          bidx := (s.bidx + 1) % 2 ^ s.cfg.bidxW }) ∧
      (s.cfg.payloadCap ≤ (s.bidx - 16) / 8 →
        exec (.txPay line sqne) s = .next { s with fault := 0x10#8 })

/-- R147: TX_PAR drives `not PAR`, leaves PAR and advances BIDX; nothing else changes. -/
def Obligations.TxParDrivesParityBit : Prop :=
  ∀ (s : State) (line sqne : Bool), Ticking s →
    exec (.txPar line sqne) s = .next { s with lineOut := !s.par, bidx := (s.bidx + 1) % 2 ^ s.cfg.bidxW }

/-- R148: TX_REL releases the line and returns to IDLE; LINE_OUT and everything else is left as it was. -/
def Obligations.TxRelReleasesLine : Prop :=
  ∀ (s : State) (line sqne : Bool), Ticking s →
    exec (.txRel line sqne) s = .next { s with
      lineOe := false, mode := .idle, bidx := 0, par := false, wp := zeroPacket s.cfg.payloadCap }

/-! ### Idle arms and reserved selectors (R149 to R152) -/

/-- R149: IDLE_RXSTART enters RECEIVING with WP zeroed and BIDX and PAR 0; SQ and everything else is left untouched. -/
def Obligations.IdleRxstartBeginsReception : Prop :=
  ∀ (s : State) (sqne : Bool) (ph : BitVec 2), Ticking s →
    exec (.idleRxstart sqne ph) s = .next { s with
      mode := .receiving, bidx := 0, par := false, wp := zeroPacket s.cfg.payloadCap }

/-- R150, R212: IDLE_CLAIM drives the line low, loads the head of SQ up to its first 0x00 over WP, advances SQ.head and
enters SENDING; when the scan faults it sets that FAULT bit and commits nothing. Everything else is unchanged. -/
def Obligations.IdleClaimLoadsHeadPacketOrFaults : Prop :=
  ∀ (s : State) (ph : BitVec 2), Ticking s → s.sq.head ≠ s.sq.tail →
    (∀ bs : List Byte, scanSlot s.cfg.payloadCap (s.sq.slotAt s.sq.head) = .ok bs →
      exec (.idleClaim ph) s = .next { s with
        lineOe := true, lineOut := false, mode := .sending, bidx := 0, par := false
        sq := { s.sq with head := (s.sq.head + 1) % s.cfg.sqCap }
        wp := {
          snd := (s.sq.slotAt s.sq.head).snd, dst := (s.sq.slotAt s.sq.head).dst, size := (s.sq.slotAt s.sq.head).size
          pay := bs ++ s.wp.pay.drop bs.length } }) ∧
    (scanSlot s.cfg.payloadCap (s.sq.slotAt s.sq.head) = .error .scanUndef →
      exec (.idleClaim ph) s = .next { s with fault := 0x04#8 }) ∧
    (scanSlot s.cfg.payloadCap (s.sq.slotAt s.sq.head) = .error .scanOvr →
      exec (.idleClaim ph) s = .next { s with fault := 0x08#8 })

/-- R151: the selectors `00 1 0 xx` (match 0x08, mask 0x3C) are IDLE_NOP's, and IDLE_NOP writes no state. -/
def Obligations.IdleNopWritesNothing : Prop :=
  (∀ w : Sel, (∃ ph, decodeSel w = .idleNop ph) ↔ w &&& 0x3C#6 = 0x08#6) ∧
    ∀ (s : State) (ph : BitVec 2), Ticking s → exec (.idleNop ph) s = .next s

/-- R152: a reserved selector raises F_UNREACHABLE and changes nothing else. -/
def Obligations.ReservedSelectorRaisesUnreachable : Prop :=
  ∀ (s : State) (line sqne : Bool) (ph : BitVec 2), Ticking s →
    exec (.reservedRxPh11 line sqne) s = .next { s with fault := 0x20#8 } ∧
      exec (.reservedMode11 line sqne ph) s = .next { s with fault := 0x20#8 }

/-- R140, R216: while READY = 0 or FAULT is not 0, no tick reaches E: the state is unchanged. -/
def Obligations.TickNeedsReadyAndNoFault : Prop :=
  ∀ (s : State) (line : Bool), s.ready = false ∨ s.fault ≠ 0#8 → tickAt line s = .next s

/-! ### Host operations (42_link_api.md) -/

/-- R181: INIT makes the line a sensing input, empties both queues, sets every slot payload byte as SLOT_INIT says and
leaves the slots' header fields, sets READY; everything else is unchanged but RES, whose mark that the operation has
ended is the model's choice (log 4). -/
def Obligations.InitBuildsBlock : Prop :=
  ∀ s : State, s.ready = false → s.fault = 0#8 → s.host = .idle →
    ∃ sqs rqs : List Slot, exec .init s = .next { s with
        lineOe := false, sq := ⟨0, 0, sqs⟩, rq := ⟨0, 0, rqs⟩, ready := true, res := .done } ∧
      sqs.length = s.sq.slots.length ∧ rqs.length = s.rq.slots.length ∧
      (∀ (k : Nat) (sl : Slot), sqs[k]? = some sl → ∃ old, s.sq.slots[k]? = some old ∧ headerWord sl = headerWord old ∧
        sl.pay = List.replicate s.cfg.payloadCap (match s.cfg.slotInit with | .undef => none | .zero => some 0#8)) ∧
      (∀ (k : Nat) (sl : Slot), rqs[k]? = some sl → ∃ old, s.rq.slots[k]? = some old ∧ headerWord sl = headerWord old ∧
        sl.pay = List.replicate s.cfg.payloadCap (match s.cfg.slotInit with | .undef => none | .zero => some 0#8))

/-- R112: `is_empty` is `head == tail`, true iff the queue holds no packet, always for a capacity of 1; OP 0x1 and 0x4
answer it on RES and change nothing else; SQNE is its complement on SQ. -/
def Obligations.EmptyTestReportsEmptiness : Prop :=
  decodeHcw 0x00001#20 = .ok .sqIsempty ∧ decodeHcw 0x00004#20 = .ok .rqIsempty ∧
  (∀ (s : State) (line : Bool), selSqne (formSel s line) = !s.sq.isEmpty) ∧
  (∀ (payloadCap cap : Nat) (q : Queue), q.wf payloadCap cap →
    (q.isEmpty = true ↔ q.head = q.tail) ∧ (q.isEmpty = true ↔ q.contents cap = []) ∧ (cap = 1 → q.isEmpty = true)) ∧
    ∀ s : State, Accepting s →
      exec .sqIsempty s = .next { s with res := .bit (decide (s.sq.head = s.sq.tail)) } ∧
      exec .rqIsempty s = .next { s with res := .bit (decide (s.rq.head = s.rq.tail)) }

/-- R113: `is_full` is true iff one more enqueue would fill the reserved slot, and with `is_empty` only for a capacity of
1, which never accepts a packet (an inference R113 marks as its own); SQ_ISFULL and RQ_ISFULL answer it on RES and
change nothing else. -/
def Obligations.FullTestReportsFullness : Prop :=
  (∀ (payloadCap cap : Nat) (q : Queue), q.wf payloadCap cap →
    (q.isFull cap = true ↔ (q.tail + 1) % cap = q.head) ∧ (q.isFull cap = true ↔ q.count cap = cap - 1) ∧
      (q.isFull cap = true ∧ q.isEmpty = true ↔ cap = 1) ∧
      (cap = 1 → ∀ (c : Params) (p : Packet), q.enqueue c cap p = .ok none)) ∧
    ∀ s : State, Accepting s →
      exec .sqIsfull s = .next { s with res := .bit (decide ((s.sq.tail + 1) % s.cfg.sqCap = s.sq.head)) } ∧
      exec .rqIsfull s = .next { s with res := .bit (decide ((s.rq.tail + 1) % s.cfg.rqCap = s.rq.head)) }

/-- R190: HAS, HCW 0x00009, answers whether RQ is non-empty, the complement of RQ_ISEMPTY's answer; it never blocks and
changes nothing but RES. -/
def Obligations.HasReportsReceivedPacket : Prop :=
  decodeHcw 0x00009#20 = .ok .has ∧
    ∀ s : State, Accepting s → ∃ b : Bool,
      exec .has s = .next { s with res := .bit b } ∧ (b = true ↔ s.rq.head ≠ s.rq.tail) ∧
        exec .rqIsempty s = .next { s with res := .bit (!b) }

/-- R184, R94: SQ_ENQ answers 0 on a full SQ and changes nothing but RES; raises F_ENQ_OVR for a size above PAYLOAD_CAP;
and otherwise enqueues, answers 1 and changes nothing else, whatever the destination. The slot at the old SQ.tail then
holds the operation's SND, DST, SIZE and the bytes of DIN. -/
def Obligations.SqEnqAcceptsRefusesOrFaults : Prop :=
  ∀ (s : State) (snd dst : NodeId) (size : PayloadSize), Accepting s →
    (s.sq.isFull s.cfg.sqCap = true → exec (.sqEnq snd dst size) s = .next { s with res := .bit false }) ∧
    (s.sq.isFull s.cfg.sqCap = false → s.cfg.payloadCap < size.toNat →
      exec (.sqEnq snd dst size) s = .next { s with fault := 0x02#8 }) ∧
    (s.sq.isFull s.cfg.sqCap = false → size.toNat ≤ s.cfg.payloadCap →
      ∃ q, s.sq.enqueue s.cfg s.cfg.sqCap (hostPacket s.cfg.payloadCap snd dst size s.din) = .ok (some q) ∧
        exec (.sqEnq snd dst size) s = .next { s with sq := q, res := .bit true } ∧
        (s.sq.tail < s.sq.slots.length →
          ∃ sl, q.slots[s.sq.tail]? = some sl ∧ carries s.cfg.payloadCap sl snd dst size s.din))

/-- R187: RQ_DEQ answers valid = 0 on an empty RQ, raises the scan's fault, or returns the head packet's header and
scanned bytes with every byte after them undef, and advances RQ.head; nothing else changes. -/
def Obligations.RqDeqReturnsHeadPacket : Prop :=
  ∀ s : State, Accepting s →
    (s.rq.head = s.rq.tail → exec .rqDeq s = .next { s with res := .dequeued none }) ∧
    (∀ c, s.rq.head ≠ s.rq.tail → scanSlot s.cfg.payloadCap (s.rq.slotAt s.rq.head) = .error c →
      exec .rqDeq s = .next { s with fault := faultMask c }) ∧
    (∀ bs, s.rq.head ≠ s.rq.tail → scanSlot s.cfg.payloadCap (s.rq.slotAt s.rq.head) = .ok bs →
      exec .rqDeq s = .next { s with
        rq := { s.rq with head := (s.rq.head + 1) % s.cfg.rqCap }
        res := .dequeued (some {
          snd := (s.rq.slotAt s.rq.head).snd, dst := (s.rq.slotAt s.rq.head).dst
          size := (s.rq.slotAt s.rq.head).size
          pay := bs.map some ++ List.replicate (s.cfg.payloadCap - bs.length) none }) })

/-- R188, R94: SEND to a destination above MAX_DEST completes with no effect; otherwise it holds its packet while SQ is
full, raises F_ENQ_OVR for a size above PAYLOAD_CAP, or enqueues and completes. The packet held, and the slot at the old
SQ.tail after an enqueue, hold the operation's SND, DST, SIZE and the bytes of DIN. RES's marks for held and completed are the model's
choice (log 4). -/
def Obligations.SendDropsHoldsOrEnqueues : Prop :=
  ∀ (s : State) (snd dst : NodeId) (size : PayloadSize), Accepting s →
    (s.cfg.maxDest < dst.toNat → exec (.send snd dst size) s = .next { s with res := .done }) ∧
    (dst.toNat ≤ s.cfg.maxDest → s.sq.isFull s.cfg.sqCap = true →
      exec (.send snd dst size) s = .next { s with
        res := .empty, host := .sendHeld (hostPacket s.cfg.payloadCap snd dst size s.din) } ∧
      carries s.cfg.payloadCap (hostPacket s.cfg.payloadCap snd dst size s.din) snd dst size s.din) ∧
    (dst.toNat ≤ s.cfg.maxDest → s.sq.isFull s.cfg.sqCap = false → s.cfg.payloadCap < size.toNat →
      exec (.send snd dst size) s = .next { s with fault := 0x02#8 }) ∧
    (dst.toNat ≤ s.cfg.maxDest → s.sq.isFull s.cfg.sqCap = false → size.toNat ≤ s.cfg.payloadCap →
      ∃ q, s.sq.enqueue s.cfg s.cfg.sqCap (hostPacket s.cfg.payloadCap snd dst size s.din) = .ok (some q) ∧
        exec (.send snd dst size) s = .next { s with sq := q, res := .done } ∧
        (s.sq.tail < s.sq.slots.length →
          ∃ sl, q.slots[s.sq.tail]? = some sl ∧ carries s.cfg.payloadCap sl snd dst size s.din))

/-- R189: GET holds while RQ is empty, raises the scan's fault, or returns the head packet as RQ_DEQ does and advances
RQ.head; nothing else changes. RES empty while held is the model's choice (log 4). -/
def Obligations.GetHoldsOrReturnsHeadPacket : Prop :=
  ∀ s : State, Accepting s →
    (s.rq.head = s.rq.tail → exec .get s = .next { s with res := .empty, host := .getHeld }) ∧
    (∀ c, s.rq.head ≠ s.rq.tail → scanSlot s.cfg.payloadCap (s.rq.slotAt s.rq.head) = .error c →
      exec .get s = .next { s with fault := faultMask c }) ∧
    (∀ bs, s.rq.head ≠ s.rq.tail → scanSlot s.cfg.payloadCap (s.rq.slotAt s.rq.head) = .ok bs →
      exec .get s = .next { s with
        rq := { s.rq with head := (s.rq.head + 1) % s.cfg.rqCap }
        res := .packet {
          snd := (s.rq.slotAt s.rq.head).snd, dst := (s.rq.slotAt s.rq.head).dst
          size := (s.rq.slotAt s.rq.head).size
          pay := bs.map some ++ List.replicate (s.cfg.payloadCap - bs.length) none } })

/-- R180, R181, R214: before INIT every operation but INIT is refused with R_PRE_INIT, a reserved OP too, and after it a
second INIT with R_REINIT. The refusal as the outcome of the step is the model's choice (log 8). -/
def Obligations.OperationsOutOfBootOrderRefused : Prop :=
  (∀ (s : State) (w : Hcw) (i : Instr), s.ready = false → decodeHcw w = .ok i → i ≠ .init →
    exec i s = .refused .preInit) ∧
    ∀ s : State, Accepting s → exec .init s = .refused .reinit

/-- R96, R180: a reserved OP is refused with R_RESERVED_OP once the block is ready (the outcome: log 8). -/
def Obligations.ReservedOpRefused : Prop :=
  ∀ (s : State) (op : BitVec 4) (rest : BitVec 16), s.ready = true →
    exec (.reservedOpAB op rest) s = .refused .reservedOp ∧ exec (.reservedOpCF op rest) s = .refused .reservedOp

/-- R180, R212: while FAULT is not 0 a ready block runs no host operation, fresh, held or in progress. The stop as the
outcome of the step is the model's choice (log 7). -/
def Obligations.StoppedBlockRunsNoHostStep : Prop :=
  ∀ s : State, s.ready = true → s.fault ≠ 0#8 →
    (∀ (w : Hcw) (i : Instr), decodeHcw w = .ok i → (hcwOp w).toNat < 10 → exec i s = .fault .stopped) ∧
      (s.host ≠ .idle → hostTurn s = .fault .stopped ∧ ∀ pick, microTurn pick s = .fault .stopped)

/-- R188, R189, R193: a held SEND or GET stays held while its queue gives no room or no packet; at the first retry that
finds it, it completes, or raises F_ENQ_OVR for a size above PAYLOAD_CAP or the fault of the scan and changes nothing
else (R212). RES's marks for held and completed are the model's choice (log 4). -/
def Obligations.HeldOperationRetries : Prop :=
  ∀ (s : State) (p : Packet), s.fault = 0#8 →
    (s.host = .sendHeld p → s.sq.isFull s.cfg.sqCap = true → hostTurn s = .next { s with res := .empty }) ∧
    (s.host = .sendHeld p → s.sq.isFull s.cfg.sqCap = false → p.size.toNat ≤ s.cfg.payloadCap →
      ∃ q, s.sq.enqueue s.cfg s.cfg.sqCap p = .ok (some q) ∧
        hostTurn s = .next { s with sq := q, res := .done, host := .idle }) ∧
    (s.host = .sendHeld p → s.sq.isFull s.cfg.sqCap = false → s.cfg.payloadCap < p.size.toNat →
      hostTurn s = .next { s with fault := 0x02#8 }) ∧
    (s.host = .getHeld → s.rq.head = s.rq.tail → hostTurn s = .next { s with res := .empty }) ∧
    (∀ c, s.host = .getHeld → s.rq.head ≠ s.rq.tail →
      scanSlot s.cfg.payloadCap (s.rq.slotAt s.rq.head) = .error c →
      hostTurn s = .next { s with fault := faultMask c }) ∧
    (∀ bs, s.host = .getHeld → s.rq.head ≠ s.rq.tail →
      scanSlot s.cfg.payloadCap (s.rq.slotAt s.rq.head) = .ok bs →
      hostTurn s = .next { s with
        rq := { s.rq with head := (s.rq.head + 1) % s.cfg.rqCap }, host := .idle
        res := .packet {
          snd := (s.rq.slotAt s.rq.head).snd, dst := (s.rq.slotAt s.rq.head).dst
          size := (s.rq.slotAt s.rq.head).size
          pay := bs.map some ++ List.replicate (s.cfg.payloadCap - bs.length) none } })

/-! ### The Packet Queue (40_queue.md) -/

/-- R114: an accepted enqueue writes the header fields and exactly `size` bytes of the slot at `tail`, advances `tail`,
and changes nothing else: not `head`, no other slot, no byte from `size` on. -/
def Obligations.EnqueueCopiesPacket : Prop :=
  ∀ (c : Params) (cap : Nat) (q : Queue) (p : Packet), q.wf c.payloadCap cap → p.pay.length = c.payloadCap →
    q.isFull cap = false → p.size.toNat ≤ c.payloadCap →
    ∃ q' sl old, q.enqueue c cap p = .ok (some q') ∧ q'.wf c.payloadCap cap ∧
      q'.head = q.head ∧ q'.tail = (q.tail + 1) % cap ∧
      q.slots[q.tail]? = some old ∧ q'.slots[q.tail]? = some sl ∧ headerWord sl = headerWord p ∧
      (∀ j : Nat, sl.pay[j]? = if j < p.size.toNat then p.pay[j]? else old.pay[j]?) ∧
      ∀ k : Nat, k ≠ q.tail → q'.slots[k]? = q.slots[k]?

/-- R115: the scan answers the bytes up to and including the first 0x00, and faults on the first undef byte before it,
or when the slot's bytes hold none. -/
def Obligations.ScanStopsAtFirstZero : Prop :=
  ∀ (cap : Nat) (sl : Slot), sl.pay.length = cap →
    (∀ bs, scanSlot cap sl = .ok bs ↔
      ∃ z : Nat, z < cap ∧ bs.length = z + 1 ∧ sl.pay[z]? = some (some 0#8) ∧ sl.pay.take (z + 1) = bs.map some ∧
        ∀ j : Nat, j < z → sl.pay[j]? ≠ some (some 0#8)) ∧
    (scanSlot cap sl = .error .scanUndef ↔
      ∃ z : Nat, sl.pay[z]? = some none ∧ ∀ j : Nat, j < z → ∃ b, sl.pay[j]? = some (some b) ∧ b ≠ 0#8) ∧
    (scanSlot cap sl = .error .scanOvr ↔ ∀ j : Nat, j < cap → ∃ b, sl.pay[j]? = some (some b) ∧ b ≠ 0#8)

/-- R114, R116: the packets a queue holds, oldest first: an accepted enqueue adds one behind, a dequeue takes the first
(the step of the FIFO law R120, an inference of the spec). -/
def Obligations.QueueHoldsPacketsInOrder : Prop :=
  ∀ (c : Params) (cap : Nat) (q : Queue), q.wf c.payloadCap cap →
    (∀ p q', q.enqueue c cap p = .ok (some q') →
      q'.contents cap = q.contents cap ++ [copyIn p (q.slotAt q.tail)]) ∧
    (∀ (d r : WorkPacket) q', q.dequeue c cap id d = .ok (some (r, q')) →
      q.contents cap = q.slotAt q.head :: q'.contents cap ∧ headerWord r = headerWord (q.slotAt q.head) ∧
        q'.tail = q.tail ∧ q'.slots = q.slots)

/-- A queue holds at most C-1 packets, and an enqueue that fits a slot is accepted, and counted, iff it holds fewer. The
spec's own inference: "The number held is `(tail - head) mod C`" (R119). -/
def Obligations.QueueAcceptsUpToCapacity : Prop :=
  ∀ (c : Params) (cap : Nat) (q : Queue) (p : Packet), q.wf c.payloadCap cap → p.size.toNat ≤ c.payloadCap →
    q.count cap ≤ cap - 1 ∧ (q.head = q.tail → q.count cap = 0) ∧
      (q.count cap < cap - 1 → ∃ q', q.enqueue c cap p = .ok (some q') ∧ q'.count cap = q.count cap + 1) ∧
      (q.count cap = cap - 1 → q.enqueue c cap p = .ok none)

/-- Over any run of enqueues and dequeues from an empty queue, the k-th packet returned is the k-th accepted: its header,
every byte copied within its size, and the whole payload up to its first 0x00. The spec's own inference: "The k-th
successful dequeue of a queue returns the k-th successfully enqueued packet p" (R120). -/
def Obligations.QueueRunIsFifo : Prop :=
  ∀ (c : Params) (cap : Nat) (q r : Queue) (ops : List QueueOp) (ins outs : List Packet),
    q.wf c.payloadCap cap → q.head = q.tail →
    (∀ p, QueueOp.enq p ∈ ops → p.pay.length = c.payloadCap) →
    runQueueOps c cap ops q = .ok (ins, outs, r) →
    outs.length ≤ ins.length ∧
      ∀ (k : Nat) (p x : Packet), outs[k]? = some x → ins[k]? = some p →
        headerWord x = headerWord p ∧
        (∀ (j : Nat) (b : Byte), j < p.size.toNat → x.pay[j]? = some (some b) → p.pay[j]? = some (some b)) ∧
        (∀ z : Nat, z < p.size.toNat → p.pay[z]? = some (some 0#8) →
          (∀ j : Nat, j < z → ∃ b, p.pay[j]? = some (some b) ∧ b ≠ 0#8) →
          ∀ j : Nat, j ≤ z → x.pay[j]? = p.pay[j]?)

/-! ### Reset, invariants and laws of the block -/

/-- R250: the state after power-on of a block with any parameters; `State.reset` is the one with the defaults of R8. -/
def Obligations.ResetHasPowerOnValues : Prop :=
  (∀ c : Params,
    let s := State.powerOn c
    s.cfg = c ∧ s.mode = .idle ∧ s.bidx = 0 ∧ s.par = false ∧
    s.wp = { snd := 0#4, dst := 0#4, size := 0#8, pay := List.replicate c.payloadCap 0#8 } ∧
    s.lineOe = false ∧ s.lineOut = true ∧
    s.sq.head = 0 ∧ s.sq.tail = 0 ∧ s.rq.head = 0 ∧ s.rq.tail = 0 ∧
    s.sq.slots.length = c.sqCap ∧ s.rq.slots.length = c.rqCap ∧
    (∀ sl ∈ s.sq.slots ++ s.rq.slots, headerWord sl = 0#16 ∧
      sl.pay = List.replicate c.payloadCap (match c.slotInit with | .undef => none | .zero => some 0#8)) ∧
    s.fault = 0#8 ∧ s.ready = false) ∧
  ∃ c : Params, State.reset = State.powerOn c ∧ c.sqCap = 3 ∧ c.rqCap = 5 ∧ c.payloadCap = 128 ∧ c.maxDest = 8 ∧
    c.broadcastId = 8 ∧ c.bitTime = 100 ∧ c.bidxW = 12 ∧ 1 ≤ c.nodes ∧ c.slotInit = .undef

/-- R250: the state after power-on of a block with legal parameters satisfies the invariant (the spec's own inference
R155, and the model's host invariant), and a line of NODES such blocks, at least one (R8), is well-formed and carries no
refusal. -/
def Obligations.PowerOnSatisfiesInvariant : Prop :=
  ∀ c : Params, c.legal = true →
    Inv (State.powerOn c) ∧ (Bus.powerOn c).nodes = List.replicate c.nodes (State.powerOn c) ∧
      1 ≤ (Bus.powerOn c).nodes.length ∧ (Bus.powerOn c).refused = none

/-- Every step keeps the invariant of the block: the spec's own inferences R60, R121 and R155, the reserved FAULT bits
(R213), and the model's terms for a host operation between two micro-steps. -/
def Obligations.StepKeepsInvariant : Prop :=
  ∀ s s' : State, Inv s → step s = .next s' → Inv s'

/-- BIDX never exceeds 2057, and a tick leaves it, advances it by one without a wrap, or resets it. The spec's own
inference: "BIDX never exceeds `17 + 8·255 = 2057`, so a 12-bit BIDX never wraps" (R158). -/
def Obligations.BitIndexNeverWraps : Prop :=
  ∀ (s t : State) (line : Bool), Inv s → tickAt line s = .next t →
    s.bidx ≤ 2057 ∧ t.bidx ≤ 2057 ∧
      (t.bidx = s.bidx ∨ t.bidx = s.bidx + 1 ∨ t.bidx = 0)

/-- The mode after a tick that raises no fault. The spec's own inference: "No arm goes directly between RECEIVING and
SENDING" (R153), from R142 to R152. -/
def Obligations.ModeTransitionGraph : Prop :=
  ∀ (s t : State) (line : Bool), Ticking s → tickAt line s = .next t → t.fault = 0#8 →
    s.mode ≠ .reserved ∧ t.mode ≠ .reserved ∧
    (s.mode = .idle → t.mode =
      if line = false then .receiving else if s.sq.head ≠ s.sq.tail then .sending else .idle) ∧
    (s.mode = .receiving → t.mode =
      if s.bidx < 16 + 8 * s.wp.size.toNat then .receiving else .idle) ∧
    (s.mode = .sending → t.mode =
      if s.bidx ≤ 16 + 8 * s.wp.size.toNat then .sending else .idle) ∧
    (s.mode ≠ .idle → t.mode = .idle →
      t.bidx = 0 ∧ t.par = false ∧ t.wp = zeroPacket t.cfg.payloadCap)

/-- R154: a SENDING tick does not read LINE, and outside IDLE a tick neither reads nor writes SQ. -/
def Obligations.EngineReadsLineAndSqOnlyWhereStated : Prop :=
  (∀ s : State, s.mode = .sending → tickAt true s = tickAt false s) ∧
    ∀ (s t : State) (line : Bool) (q : Queue), s.mode ≠ .idle → tickAt line s = .next t →
      t.sq = s.sq ∧ tickAt line { s with sq := q } = .next { t with sq := q }

/-- R36, R58: a tick writes nothing of H's: not SQ's tail or slots, not RQ's head, no RQ slot but the one at tail, no
port, no host state, not READY, no parameter. -/
def Obligations.TickLeavesHostSide : Prop :=
  ∀ (s t : State) (line : Bool), tickAt line s = .next t →
    t.cfg = s.cfg ∧ t.ready = s.ready ∧ t.res = s.res ∧ t.din = s.din ∧ t.host = s.host ∧ t.program = s.program ∧
      t.contention = s.contention ∧ t.sq.tail = s.sq.tail ∧ t.sq.slots = s.sq.slots ∧ t.rq.head = s.rq.head ∧
      ∀ k : Nat, k ≠ s.rq.tail → t.rq.slots[k]? = s.rq.slots[k]?

/-- R36, R192, R218: after INIT, no host step writes MODE, BIDX, PAR, WP, LINE_OE or LINE_OUT, SQ's head, RQ's tail or
slots, or any SQ slot but the one at tail. -/
def Obligations.HostLeavesEngineSide : Prop :=
  ∀ (s t : State) (turn : Turn), isTick turn = false → s.ready = true → hostInv s = true →
    runTurn turn s = .next t →
    t.cfg = s.cfg ∧ t.mode = s.mode ∧ t.bidx = s.bidx ∧ t.par = s.par ∧ t.wp = s.wp ∧ t.lineOe = s.lineOe ∧
      t.lineOut = s.lineOut ∧ t.ready = true ∧ t.contention = s.contention ∧ t.sq.head = s.sq.head ∧
      t.rq.tail = s.rq.tail ∧ t.rq.slots = s.rq.slots ∧
      ∀ k : Nat, k ≠ s.sq.tail → t.sq.slots[k]? = s.sq.slots[k]?

/-- R30, R212: no step clears a FAULT bit. -/
def Obligations.FaultIsSticky : Prop :=
  ∀ s t : State, step s = .next t → s.fault &&& t.fault = s.fault

/-- R212, R215: an instruction, a micro-step, or a host turn of a busy H (a retry among them) that changes FAULT raises
exactly one code and changes nothing else. -/
def Obligations.FaultCommitsNothingElse : Prop :=
  (∀ (i : Instr) (s t : State), exec i s = .next t → t.fault ≠ s.fault →
    ∃ c : FaultCode, t = { s with fault := s.fault ||| faultMask c }) ∧
    ∀ (turn : Turn) (s t : State), isTick turn = false → s.host ≠ .idle → runTurn turn s = .next t → t.fault ≠ s.fault →
      ∃ c : FaultCode, t = { s with fault := s.fault ||| faultMask c }

/-- What H has seen stays true over a tick: SQ empty, SQ not full, RQ non-empty, RQ full. The spec's own inference: "A
tick can only shrink SQ (IDLE_CLAIM) and only grow RQ (RX_PAR)" (R262). -/
def Obligations.QueueTestsStableOverTick : Prop :=
  ∀ (s t : State) (line : Bool), s.sq.wf s.cfg.payloadCap s.cfg.sqCap → s.rq.wf s.cfg.payloadCap s.cfg.rqCap →
    tickAt line s = .next t →
    (s.sq.isEmpty = true → t.sq.isEmpty = true) ∧
      (s.sq.isFull s.cfg.sqCap = false → t.sq.isFull s.cfg.sqCap = false) ∧
      (s.rq.isEmpty = false → t.rq.isEmpty = false) ∧
      (s.rq.isFull s.cfg.rqCap = true → t.rq.isFull s.cfg.rqCap = true)

/-- R193: only an IDLE_CLAIM makes room in a full SQ, and only an accepted RX_PAR puts a packet into an empty RQ. (R193's
hold without a timeout is HeldOperationRetries.) -/
def Obligations.HoldLiftedOnlyByItsArm : Prop :=
  ∀ (s t : State) (line : Bool), tickAt line s = .next t →
    (s.sq.isFull s.cfg.sqCap = true → t.sq.isFull s.cfg.sqCap = false →
      ∃ ph, decodeSel (formSel s line) = .idleClaim ph ∧ t.sq.head = (s.sq.head + 1) % s.cfg.sqCap) ∧
    (s.rq.isEmpty = true → t.rq.isEmpty = false →
      ∃ l q, decodeSel (formSel s line) = .rxPar l q ∧ xor line s.par = true ∧
        t.rq.tail = (s.rq.tail + 1) % s.cfg.rqCap)

/-! ### The line and several nodes (60_exceptions.md, 41_engine.md R156, R157) -/

/-- R222: line resolution: no driver gives 1, agreeing drivers their level, disagreeing drivers contention. -/
def Obligations.LineResolution : Prop :=
  ∀ ds : List Drive,
    ((∀ d ∈ ds, d.oe = false) → resolveLine ds = .level true) ∧
    (∀ v, (∃ d ∈ ds, d.oe = true) → (∀ d ∈ ds, d.oe = true → d.out = v) → resolveLine ds = .level v) ∧
    ((∃ d ∈ ds, d.oe = true ∧ d.out = true) → (∃ d ∈ ds, d.oe = true ∧ d.out = false) →
      resolveLine ds = .contended)

/-- R145 to R150: from its claim on, a sender drives low for one tick, then the frame of the packet it has
loaded, one bit a tick, then releases the line; it is back in IDLE after 19 + 8n ticks. What it samples plays no part. The spec's own inferences R87 and R159. -/
def Obligations.SenderDrivesItsFrame : Prop :=
  ∀ (s : State) (w : WorkPacket) (q : Queue), Inv s → Ticking s → s.mode = .idle →
    s.sq.dequeue s.cfg s.cfg.sqCap id s.wp = .ok (some (w, q)) →
    (afterTick true s).drive = ⟨true, false⟩ ∧
      (∀ lines : List Bool, lines.length < frameLength w.size.toNat →
        ∀ l, (afterTicks (true :: (lines ++ [l])) s).drive = ⟨true, (frame w).getD lines.length true⟩) ∧
      ∀ lines : List Bool, lines.length = frameLength w.size.toNat + 1 →
        afterTicks (true :: lines) s = { s with sq := q, lineOut := (frame w).getD (16 + 8 * w.size.toNat) true }

/-- R142 to R144, R149: an idle receiver that samples the claim and then a frame delivers its packet to RQ, or drops it
when RQ is full, and is otherwise as it was. The spec's own inferences R87 and R156. -/
def Obligations.ReceiverDeliversFrame : Prop :=
  ∀ (s : State) (w : WorkPacket), Inv s → Ticking s → s.mode = .idle → w.pay.length = s.cfg.payloadCap →
    w.size.toNat ≤ s.cfg.payloadCap →
    afterTicks (false :: frame w) s = deliver w s

/-- A receiver that samples exactly one inverted bit outside the size field discards the packet: its state is as it was.
The spec's own inference: "The packet is discarded and does not appear in RQ" (R157). -/
def Obligations.SingleBitErrorIsDiscarded : Prop :=
  ∀ (s : State) (w : WorkPacket) (i : Nat), Inv s → Ticking s → s.mode = .idle → w.pay.length = s.cfg.payloadCap →
    w.size.toNat ≤ s.cfg.payloadCap → i < frameLength w.size.toNat → (i < 8 ∨ 16 ≤ i) →
    afterTicks (false :: (frame w).set i (!(frame w).getD i false)) s = s

/-- R221: on a clean line with one sender, 19 + 8n global ticks from its claim every other node's RQ has the packet the
sender loaded (unless it is full), whatever its destination, and the sender has released the line. The spec's own
inferences R156 and R159. -/
def Obligations.BusDeliversToEveryListener : Prop :=
  ∀ (pre post : List State) (s : State) (w : WorkPacket) (q : Queue) (k : Nat) (m : Option (Nat × Refusal)),
    Inv s → Ticking s → s.mode = .idle → s.sq.dequeue s.cfg s.cfg.sqCap id s.wp = .ok (some (w, q)) →
    (∀ r ∈ pre ++ post, Inv r ∧ Ticking r ∧ r.mode = .idle ∧ r.sq.head = r.sq.tail ∧
      w.size.toNat ≤ r.cfg.payloadCap) →
    (Bus.cleanTicks (19 + 8 * w.size.toNat) ⟨pre ++ s :: post, k, m⟩) =
      ⟨pre.map (deliver w) ++
          { s with sq := q, lineOut := (frame w).getD (16 + 8 * w.size.toNat) true } :: post.map (deliver w),
        k + (19 + 8 * w.size.toNat), m⟩

/-! ### Micro-steps (20_memory.md R56, R61) -/

/-- A host queue operation run in micro-steps, with any ticks between them, ends in the state of a run of the same ticks
in which the whole operation executes at one point. The spec's own inference: "Every result of an interleaved run equals
the result of some run in which each host queue operation executes atomically at one point" (R61). -/
def Obligations.MicroStepsLinearise : Prop :=
  ∀ (s : State) (i : Instr) (ts : List Turn), Inv s → Accepting s →
    ((∃ snd dst size, i = .sqEnq snd dst size) ∨ (∃ snd dst size, i = .send snd dst size) ∨ i = .rqDeq ∨ i = .get) →
    (∀ t ∈ ts, isTick t = true ∨ isMicro t = true) →
    (∀ (k : Nat) (u : State), k < ts.length → andThen (beginMicro i s) (runTurns (ts.take k)) = .next u →
      u.host ≠ .idle) →
    ∀ t : State, andThen (beginMicro i s) (runTurns ts) = .next t → t.host = .idle → t.fault = 0#8 →
    ∃ k, k ≤ ts.length ∧
      andThen (runTurns ((ts.take k).filter isTick) s)
        (fun u => andThen (exec i u) (runTurns ((ts.drop k).filter isTick))) = .next t
end

