-- ==== Sys2Proof/Laws/State.lean ====
section
/-! SUPPORT. One lemma per field of State per update, true by definition: no proof unfolds a record update. -/

namespace Sys2Proof.Machine

open Sys2Proof

/-! ### raise: A fault sets its FAULT bit and writes nothing else (60_exceptions.md R212). -/

@[simp] theorem raise_cfg (c : FaultCode) (s : State) : (raise c s).cfg = s.cfg := rfl
@[simp] theorem raise_mode (c : FaultCode) (s : State) : (raise c s).mode = s.mode := rfl
@[simp] theorem raise_bidx (c : FaultCode) (s : State) : (raise c s).bidx = s.bidx := rfl
@[simp] theorem raise_par (c : FaultCode) (s : State) : (raise c s).par = s.par := rfl
@[simp] theorem raise_wp (c : FaultCode) (s : State) : (raise c s).wp = s.wp := rfl
@[simp] theorem raise_lineOe (c : FaultCode) (s : State) : (raise c s).lineOe = s.lineOe := rfl
@[simp] theorem raise_lineOut (c : FaultCode) (s : State) : (raise c s).lineOut = s.lineOut := rfl
@[simp] theorem raise_sq (c : FaultCode) (s : State) : (raise c s).sq = s.sq := rfl
@[simp] theorem raise_rq (c : FaultCode) (s : State) : (raise c s).rq = s.rq := rfl
@[simp] theorem raise_fault (c : FaultCode) (s : State) : (raise c s).fault = s.fault ||| faultMask c := rfl
@[simp] theorem raise_ready (c : FaultCode) (s : State) : (raise c s).ready = s.ready := rfl
@[simp] theorem raise_res (c : FaultCode) (s : State) : (raise c s).res = s.res := rfl
@[simp] theorem raise_din (c : FaultCode) (s : State) : (raise c s).din = s.din := rfl
@[simp] theorem raise_host (c : FaultCode) (s : State) : (raise c s).host = s.host := rfl
@[simp] theorem raise_program (c : FaultCode) (s : State) : (raise c s).program = s.program := rfl
@[simp] theorem raise_contention (c : FaultCode) (s : State) : (raise c s).contention = s.contention := rfl
@[simp] theorem raise_agenda (c : FaultCode) (s : State) : (raise c s).agenda = s.agenda := rfl
@[simp] theorem raise_turns (c : FaultCode) (s : State) : (raise c s).turns = s.turns := rfl

/-! ### finish: Ending an operation writes RES and frees H (42_link_api.md R180). -/

@[simp] theorem finish_cfg (r : Result) (s : State) : (finish r s).cfg = s.cfg := rfl
@[simp] theorem finish_mode (r : Result) (s : State) : (finish r s).mode = s.mode := rfl
@[simp] theorem finish_bidx (r : Result) (s : State) : (finish r s).bidx = s.bidx := rfl
@[simp] theorem finish_par (r : Result) (s : State) : (finish r s).par = s.par := rfl
@[simp] theorem finish_wp (r : Result) (s : State) : (finish r s).wp = s.wp := rfl
@[simp] theorem finish_lineOe (r : Result) (s : State) : (finish r s).lineOe = s.lineOe := rfl
@[simp] theorem finish_lineOut (r : Result) (s : State) : (finish r s).lineOut = s.lineOut := rfl
@[simp] theorem finish_sq (r : Result) (s : State) : (finish r s).sq = s.sq := rfl
@[simp] theorem finish_rq (r : Result) (s : State) : (finish r s).rq = s.rq := rfl
@[simp] theorem finish_fault (r : Result) (s : State) : (finish r s).fault = s.fault := rfl
@[simp] theorem finish_ready (r : Result) (s : State) : (finish r s).ready = s.ready := rfl
@[simp] theorem finish_res (r : Result) (s : State) : (finish r s).res = r := rfl
@[simp] theorem finish_din (r : Result) (s : State) : (finish r s).din = s.din := rfl
@[simp] theorem finish_host (r : Result) (s : State) : (finish r s).host = .idle := rfl
@[simp] theorem finish_program (r : Result) (s : State) : (finish r s).program = s.program := rfl
@[simp] theorem finish_contention (r : Result) (s : State) : (finish r s).contention = s.contention := rfl
@[simp] theorem finish_agenda (r : Result) (s : State) : (finish r s).agenda = s.agenda := rfl
@[simp] theorem finish_turns (r : Result) (s : State) : (finish r s).turns = s.turns := rfl

/-! ### hold: Holding an operation writes H's state and clears RES (R193). -/

@[simp] theorem hold_cfg (h : HostPhase) (s : State) : (hold h s).cfg = s.cfg := rfl
@[simp] theorem hold_mode (h : HostPhase) (s : State) : (hold h s).mode = s.mode := rfl
@[simp] theorem hold_bidx (h : HostPhase) (s : State) : (hold h s).bidx = s.bidx := rfl
@[simp] theorem hold_par (h : HostPhase) (s : State) : (hold h s).par = s.par := rfl
@[simp] theorem hold_wp (h : HostPhase) (s : State) : (hold h s).wp = s.wp := rfl
@[simp] theorem hold_lineOe (h : HostPhase) (s : State) : (hold h s).lineOe = s.lineOe := rfl
@[simp] theorem hold_lineOut (h : HostPhase) (s : State) : (hold h s).lineOut = s.lineOut := rfl
@[simp] theorem hold_sq (h : HostPhase) (s : State) : (hold h s).sq = s.sq := rfl
@[simp] theorem hold_rq (h : HostPhase) (s : State) : (hold h s).rq = s.rq := rfl
@[simp] theorem hold_fault (h : HostPhase) (s : State) : (hold h s).fault = s.fault := rfl
@[simp] theorem hold_ready (h : HostPhase) (s : State) : (hold h s).ready = s.ready := rfl
@[simp] theorem hold_res (h : HostPhase) (s : State) : (hold h s).res = .empty := rfl
@[simp] theorem hold_din (h : HostPhase) (s : State) : (hold h s).din = s.din := rfl
@[simp] theorem hold_host (h : HostPhase) (s : State) : (hold h s).host = h := rfl
@[simp] theorem hold_program (h : HostPhase) (s : State) : (hold h s).program = s.program := rfl
@[simp] theorem hold_contention (h : HostPhase) (s : State) : (hold h s).contention = s.contention := rfl
@[simp] theorem hold_agenda (h : HostPhase) (s : State) : (hold h s).agenda = s.agenda := rfl
@[simp] theorem hold_turns (h : HostPhase) (s : State) : (hold h s).turns = s.turns := rfl

/-! ### toIdle: The return to IDLE writes MODE, BIDX, PAR and WP (41_engine.md R144, R148). -/

@[simp] theorem toIdle_cfg (s : State) : (toIdle s).cfg = s.cfg := rfl
@[simp] theorem toIdle_mode (s : State) : (toIdle s).mode = .idle := rfl
@[simp] theorem toIdle_bidx (s : State) : (toIdle s).bidx = 0 := rfl
@[simp] theorem toIdle_par (s : State) : (toIdle s).par = false := rfl
@[simp] theorem toIdle_wp (s : State) : (toIdle s).wp = zeroPacket s.cfg.payloadCap := rfl
@[simp] theorem toIdle_lineOe (s : State) : (toIdle s).lineOe = s.lineOe := rfl
@[simp] theorem toIdle_lineOut (s : State) : (toIdle s).lineOut = s.lineOut := rfl
@[simp] theorem toIdle_sq (s : State) : (toIdle s).sq = s.sq := rfl
@[simp] theorem toIdle_rq (s : State) : (toIdle s).rq = s.rq := rfl
@[simp] theorem toIdle_fault (s : State) : (toIdle s).fault = s.fault := rfl
@[simp] theorem toIdle_ready (s : State) : (toIdle s).ready = s.ready := rfl
@[simp] theorem toIdle_res (s : State) : (toIdle s).res = s.res := rfl
@[simp] theorem toIdle_din (s : State) : (toIdle s).din = s.din := rfl
@[simp] theorem toIdle_host (s : State) : (toIdle s).host = s.host := rfl
@[simp] theorem toIdle_program (s : State) : (toIdle s).program = s.program := rfl
@[simp] theorem toIdle_contention (s : State) : (toIdle s).contention = s.contention := rfl
@[simp] theorem toIdle_agenda (s : State) : (toIdle s).agenda = s.agenda := rfl
@[simp] theorem toIdle_turns (s : State) : (toIdle s).turns = s.turns := rfl

/-! ### initBlock: INIT writes LINE_OE, both queues, READY and RES (42_link_api.md R181). -/

@[simp] theorem initBlock_cfg (s : State) : (initBlock s).cfg = s.cfg := rfl
@[simp] theorem initBlock_mode (s : State) : (initBlock s).mode = s.mode := rfl
@[simp] theorem initBlock_bidx (s : State) : (initBlock s).bidx = s.bidx := rfl
@[simp] theorem initBlock_par (s : State) : (initBlock s).par = s.par := rfl
@[simp] theorem initBlock_wp (s : State) : (initBlock s).wp = s.wp := rfl
@[simp] theorem initBlock_lineOe (s : State) : (initBlock s).lineOe = false := rfl
@[simp] theorem initBlock_lineOut (s : State) : (initBlock s).lineOut = s.lineOut := rfl
@[simp] theorem initBlock_sq (s : State) : (initBlock s).sq = s.sq.new s.cfg := rfl
@[simp] theorem initBlock_rq (s : State) : (initBlock s).rq = s.rq.new s.cfg := rfl
@[simp] theorem initBlock_fault (s : State) : (initBlock s).fault = s.fault := rfl
@[simp] theorem initBlock_ready (s : State) : (initBlock s).ready = true := rfl
@[simp] theorem initBlock_res (s : State) : (initBlock s).res = .done := rfl
@[simp] theorem initBlock_din (s : State) : (initBlock s).din = s.din := rfl
@[simp] theorem initBlock_host (s : State) : (initBlock s).host = .idle := rfl
@[simp] theorem initBlock_program (s : State) : (initBlock s).program = s.program := rfl
@[simp] theorem initBlock_contention (s : State) : (initBlock s).contention = s.contention := rfl
@[simp] theorem initBlock_agenda (s : State) : (initBlock s).agenda = s.agenda := rfl
@[simp] theorem initBlock_turns (s : State) : (initBlock s).turns = s.turns := rfl

/-! ### markContention: The environment's side of a tick writes the CONTENTION mark (60_exceptions.md R224). -/

@[simp] theorem markContention_cfg (ds : List Drive) (s : State) : (markContention ds s).cfg = s.cfg := rfl
@[simp] theorem markContention_mode (ds : List Drive) (s : State) : (markContention ds s).mode = s.mode := rfl
@[simp] theorem markContention_bidx (ds : List Drive) (s : State) : (markContention ds s).bidx = s.bidx := rfl
@[simp] theorem markContention_par (ds : List Drive) (s : State) : (markContention ds s).par = s.par := rfl
@[simp] theorem markContention_wp (ds : List Drive) (s : State) : (markContention ds s).wp = s.wp := rfl
@[simp] theorem markContention_lineOe (ds : List Drive) (s : State) : (markContention ds s).lineOe = s.lineOe := rfl
@[simp] theorem markContention_lineOut (ds : List Drive) (s : State) : (markContention ds s).lineOut = s.lineOut := rfl
@[simp] theorem markContention_sq (ds : List Drive) (s : State) : (markContention ds s).sq = s.sq := rfl
@[simp] theorem markContention_rq (ds : List Drive) (s : State) : (markContention ds s).rq = s.rq := rfl
@[simp] theorem markContention_fault (ds : List Drive) (s : State) : (markContention ds s).fault = s.fault := rfl
@[simp] theorem markContention_ready (ds : List Drive) (s : State) : (markContention ds s).ready = s.ready := rfl
@[simp] theorem markContention_res (ds : List Drive) (s : State) : (markContention ds s).res = s.res := rfl
@[simp] theorem markContention_din (ds : List Drive) (s : State) : (markContention ds s).din = s.din := rfl
@[simp] theorem markContention_host (ds : List Drive) (s : State) : (markContention ds s).host = s.host := rfl
@[simp] theorem markContention_program (ds : List Drive) (s : State) : (markContention ds s).program = s.program := rfl
@[simp] theorem markContention_contention (ds : List Drive) (s : State) : (markContention ds s).contention = (s.contention || decide (resolveLine ds = .contended)) := rfl
@[simp] theorem markContention_agenda (ds : List Drive) (s : State) : (markContention ds s).agenda = s.agenda := rfl
@[simp] theorem markContention_turns (ds : List Drive) (s : State) : (markContention ds s).turns = s.turns := rfl

/-! ### present: Presenting a command writes the DIN port and H's program (30_encoding.md R94). -/

@[simp] theorem present_cfg (c : Command) (rest : List Command) (s : State) : (present c rest s).cfg = s.cfg := rfl
@[simp] theorem present_mode (c : Command) (rest : List Command) (s : State) : (present c rest s).mode = s.mode := rfl
@[simp] theorem present_bidx (c : Command) (rest : List Command) (s : State) : (present c rest s).bidx = s.bidx := rfl
@[simp] theorem present_par (c : Command) (rest : List Command) (s : State) : (present c rest s).par = s.par := rfl
@[simp] theorem present_wp (c : Command) (rest : List Command) (s : State) : (present c rest s).wp = s.wp := rfl
@[simp] theorem present_lineOe (c : Command) (rest : List Command) (s : State) : (present c rest s).lineOe = s.lineOe := rfl
@[simp] theorem present_lineOut (c : Command) (rest : List Command) (s : State) : (present c rest s).lineOut = s.lineOut := rfl
@[simp] theorem present_sq (c : Command) (rest : List Command) (s : State) : (present c rest s).sq = s.sq := rfl
@[simp] theorem present_rq (c : Command) (rest : List Command) (s : State) : (present c rest s).rq = s.rq := rfl
@[simp] theorem present_fault (c : Command) (rest : List Command) (s : State) : (present c rest s).fault = s.fault := rfl
@[simp] theorem present_ready (c : Command) (rest : List Command) (s : State) : (present c rest s).ready = s.ready := rfl
@[simp] theorem present_res (c : Command) (rest : List Command) (s : State) : (present c rest s).res = s.res := rfl
@[simp] theorem present_din (c : Command) (rest : List Command) (s : State) : (present c rest s).din = c.din := rfl
@[simp] theorem present_host (c : Command) (rest : List Command) (s : State) : (present c rest s).host = s.host := rfl
@[simp] theorem present_program (c : Command) (rest : List Command) (s : State) : (present c rest s).program = rest := rfl
@[simp] theorem present_contention (c : Command) (rest : List Command) (s : State) : (present c rest s).contention = s.contention := rfl
@[simp] theorem present_agenda (c : Command) (rest : List Command) (s : State) : (present c rest s).agenda = s.agenda := rfl
@[simp] theorem present_turns (c : Command) (rest : List Command) (s : State) : (present c rest s).turns = s.turns := rfl

/-! ### takeTurn: Taking a turn writes the agenda and the turn counter. -/

@[simp] theorem takeTurn_cfg (s : State) : (takeTurn s).cfg = s.cfg := rfl
@[simp] theorem takeTurn_mode (s : State) : (takeTurn s).mode = s.mode := rfl
@[simp] theorem takeTurn_bidx (s : State) : (takeTurn s).bidx = s.bidx := rfl
@[simp] theorem takeTurn_par (s : State) : (takeTurn s).par = s.par := rfl
@[simp] theorem takeTurn_wp (s : State) : (takeTurn s).wp = s.wp := rfl
@[simp] theorem takeTurn_lineOe (s : State) : (takeTurn s).lineOe = s.lineOe := rfl
@[simp] theorem takeTurn_lineOut (s : State) : (takeTurn s).lineOut = s.lineOut := rfl
@[simp] theorem takeTurn_sq (s : State) : (takeTurn s).sq = s.sq := rfl
@[simp] theorem takeTurn_rq (s : State) : (takeTurn s).rq = s.rq := rfl
@[simp] theorem takeTurn_fault (s : State) : (takeTurn s).fault = s.fault := rfl
@[simp] theorem takeTurn_ready (s : State) : (takeTurn s).ready = s.ready := rfl
@[simp] theorem takeTurn_res (s : State) : (takeTurn s).res = s.res := rfl
@[simp] theorem takeTurn_din (s : State) : (takeTurn s).din = s.din := rfl
@[simp] theorem takeTurn_host (s : State) : (takeTurn s).host = s.host := rfl
@[simp] theorem takeTurn_program (s : State) : (takeTurn s).program = s.program := rfl
@[simp] theorem takeTurn_contention (s : State) : (takeTurn s).contention = s.contention := rfl
@[simp] theorem takeTurn_agenda (s : State) : (takeTurn s).agenda = s.agenda.tail := rfl
@[simp] theorem takeTurn_turns (s : State) : (takeTurn s).turns = s.turns + 1 := rfl

end Sys2Proof.Machine
end

