-- ==== Sys2Proof/Laws/Ops.lean ====
section
/-! SUPPORT. For each shared operation, once, everything it can do: the later proofs cite these and unfold nothing. -/

namespace Sys2Proof.Machine

open Sys2Proof

variable {s t : State}

/-! ### Ending a step -/

/-- A step commits its writes whole, or raises one fault and writes nothing else. -/
theorem commit_cases {r : Except FaultCode State} (h : commit s r = t) :
    r = .ok t ∨ ∃ c, r = .error c ∧ t = raise c s := by
  cases r with
  | ok s' => exact .inl (by rw [← h]; rfl)
  | error c => exact .inr ⟨c, rfl, h.symm⟩

theorem commit_ok (s t : State) : commit s (.ok t) = t := rfl

theorem commit_error (s : State) (c : FaultCode) : commit s (.error c) = raise c s := rfl

/-- A raised code is visible: its bit is set in FAULT. -/
theorem raise_fault_ne_zero (c : FaultCode) (s : State) : (raise c s).fault ≠ 0#8 := by
  have h : ∀ (f : BitVec 8) (c : FaultCode), f ||| faultMask c ≠ 0#8 := by
    intro f c
    cases c <;> simp only [faultMask] <;> revert f <;> decide
  exact h s.fault c

/-- From FAULT = 0 a raised code leaves exactly its own bit. -/
theorem raise_of_fault_zero (c : FaultCode) (h : s.fault = 0#8) : raise c s = { s with fault := faultMask c } := by
  simp [raise, h]

/-! ### The gate of a tick -/

theorem engineTick_of_ticking (h : Ticking s) (arm : State → Except FaultCode State) :
    engineTick s arm = .next (commit s (arm s)) := by
  simp [engineTick, h.1, h.2]

theorem engineTick_of_not_ticking (h : ¬ Ticking s) (arm : State → Except FaultCode State) :
    engineTick s arm = .next s := by
  have h' : ¬ (s.ready = true ∧ s.fault = 0#8) := h
  simp only [engineTick, Bool.and_eq_true, beq_iff_eq, if_neg h']

/-- What a tick step can do: nothing where no tick reaches E, else the arm's commit. -/
theorem engineTick_cases {arm : State → Except FaultCode State} (h : engineTick s arm = .next t) :
    (¬ Ticking s ∧ t = s) ∨ (Ticking s ∧ commit s (arm s) = t) := by
  by_cases ht : Ticking s
  · rw [engineTick_of_ticking ht] at h
    exact .inr ⟨ht, by injection h⟩
  · rw [engineTick_of_not_ticking ht] at h
    exact .inl ⟨ht, by injection h with h; exact h.symm⟩

/-! ### The checks before a host operation -/

theorem HostPhase.isIdle_iff (h : HostPhase) : h.isIdle = true ↔ h = .idle := by
  cases h <;> simp [HostPhase.isIdle]

theorem hostOp_of_accepting (h : Accepting s) (run : State → Except FaultCode State) :
    hostOp s run = .next (commit s (run s)) := by
  simp [hostOp, h.1, h.2.1, h.2.2, HostPhase.isIdle]

theorem hostOp_of_not_ready (h : s.ready = false) (run : State → Except FaultCode State) :
    hostOp s run = .refused .preInit := by
  simp [hostOp, h]

theorem hostOp_of_fault (hr : s.ready = true) (hf : s.fault ≠ 0#8) (run : State → Except FaultCode State) :
    hostOp s run = .fault .stopped := by
  simp [hostOp, hr, hf]

/-- A host operation that answers a next state: the block is ready and has no fault; H was busy and nothing started, or
H was idle and the operation ran. -/
theorem hostOp_cases {run : State → Except FaultCode State} (h : hostOp s run = .next t) :
    s.ready = true ∧ s.fault = 0#8 ∧ ((s.host ≠ .idle ∧ t = s) ∨ (s.host = .idle ∧ commit s (run s) = t)) := by
  unfold hostOp at h
  split at h
  · cases h
  · split at h
    · cases h
    · split at h
      · rename_i h1 h2 h3
        injection h with h
        exact ⟨by simpa using h1, by simpa using h2,
          .inl ⟨fun e => by simp [HostPhase.isIdle, e] at h3, h.symm⟩⟩
      · rename_i h1 h2 h3
        injection h with h
        refine ⟨by simpa using h1, by simpa using h2, .inr ⟨?_, h⟩⟩
        exact (HostPhase.isIdle_iff _).1 (by simpa using h3)

/-- A further step of a started operation: it runs only while FAULT is 0. -/
theorem hostStep_cases {run : State → Except FaultCode State} (h : hostStep s run = .next t) :
    s.fault = 0#8 ∧ commit s (run s) = t := by
  unfold hostStep at h
  split at h
  · cases h
  · rename_i hf
    injection h with h
    exact ⟨by simpa using hf, h⟩

/-! ### The Packet Queue -/

/-- What an enqueue can answer: a full queue and no mutation; the overrun fault; or the slot at `tail` written and
`tail` advanced. -/
theorem Queue.enqueue_cases (c : Params) (cap : Nat) (q : Queue) (p : Packet) :
    (q.isFull cap = true ∧ q.enqueue c cap p = .ok none) ∨
    (q.isFull cap = false ∧ c.payloadCap < p.size.toNat ∧ q.enqueue c cap p = .error .enqOvr) ∨
    (q.isFull cap = false ∧ p.size.toNat ≤ c.payloadCap ∧ q.enqueue c cap p = .ok (some { q with
      slots := q.slots.set q.tail (copyIn p (q.slotAt q.tail)), tail := nextIndex cap q.tail })) := by
  unfold Queue.enqueue
  cases hf : q.isFull cap
  · by_cases hs : c.payloadCap < p.size.toNat
    · exact .inr (.inl ⟨rfl, hs, by simp [hs]⟩)
    · exact .inr (.inr ⟨rfl, Nat.le_of_not_lt hs, by simp [hs]⟩)
  · exact .inl ⟨rfl, by simp⟩

/-- What a dequeue can answer: an empty queue and no mutation; the scan's fault; or the head slot copied out and `head`
advanced. -/
theorem Queue.dequeue_cases {α : Type} (c : Params) (cap : Nat) (q : Queue) (f : Byte → α) (d : PacketOf α) :
    (q.isEmpty = true ∧ q.dequeue c cap f d = .ok none) ∨
    (∃ e, q.isEmpty = false ∧ scanSlot c.payloadCap (q.slotAt q.head) = .error e ∧ q.dequeue c cap f d = .error e) ∨
    (∃ bs, q.isEmpty = false ∧ scanSlot c.payloadCap (q.slotAt q.head) = .ok bs ∧
      q.dequeue c cap f d =
        .ok (some (copyOut f (q.slotAt q.head) bs d, { q with head := nextIndex cap q.head }))) := by
  unfold Queue.dequeue
  cases he : q.isEmpty
  · cases hs : scanSlot c.payloadCap (q.slotAt q.head) with
    | error e => exact .inr (.inl ⟨e, rfl, rfl, rfl⟩)
    | ok bs => exact .inr (.inr ⟨bs, rfl, rfl, rfl⟩)
  · exact .inl ⟨rfl, by simp⟩

theorem Queue.isEmpty_iff (q : Queue) : q.isEmpty = true ↔ q.head = q.tail := by simp [Queue.isEmpty]

theorem Queue.isFull_iff (cap : Nat) (q : Queue) : q.isFull cap = true ↔ (q.tail + 1) % cap = q.head := by
  simp [Queue.isFull, nextIndex]

theorem nextIndex_lt {cap : Nat} (h : 0 < cap) (i : Nat) : nextIndex cap i < cap := Nat.mod_lt _ h

/-- The scanned bytes are a run of the slot's bytes that ends at the first 0x00. -/
theorem scanBytes_ok {l : List (Option Byte)} {bs : List Byte} (h : scanBytes l = .ok bs) :
    bs.length ≤ l.length ∧ l.take bs.length = bs.map some ∧ ∃ i, bs = i ++ [0#8] ∧ ∀ b ∈ i, b ≠ 0#8 := by
  induction l generalizing bs with
  | nil => cases h
  | cons a l ih =>
    cases a with
    | none => cases h
    | some b =>
      rw [scanBytes] at h
      split at h
      · rename_i hb
        injection h with h
        subst h
        exact ⟨by simp, by simp, [], by simpa using hb, by simp⟩
      · rename_i hb
        cases hr : scanBytes l with
        | error e => rw [hr] at h; cases h
        | ok cs =>
          rw [hr] at h
          injection h with h
          subst h
          obtain ⟨h1, h2, i, h3, h4⟩ := ih hr
          refine ⟨by simpa using h1, by simp [h2], b :: i, by simp [h3], ?_⟩
          intro x hx
          rcases List.mem_cons.1 hx with rfl | hx
          · simpa using hb
          · exact h4 x hx

theorem scanSlot_length_le {cap : Nat} {sl : Slot} {bs : List Byte} (h : scanSlot cap sl = .ok bs) :
    bs.length ≤ cap ∧ bs.length ≤ sl.pay.length := by
  have h1 := (scanBytes_ok h).1
  rw [List.length_take] at h1
  omega

/-! ### Well-formed queues -/

theorem Queue.slotAt_mem {q : Queue} {i : Nat} (h : i < q.slots.length) : q.slotAt i ∈ q.slots := by
  simp [Queue.slotAt, List.getD_eq_getElem?_getD, h]

theorem Queue.wf_slotAt {pc cap : Nat} {q : Queue} (h : q.wf pc cap) {i : Nat} (hi : i < cap) :
    slotWf pc (q.slotAt i) := h.2.2.2 _ (Queue.slotAt_mem (by rw [h.2.2.1]; exact hi))

/-- A slot after the copy of an enqueue is well-formed when the packet fills its buffer and fits. -/
theorem copyIn_wf {pc : Nat} {p : Packet} {sl : Slot} (hp : p.pay.length = pc) (hs : p.size.toNat ≤ pc)
    (hw : slotWf pc sl) : slotWf pc (copyIn p sl) := by
  refine ⟨?_, hs⟩
  have := hw.1
  simp only [copyIn, List.length_append, List.length_take, List.length_drop]
  omega

theorem Queue.wf_set {pc cap : Nat} {q : Queue} {sl : Slot} {i : Nat} (h : q.wf pc cap) (hs : slotWf pc sl) :
    Queue.wf pc cap { q with slots := q.slots.set i sl } := by
  refine ⟨h.1, h.2.1, by simp [h.2.2.1], ?_⟩
  intro x hx
  rcases List.mem_or_eq_of_mem_set hx with hx | rfl
  · exact h.2.2.2 x hx
  · exact hs

theorem Queue.wf_tail {pc cap : Nat} {q : Queue} (h : q.wf pc cap) (i : Nat) :
    Queue.wf pc cap { q with tail := nextIndex cap i } :=
  ⟨h.1, nextIndex_lt (by have := h.1; omega) i, h.2.2.1, h.2.2.2⟩

theorem Queue.wf_head {pc cap : Nat} {q : Queue} (h : q.wf pc cap) (i : Nat) :
    Queue.wf pc cap { q with head := nextIndex cap i } :=
  ⟨nextIndex_lt (by have := h.1; omega) i, h.2.1, h.2.2.1, h.2.2.2⟩

/-- An accepted enqueue keeps a queue well-formed. -/
theorem Queue.wf_enqueue {c : Params} {cap : Nat} {q q' : Queue} {p : Packet} (h : q.wf c.payloadCap cap)
    (hp : p.pay.length = c.payloadCap) (he : q.enqueue c cap p = .ok (some q')) : q'.wf c.payloadCap cap := by
  rcases q.enqueue_cases c cap p with ⟨-, e⟩ | ⟨-, -, e⟩ | ⟨-, hs, e⟩ <;> rw [e] at he
  · cases he
  · cases he
  · injection he with he
    injection he with he
    subst he
    exact Queue.wf_tail (Queue.wf_set h (copyIn_wf hp hs (Queue.wf_slotAt h h.2.1))) q.tail

/-- A dequeue keeps a queue well-formed. -/
theorem Queue.wf_dequeue {α : Type} {c : Params} {cap : Nat} {q q' : Queue} {f : Byte → α} {d r : PacketOf α}
    (h : q.wf c.payloadCap cap) (he : q.dequeue c cap f d = .ok (some (r, q'))) : q'.wf c.payloadCap cap := by
  rcases q.dequeue_cases c cap f d with ⟨-, e⟩ | ⟨_, -, -, e⟩ | ⟨_, -, -, e⟩ <;> rw [e] at he
  · cases he
  · cases he
  · injection he with he
    injection he with he
    injection he with h1 h2
    subst h2
    exact Queue.wf_head h q.head

/-- `new` keeps a queue's storage well-formed. -/
theorem Queue.wf_new {c : Params} {cap : Nat} {q : Queue} (h : q.wf c.payloadCap cap) :
    (q.new c).wf c.payloadCap cap := by
  have h0 : 0 < cap := by have := h.1; omega
  refine ⟨h0, h0, by simp [Queue.new, h.2.2.1], ?_⟩
  intro x hx
  obtain ⟨y, hy, rfl⟩ := List.mem_map.1 hx
  exact ⟨by simp, (h.2.2.2 y hy).2⟩

theorem hostPacket_length (cap : Nat) (snd dst : NodeId) (size : PayloadSize) (din : List Byte) :
    (hostPacket cap snd dst size din).pay.length = cap := by
  simp [hostPacket]

/-! ### The bit index -/

/-- A legal BIDX register holds every index up to 2057. -/
theorem bidxW_of_legal {c : Params} (h : c.legal = true) : 2057 < 2 ^ c.bidxW := by
  simp only [Params.legal, Bool.and_eq_true, decide_eq_true_eq] at h
  exact h.2

/-- Below the top of its register the next bit index is the successor. -/
theorem nextBit_of_lt {w i : Nat} (h : i + 1 < 2 ^ w) : nextBit w i = i + 1 := Nat.mod_eq_of_lt h

theorem nextBit_lt (w i : Nat) : nextBit w i < 2 ^ w := Nat.mod_lt _ (Nat.two_pow_pos w)

/-! ### The arms -/

theorem storeDataBit_ok {b : Bool} (h : storeDataBit b s = .ok t) :
    ∃ p, setFrameBit s.cfg.payloadCap s.wp s.bidx b = .ok p ∧
      t = { s with wp := p, par := parityAdd s.par b, bidx := nextBit s.cfg.bidxW s.bidx } := by
  unfold storeDataBit at h
  split at h
  · cases h
  · rename_i p hp
    injection h with h
    exact ⟨p, hp, h.symm⟩

theorem driveDataBit_ok (h : driveDataBit s = .ok t) :
    ∃ b, frameBit s.cfg.payloadCap s.wp s.bidx = .ok b ∧
      t = { s with lineOut := b, par := parityAdd s.par b, bidx := nextBit s.cfg.bidxW s.bidx } := by
  unfold driveDataBit at h
  split at h
  · cases h
  · rename_i b hb
    injection h with h
    exact ⟨b, hb, h.symm⟩

/-- RX_PAR that does not fault: RQ is as it was or has WP enqueued, and the engine is back in IDLE. -/
theorem rxPar_ok {line : Bool} (h : rxPar line s = .ok t) :
    t = toIdle s ∨ ∃ q, parityPasses s.par line = true ∧
      s.rq.enqueue s.cfg s.cfg.rqCap s.wp.toPacket = .ok (some q) ∧ t = toIdle { s with rq := q } := by
  unfold rxPar at h
  split at h
  · rename_i hp
    split at h
    · cases h
    · injection h with h; exact .inl h.symm
    · rename_i q hq
      injection h with h; exact .inr ⟨q, hp, hq, h.symm⟩
  · injection h with h; exact .inl h.symm

/-- IDLE_CLAIM that does not fault: SQ's head packet is dequeued into WP and the line driven low. -/
theorem idleClaim_ok (h : idleClaim s = .ok t) :
    ∃ p q, s.sq.dequeue s.cfg s.cfg.sqCap id s.wp = .ok (some (p, q)) ∧
      t = { s with lineOe := true, lineOut := false, sq := q, wp := p, mode := .sending, bidx := 0, par := false } := by
  unfold idleClaim at h
  split at h
  · cases h
  · cases h
  · rename_i p q hq
    injection h with h
    exact ⟨p, q, hq, h.symm⟩

theorem trySend_ok {p : Packet} (h : trySend p s = .ok t) :
    (s.sq.isFull s.cfg.sqCap = true ∧ t = hold (.sendHeld p) s) ∨
      ∃ q, s.sq.enqueue s.cfg s.cfg.sqCap p = .ok (some q) ∧ t = finish .done { s with sq := q } := by
  unfold trySend at h
  split at h
  · cases h
  · rename_i hq
    injection h with h
    refine .inl ⟨?_, h.symm⟩
    rcases s.sq.enqueue_cases s.cfg s.cfg.sqCap p with ⟨hf, -⟩ | ⟨-, -, e⟩ | ⟨-, -, e⟩
    · exact hf
    · rw [e] at hq; cases hq
    · rw [e] at hq; cases hq
  · rename_i q hq
    injection h with h
    exact .inr ⟨q, hq, h.symm⟩

theorem tryGet_ok (h : tryGet s = .ok t) :
    (s.rq.isEmpty = true ∧ t = hold .getHeld s) ∨
      ∃ p q, s.rq.dequeue s.cfg s.cfg.rqCap some (undefBuffer s.cfg.payloadCap) = .ok (some (p, q)) ∧
        t = finish (.packet p) { s with rq := q } := by
  unfold tryGet at h
  split at h
  · cases h
  · rename_i hq
    injection h with h
    refine .inl ⟨?_, h.symm⟩
    rcases s.rq.dequeue_cases s.cfg s.cfg.rqCap some (undefBuffer s.cfg.payloadCap) with
      ⟨he, -⟩ | ⟨_, -, -, e⟩ | ⟨_, -, -, e⟩
    · exact he
    · rw [e] at hq; cases hq
    · rw [e] at hq; cases hq
  · rename_i p q hq
    injection h with h
    exact .inr ⟨p, q, hq, h.symm⟩

end Sys2Proof.Machine
end

