-- ==== Sys2Proof/Laws/Step.lean ====
section
/-! SUPPORT. What a tick, a host turn and a step can do, said once over the state instead of over the selector. -/

namespace Sys2Proof.Machine

open Sys2Proof

variable {s t : State}

/-! ### The selector's fields -/

theorem selMode_mkSel (m : BitVec 2) (l q : Bool) (ph : BitVec 2) : selMode (mkSel m l q ph) = m := by
  revert m l q ph; decide

theorem selLine_mkSel (m : BitVec 2) (l q : Bool) (ph : BitVec 2) : selLine (mkSel m l q ph) = l := by
  revert m l q ph; decide

theorem selSqne_mkSel (m : BitVec 2) (l q : Bool) (ph : BitVec 2) : selSqne (mkSel m l q ph) = q := by
  revert m l q ph; decide

theorem selPh_mkSel (m : BitVec 2) (l q : Bool) (ph : BitVec 2) : selPh (mkSel m l q ph) = ph := by
  revert m l q ph; decide

/-! ### The arm of a tick (41_engine.md R141) -/

/-- The arm a tick runs, by MODE, the frame phase, LINE and SQ's emptiness. -/
def armAt (line : Bool) (s : State) : Instr :=
  match s.mode with
  | .receiving =>
    if s.bidx < 16 then .rxHdr line (!s.sq.isEmpty)
    else if s.bidx < 16 + 8 * s.wp.size.toNat then .rxPay line (!s.sq.isEmpty)
    else if s.bidx = 16 + 8 * s.wp.size.toNat then .rxPar line (!s.sq.isEmpty)
    else .reservedRxPh11 line (!s.sq.isEmpty)
  | .sending =>
    if s.bidx < 16 then .txHdr line (!s.sq.isEmpty)
    else if s.bidx < 16 + 8 * s.wp.size.toNat then .txPay line (!s.sq.isEmpty)
    else if s.bidx = 16 + 8 * s.wp.size.toNat then .txPar line (!s.sq.isEmpty)
    else .txRel line (!s.sq.isEmpty)
  | .idle =>
    if line = false then .idleRxstart (!s.sq.isEmpty) (framePhase s.bidx s.wp.size.toNat)
    else if s.sq.isEmpty then .idleNop (framePhase s.bidx s.wp.size.toNat)
    else .idleClaim (framePhase s.bidx s.wp.size.toNat)
  | .reserved => .reservedMode11 line (!s.sq.isEmpty) (framePhase s.bidx s.wp.size.toNat)

theorem decodeSel_formSel (line : Bool) (s : State) : decodeSel (formSel s line) = armAt line s := by
  unfold decodeSel formSel armAt
  simp only [selMode_mkSel, selLine_mkSel, selSqne_mkSel, selPh_mkSel]
  cases s.mode
  · cases line <;> cases s.sq.isEmpty <;> simp [modeBits, decodeIdle]
  · simp only [modeBits, framePhase]
    by_cases h1 : s.bidx < 16
    · simp [decodeTx, h1]
    · by_cases h2 : s.bidx < 16 + 8 * s.wp.size.toNat
      · simp [decodeTx, h1, h2]
      · by_cases h3 : s.bidx = 16 + 8 * s.wp.size.toNat <;> simp [decodeTx, h1, h2, h3]
  · simp only [modeBits, framePhase]
    by_cases h1 : s.bidx < 16
    · simp [decodeRx, h1]
    · by_cases h2 : s.bidx < 16 + 8 * s.wp.size.toNat
      · simp [decodeRx, h1, h2]
      · by_cases h3 : s.bidx = 16 + 8 * s.wp.size.toNat <;> simp [decodeRx, h1, h2, h3]
  · simp [modeBits]

/-- The effect of the arm a tick runs, before the gate of R140. -/
def armEffect (line : Bool) (s : State) : Except FaultCode State :=
  match s.mode with
  | .receiving =>
    if s.bidx < 16 then storeDataBit line s
    else if s.bidx < 16 + 8 * s.wp.size.toNat then
      if s.cfg.payloadCap ≤ byteIndex s.bidx then .error .rxOvf else storeDataBit line s
    else if s.bidx = 16 + 8 * s.wp.size.toNat then rxPar line s
    else .error .unreachable
  | .sending =>
    if s.bidx < 16 + 8 * s.wp.size.toNat then driveDataBit s
    else if s.bidx = 16 + 8 * s.wp.size.toNat then
      .ok { s with lineOut := parityBit s.par, bidx := nextBit s.cfg.bidxW s.bidx }
    else .ok (toIdle { s with lineOe := false })
  | .idle =>
    if line = false then
      .ok { s with mode := .receiving, wp := zeroPacket s.cfg.payloadCap, bidx := 0, par := false }
    else if s.sq.isEmpty then .ok s
    else idleClaim s
  | .reserved => .error .unreachable

/-- A tick is its gate around the effect of one arm. -/
theorem tickAt_eq (line : Bool) (s : State) : tickAt line s = engineTick s fun s => armEffect line s := by
  unfold tickAt
  rw [decodeSel_formSel]
  unfold armAt
  cases hm : s.mode
  · simp only []
    split_ifs with h1 h2
    · simp [exec, execIdleRxstart, engineTick, armEffect, hm, h1]
    · simp [exec, execIdleNop, engineTick, armEffect, hm, h1, h2]
    · simp [exec, execIdleClaim, engineTick, armEffect, hm, h1, h2]
  · simp only []
    split_ifs with h1 h2 h3
    · have : s.bidx < 16 + 8 * s.wp.size.toNat := by omega
      simp [exec, execTxHdr, engineTick, armEffect, hm, this]
    · simp [exec, execTxPay, engineTick, armEffect, hm, h2]
    · simp [exec, execTxPar, engineTick, armEffect, hm, h3]
    · simp [exec, execTxRel, engineTick, armEffect, hm, h2, h3]
  · simp only []
    split_ifs with h1 h2 h3
    · simp [exec, execRxHdr, engineTick, armEffect, hm, h1]
    · simp [exec, execRxPay, engineTick, armEffect, hm, h1, h2]
    · simp [exec, execRxPar, engineTick, armEffect, hm, h3]
    · simp [exec, execReservedRxPh11, engineTick, armEffect, hm, h1, h2, h3]
  · simp [exec, execReservedMode11, engineTick, armEffect, hm]

/-- A tick always has a next state. -/
theorem tickAt_exists (line : Bool) (s : State) : ∃ t, tickAt line s = .next t := by
  rw [tickAt_eq]
  by_cases h : Ticking s
  · exact ⟨_, engineTick_of_ticking h _⟩
  · exact ⟨_, engineTick_of_not_ticking h _⟩

/-- What a tick can do: nothing where it does not reach E; raise one fault; or the effect of its arm. -/
theorem tickAt_cases {line : Bool} (h : tickAt line s = .next t) :
    (¬ Ticking s ∧ t = s) ∨ (Ticking s ∧ armEffect line s = .ok t) ∨
      (Ticking s ∧ ∃ c, armEffect line s = .error c ∧ t = raise c s) := by
  rw [tickAt_eq] at h
  rcases engineTick_cases h with ⟨h1, h2⟩ | ⟨h1, h2⟩
  · exact .inl ⟨h1, h2⟩
  · rcases commit_cases h2 with h2 | h2
    · exact .inr (.inl ⟨h1, h2⟩)
    · exact .inr (.inr ⟨h1, h2⟩)

theorem afterTick_of_ticking (h : Ticking s) (line : Bool) : afterTick line s = commit s (armEffect line s) := by
  simp [afterTick, settle, tickAt_eq, engineTick_of_ticking h]

/-! ### Turns -/

theorem tickTurn_eq (peers : List Drive) (noise draw : Bool) (s : State) :
    tickTurn peers noise draw s =
      tickAt (sampleLine (s.drive :: peers) noise draw) (markContention (s.drive :: peers) s) := rfl

/-- What presenting the next command can lead to when it answers a next state: no command; or the run of the
instruction it decodes to. -/
theorem fetchHost_cases {run : Instr → State → Out} (h : fetchHost run s = .next t) :
    (s.program = [] ∧ t = s) ∨ ∃ c rest i, s.program = c :: rest ∧ decodeHcw c.hcw = .ok i ∧
      run i (present c rest s) = .next t := by
  unfold fetchHost at h
  split at h
  · rename_i hp
    injection h with h
    exact .inl ⟨hp, h.symm⟩
  · rename_i c rest hp
    split at h
    · rename_i i hi
      exact .inr ⟨c, rest, i, hp, hi, h⟩
    · unfold refuseWord at h
      split at h <;> cases h

/-- What a host turn can do when it answers a next state. -/
theorem hostTurn_cases (h : hostTurn s = .next t) :
    (s.host = .idle ∧ fetchHost exec s = .next t) ∨
    (∃ p, s.host = .sendHeld p ∧ s.fault = 0#8 ∧ commit s (trySend p s) = t) ∨
    (s.host = .getHeld ∧ s.fault = 0#8 ∧ commit s (tryGet s) = t) ∨
    (s.host ≠ .idle ∧ s.fault = 0#8 ∧ commit s (microStep 0 s) = t) := by
  unfold hostTurn at h
  split at h
  · rename_i hh; exact .inl ⟨hh, h⟩
  · rename_i p hh
    obtain ⟨h1, h2⟩ := hostStep_cases h
    exact .inr (.inl ⟨p, hh, h1, h2⟩)
  · rename_i hh
    obtain ⟨h1, h2⟩ := hostStep_cases h
    exact .inr (.inr (.inl ⟨hh, h1, h2⟩))
  · rename_i hh _ _
    obtain ⟨h1, h2⟩ := hostStep_cases h
    exact .inr (.inr (.inr ⟨hh, h1, h2⟩))

/-- What a micro turn can do when it answers a next state. -/
theorem microTurn_cases {pick : Nat} (h : microTurn pick s = .next t) :
    (s.host = .idle ∧ fetchHost beginMicro s = .next t) ∨
    (s.host ≠ .idle ∧ s.fault = 0#8 ∧ commit s (microStep pick s) = t) := by
  unfold microTurn at h
  split at h
  · rename_i hh; exact .inl ⟨hh, h⟩
  · rename_i hh
    obtain ⟨h1, h2⟩ := hostStep_cases h
    exact .inr ⟨hh, h1, h2⟩

/-- The operations a host command word decodes to: no tick arm. -/
theorem decodeHcw_host {w : Hcw} {i : Instr} (h : decodeHcw w = .ok i) :
    i = .init ∨ i = .sqIsempty ∨ i = .sqIsfull ∨ (∃ a b c, i = .sqEnq a b c) ∨ i = .rqIsempty ∨ i = .rqIsfull ∨
      i = .rqDeq ∨ (∃ a b c, i = .send a b c) ∨ i = .get ∨ i = .has ∨ (∃ a b, i = .reservedOpAB a b) ∨
      ∃ a b, i = .reservedOpCF a b := by
  unfold decodeHcw plainOp at h
  split at h <;> (try split at h) <;> cases h <;> simp

end Sys2Proof.Machine
end

