-- ==== Sys2Proof/Laws/Micro.lean ====
section
/-! SUPPORT. The micro-steps one by one, and the bits of a packet: what each shared operation can answer. -/

namespace Sys2Proof.Machine

open Sys2Proof

variable {s t : State}

/-! ### Refused words -/

/-- A refused word: R_PRE_INIT before INIT, unless it is INIT's, and its own reason after. -/
theorem refuseWord_cases (isInit : Bool) (r : Refusal) (s : State) :
    (s.ready = false ∧ isInit = false ∧ refuseWord isInit r s = .refused .preInit) ∨
    ((s.ready = true ∨ isInit = true) ∧ refuseWord isInit r s = .refused r) := by
  unfold refuseWord
  cases s.ready <;> cases isInit <;> simp

/-! ### Bits of a packet -/

/-- `frameBit` faults exactly on a payload index beyond the buffer, with F_TX_OVR. -/
theorem frameBit_cases (cap : Nat) (p : WorkPacket) (i : Nat) :
    (i < 16 + 8 * cap ∧ ∃ b, frameBit cap p i = .ok b) ∨ (16 + 8 * cap ≤ i ∧ frameBit cap p i = .error .txOvr) := by
  unfold frameBit byteIndex
  split_ifs with h1 h2 h3 h4
  · exact .inl ⟨by omega, _, rfl⟩
  · exact .inl ⟨by omega, _, rfl⟩
  · exact .inl ⟨by omega, _, rfl⟩
  · exact .inr ⟨by omega, rfl⟩
  · exact .inl ⟨by omega, _, rfl⟩

/-- `setFrameBit` faults exactly on a payload index beyond the buffer, with F_RX_OVF, and keeps the buffer's length. -/
theorem setFrameBit_cases (cap : Nat) (p : WorkPacket) (i : Nat) (b : Bool) :
    (i < 16 + 8 * cap ∧ ∃ p', setFrameBit cap p i b = .ok p' ∧ p'.pay.length = p.pay.length) ∨
      (16 + 8 * cap ≤ i ∧ setFrameBit cap p i b = .error .rxOvf) := by
  unfold setFrameBit byteIndex
  split_ifs with h1 h2 h3 h4
  · exact .inl ⟨by omega, _, rfl, rfl⟩
  · exact .inl ⟨by omega, _, rfl, rfl⟩
  · exact .inl ⟨by omega, _, rfl, rfl⟩
  · exact .inr ⟨by omega, rfl⟩
  · exact .inl ⟨by omega, _, rfl, by simp⟩

/-- A bit written is read back, and every other bit is as it was. -/
theorem getLsbD_setBit (n : Nat) (v : BitVec n) (k j : Nat) (b : Bool) (hk : k < n) :
    (setBit n v k b).getLsbD j = if j = k then b else v.getLsbD j := by
  have h1 : (1#n <<< k).getLsbD j = decide (j = k) := by
    rw [BitVec.getLsbD_shiftLeft, BitVec.getLsbD_one]
    by_cases hj : j = k
    · subst hj; simp [hk]; omega
    · by_cases hl : j < k
      · simp [hj, hl]
      · have h0 : ¬ j - k = 0 := by omega
        simp [hj, h0]
  cases b
  · simp only [setBit, Bool.false_eq_true, if_false, BitVec.getLsbD_and, BitVec.getLsbD_not, h1]
    by_cases hj : j = k
    · simp [hj]
    · by_cases hn : j < n
      · simp [hj, hn]
      · simp [hj, BitVec.getLsbD_of_ge v j (by omega)]
  · simp only [setBit, if_true, BitVec.getLsbD_or, h1]
    by_cases hj : j = k <;> simp [hj]

/-! ### The line -/

/-- A sample is the line's level, inverted by noise, or the draw under contention. -/
theorem sampleLine_cases (ds : List Drive) (noise draw : Bool) :
    (∃ b, resolveLine ds = .level b ∧ sampleLine ds noise draw = xor b noise) ∨
      (resolveLine ds = .contended ∧ sampleLine ds noise draw = draw) := by
  unfold sampleLine
  cases h : resolveLine ds with
  | level b => exact .inl ⟨b, rfl, rfl⟩
  | contended => exact .inr ⟨rfl, rfl⟩

/-! ### Micro-steps (40_queue.md R117, R118) -/

variable {pick : Nat}

/-- The poll of a held SEND. -/
theorem microStep_sendHeld {p : Packet} (h : s.host = .sendHeld p) :
    microStep pick s = .ok (if s.sq.isFull s.cfg.sqCap then s else { s with host := .enqRead .send p }) := by
  simp [microStep, h]

/-- The poll of a held GET. -/
theorem microStep_getHeld (h : s.host = .getHeld) :
    microStep pick s = .ok (if s.rq.isEmpty then s else { s with host := .deqRead .get }) := by
  simp [microStep, h]

/-- E1. -/
theorem microStep_enqRead {c : EnqCaller} {p : Packet} (h : s.host = .enqRead c p) :
    microStep pick s = .ok { s with host := .enqTest c p s.sq.head s.sq.tail } := by
  simp [microStep, h]

/-- E2. -/
theorem microStep_enqTest {c : EnqCaller} {p : Packet} {i j : Nat} (h : s.host = .enqTest c p i j) :
    microStep pick s =
      .ok (if nextIndex s.cfg.sqCap j == i then enqAnswer c p false s else { s with host := .enqBound c p j }) := by
  simp [microStep, h]

/-- E3. -/
theorem microStep_enqBound {c : EnqCaller} {p : Packet} {j : Nat} (h : s.host = .enqBound c p j) :
    microStep pick s =
      if s.cfg.payloadCap < p.size.toNat then .error .enqOvr
      else .ok { s with host := .enqCopy c p j (slotFields p.size.toNat) } := by
  simp [microStep, h]

/-- E4. -/
theorem microStep_enqCopy_cons {c : EnqCaller} {p : Packet} {j : Nat} {f : SlotField} {fs : List SlotField}
    (h : s.host = .enqCopy c p j (f :: fs)) : microStep pick s = .ok (enqWrite pick c p j f fs s) := by
  simp [microStep, h]

/-- E5. -/
theorem microStep_enqCopy_nil {c : EnqCaller} {p : Packet} {j : Nat} (h : s.host = .enqCopy c p j []) :
    microStep pick s = .ok (enqAnswer c p true { s with sq := { s.sq with tail := nextIndex s.cfg.sqCap j } }) := by
  simp [microStep, h]

/-- Q1. -/
theorem microStep_deqRead {c : DeqCaller} (h : s.host = .deqRead c) :
    microStep pick s = .ok { s with host := .deqTest c s.rq.tail s.rq.head } := by
  simp [microStep, h]

/-- Q2. -/
theorem microStep_deqTest {c : DeqCaller} {i j : Nat} (h : s.host = .deqTest c i j) :
    microStep pick s = .ok (if j == i then deqAnswer c none s else { s with host := .deqScan c j 0 }) := by
  simp [microStep, h]

/-- Q3. -/
theorem microStep_deqScan {c : DeqCaller} {i j : Nat} (h : s.host = .deqScan c i j) :
    microStep pick s = deqScanByte c i j s := by
  simp [microStep, h]

/-- Q4. -/
theorem microStep_deqCopy_cons {c : DeqCaller} {i : Nat} {f : SlotField} {fs : List SlotField} {acc : Packet}
    (h : s.host = .deqCopy c i (f :: fs) acc) :
    microStep pick s = .ok { s with host := .deqCopy c i fs (writeField (s.rq.slotAt i) f acc) } := by
  simp [microStep, h]

/-- Q5. -/
theorem microStep_deqCopy_nil {c : DeqCaller} {i : Nat} {acc : Packet} (h : s.host = .deqCopy c i [] acc) :
    microStep pick s =
      .ok (deqAnswer c (some acc) { s with rq := { s.rq with head := nextIndex s.cfg.rqCap i } }) := by
  simp [microStep, h]

end Sys2Proof.Machine
end

