-- ==== Sys2Proof/Laws/Bus.lean ====
section
/-! SUPPORT. Runs of turns, the parameters no step writes, and the well-formedness of a line of several blocks. -/

namespace Sys2Proof.Machine

open Sys2Proof

variable {s t : State}

/-! ### Runs -/

@[simp] theorem andThen_next (s : State) (f : State → Out) : andThen (.next s) f = f s := rfl
@[simp] theorem andThen_fault (x : Fault) (f : State → Out) : andThen (.fault x) f = .fault x := rfl
@[simp] theorem andThen_refused (r : Refusal) (f : State → Out) : andThen (.refused r) f = .refused r := rfl

/-- A run that goes on answered a next state at every point. -/
theorem andThen_cases {o : Out} {f : State → Out} (h : andThen o f = .next t) : ∃ s, o = .next s ∧ f s = .next t := by
  cases o with
  | next s => exact ⟨s, rfl, h⟩
  | fault x => cases h
  | refused r => cases h

@[simp] theorem runTurns_nil (s : State) : runTurns [] s = .next s := rfl

@[simp] theorem runTurns_cons (u : Turn) (us : List Turn) (s : State) :
    runTurns (u :: us) s = andThen (runTurn u s) (runTurns us) := rfl

/-- Turns in two parts. -/
theorem runTurns_append (us vs : List Turn) (s : State) :
    runTurns (us ++ vs) s = andThen (runTurns us s) (runTurns vs) := by
  induction us generalizing s with
  | nil => rfl
  | cons u us ih =>
    simp only [List.cons_append, runTurns_cons]
    cases runTurn u s with
    | next s' => exact ih s'
    | fault x => rfl
    | refused r => rfl

/-! ### No step writes a parameter (10_state.md R34) -/

/-- The end of a step keeps the parameters if its effect does. -/
theorem commit_cfg {r : Except FaultCode State} (h : commit s r = t) (hr : ∀ u, r = .ok u → u.cfg = s.cfg) :
    t.cfg = s.cfg := by
  rcases commit_cases h with h | ⟨c, -, rfl⟩
  · exact hr t h
  · rfl

theorem trySend_cfg {p : Packet} (h : trySend p s = .ok t) : t.cfg = s.cfg := by
  rcases trySend_ok h with ⟨-, rfl⟩ | ⟨q, -, rfl⟩ <;> rfl

theorem tryGet_cfg (h : tryGet s = .ok t) : t.cfg = s.cfg := by
  rcases tryGet_ok h with ⟨-, rfl⟩ | ⟨p, q, -, rfl⟩ <;> rfl

theorem armEffect_cfg {line : Bool} (h : armEffect line s = .ok t) : t.cfg = s.cfg := by
  have hs : ∀ {u}, storeDataBit line s = .ok u → u.cfg = s.cfg := fun h => by
    obtain ⟨_, -, rfl⟩ := storeDataBit_ok h; rfl
  have hp : ∀ {u}, rxPar line s = .ok u → u.cfg = s.cfg := fun h => by
    rcases rxPar_ok h with rfl | ⟨_, -, -, rfl⟩ <;> rfl
  have hd : ∀ {u}, driveDataBit s = .ok u → u.cfg = s.cfg := fun h => by
    obtain ⟨_, -, rfl⟩ := driveDataBit_ok h; rfl
  have hc : ∀ {u}, idleClaim s = .ok u → u.cfg = s.cfg := fun h => by
    obtain ⟨_, _, -, rfl⟩ := idleClaim_ok h; rfl
  unfold armEffect at h
  split at h
  · split_ifs at h
    · exact hs h
    · exact hs h
    · exact hp h
  · split_ifs at h
    · exact hd h
    · cases h; rfl
    · cases h; rfl
  · split_ifs at h
    · cases h; rfl
    · cases h; rfl
    · exact hc h
  · cases h

theorem tickTurn_cfg {peers : List Drive} {noise draw : Bool} (h : tickTurn peers noise draw s = .next t) :
    t.cfg = s.cfg := by
  rw [tickTurn_eq] at h
  rcases tickAt_cases h with ⟨-, rfl⟩ | ⟨-, h⟩ | ⟨-, c, -, rfl⟩
  · rfl
  · exact armEffect_cfg (s := markContention (s.drive :: peers) s) h
  · rfl

/-- The host operations keep the parameters where their effect does. -/
theorem hostOp_cfg {run : State → Except FaultCode State} (h : hostOp s run = .next t)
    (hr : ∀ u, run s = .ok u → u.cfg = s.cfg) : t.cfg = s.cfg := by
  obtain ⟨-, -, ⟨-, rfl⟩ | ⟨-, h⟩⟩ := hostOp_cases h
  · rfl
  · exact commit_cfg h hr

theorem refuseWord_not_next {b : Bool} {r : Refusal} : refuseWord b r s ≠ .next t := by
  rcases refuseWord_cases b r s with ⟨-, -, e⟩ | ⟨-, e⟩ <;> rw [e] <;> simp

theorem exec_host_cfg {w : Hcw} {i : Instr} (hi : decodeHcw w = .ok i) (h : exec i s = .next t) : t.cfg = s.cfg := by
  rcases decodeHcw_host hi with rfl | rfl | rfl | ⟨a, b, c, rfl⟩ | rfl | rfl | rfl | ⟨a, b, c, rfl⟩ | rfl | rfl |
    ⟨a, b, rfl⟩ | ⟨a, b, rfl⟩ <;>
    simp only [exec, execSqIsempty, execSqIsfull, execSqEnq, execRqIsempty, execRqIsfull, execRqDeq, execSend, execGet,
      execHas] at h
  · simp only [execInit] at h
    split_ifs at h <;> cases h <;> rfl
  · exact hostOp_cfg h fun u hu => by cases hu; rfl
  · exact hostOp_cfg h fun u hu => by cases hu; rfl
  · refine hostOp_cfg h fun u hu => ?_
    split at hu <;> cases hu <;> rfl
  · exact hostOp_cfg h fun u hu => by cases hu; rfl
  · exact hostOp_cfg h fun u hu => by cases hu; rfl
  · refine hostOp_cfg h fun u hu => ?_
    split at hu <;> cases hu <;> rfl
  · refine hostOp_cfg h fun u hu => ?_
    split at hu
    · cases hu; rfl
    · exact trySend_cfg hu
  · exact hostOp_cfg h fun u hu => tryGet_cfg hu
  · exact hostOp_cfg h fun u hu => by cases hu; rfl
  · exact absurd h refuseWord_not_next
  · exact absurd h refuseWord_not_next

theorem beginMicro_cfg {w : Hcw} {i : Instr} (hi : decodeHcw w = .ok i) (h : beginMicro i s = .next t) :
    t.cfg = s.cfg := by
  rcases decodeHcw_host hi with rfl | rfl | rfl | ⟨a, b, c, rfl⟩ | rfl | rfl | rfl | ⟨a, b, c, rfl⟩ | rfl | rfl |
    ⟨a, b, rfl⟩ | ⟨a, b, rfl⟩ <;> simp only [beginMicro] at h <;> first
    | exact exec_host_cfg hi h
    | refine hostOp_cfg h fun u hu => ?_
      injection hu with hu
      subst hu
      first | rfl | (split <;> rfl)

@[simp] theorem enqAnswer_cfg (c : EnqCaller) (p : Packet) (b : Bool) (s : State) : (enqAnswer c p b s).cfg = s.cfg := by
  cases c <;> cases b <;> rfl

@[simp] theorem deqAnswer_cfg (c : DeqCaller) (r : Option Packet) (s : State) : (deqAnswer c r s).cfg = s.cfg := by
  cases c <;> cases r <;> rfl

theorem deqScanByte_cfg {c : DeqCaller} {i j : Nat} (h : deqScanByte c i j s = .ok t) : t.cfg = s.cfg := by
  unfold deqScanByte at h
  split at h <;> cases h
  rfl

theorem microStep_cfg {pick : Nat} (h : microStep pick s = .ok t) : t.cfg = s.cfg := by
  cases hh : s.host with
  | idle => simp only [microStep, hh] at h; cases h; rfl
  | sendHeld p => rw [microStep_sendHeld hh] at h; cases h; split <;> rfl
  | getHeld => rw [microStep_getHeld hh] at h; cases h; split <;> rfl
  | enqRead c p => rw [microStep_enqRead hh] at h; cases h; rfl
  | enqTest c p i j => rw [microStep_enqTest hh] at h; cases h; split <;> simp
  | enqBound c p j => rw [microStep_enqBound hh] at h; split at h <;> cases h; rfl
  | enqCopy c p j fs =>
    cases fs with
    | nil => rw [microStep_enqCopy_nil hh] at h; cases h; simp
    | cons f fs => rw [microStep_enqCopy_cons hh] at h; cases h; rfl
  | deqRead c => rw [microStep_deqRead hh] at h; cases h; rfl
  | deqTest c i j => rw [microStep_deqTest hh] at h; cases h; split <;> simp
  | deqScan c i j => rw [microStep_deqScan hh] at h; exact deqScanByte_cfg h
  | deqCopy c i fs acc =>
    cases fs with
    | nil => rw [microStep_deqCopy_nil hh] at h; cases h; simp
    | cons f fs => rw [microStep_deqCopy_cons hh] at h; cases h; rfl

/-- No turn writes a parameter. -/
theorem runTurn_cfg {u : Turn} (h : runTurn u s = .next t) : t.cfg = s.cfg := by
  cases u with
  | tick peers noise draw => exact tickTurn_cfg h
  | host =>
    rcases hostTurn_cases h with ⟨-, h⟩ | ⟨p, -, -, h⟩ | ⟨-, -, h⟩ | ⟨-, -, h⟩
    · rcases fetchHost_cases h with ⟨-, rfl⟩ | ⟨c, rest, i, -, hi, h⟩
      · rfl
      · exact exec_host_cfg (s := present c rest s) hi h
    · exact commit_cfg h fun _ => trySend_cfg
    · exact commit_cfg h fun _ => tryGet_cfg
    · exact commit_cfg h fun _ => microStep_cfg
  | micro pick =>
    rcases microTurn_cases h with ⟨-, h⟩ | ⟨-, -, h⟩
    · rcases fetchHost_cases h with ⟨-, rfl⟩ | ⟨c, rest, i, -, hi, h⟩
      · rfl
      · exact beginMicro_cfg (s := present c rest s) hi h
    · exact commit_cfg h fun _ => microStep_cfg

/-! ### A line of several blocks -/

theorem settle_cfg {o : Out} (h : ∀ t, o = .next t → t.cfg = s.cfg) : (settle s o).cfg = s.cfg := by
  cases o with
  | next t => exact h t rfl
  | fault x => rfl
  | refused r => rfl

/-- A line at power-on has its NODES blocks. -/
theorem Bus.wf_powerOn {c : Params} (h : c.legal = true) : (Bus.powerOn c).wf := by
  simp only [Params.legal, Bool.and_eq_true, decide_eq_true_eq] at h
  refine ⟨by simpa [Bus.powerOn] using h.1.2, ?_⟩
  intro s hs
  rw [List.eq_of_mem_replicate hs]
  simp [Bus.powerOn, State.powerOn]

/-- A global tick keeps a line well-formed. -/
theorem Bus.wf_globalTick {b : Bus} (h : b.wf) (noise draw : List Bool) : (b.globalTick noise draw).wf := by
  refine ⟨by simpa [Bus.globalTick] using h.1, ?_⟩
  intro s hs
  obtain ⟨i, hi, rfl⟩ := List.mem_mapIdx.1 hs
  rw [settle_cfg fun t => runTurn_cfg]
  simpa [Bus.globalTick] using h.2 _ (List.getElem_mem hi)

/-- A turn of one node's host keeps a line well-formed. -/
theorem Bus.wf_nodeTurn {b : Bus} (h : b.wf) (i : Nat) (u : Turn) : (b.nodeTurn i u).wf := by
  unfold Bus.nodeTurn
  split
  · exact h
  · rename_i s hs
    split
    · rename_i t ht
      refine ⟨by simpa using h.1, ?_⟩
      intro x hx
      rcases List.mem_or_eq_of_mem_set hx with hx | rfl
      · simpa using h.2 x hx
      · rw [runTurn_cfg ht]
        simpa using h.2 s (List.mem_of_getElem? hs)
    · exact h
    · exact h

end Sys2Proof.Machine
end

