-- ==== Sys2Proof/Laws/PerInstr.lean ====
section
/-! SUPPORT. Statements about every instruction, one lemma per constructor: a well-formed instruction's own word
matches the row of the opcode table that bears its mnemonic (30_encoding.md R92, R95, R96). -/

namespace Sys2Proof.Laws.EncodesItsRow

open Sys2Proof Sys2Proof.Machine

/-- The encoding of a well-formed instruction hits the row of its mnemonic. -/
def Statement (i : Instr) : Prop :=
  i.wf = true →
    match encode i with
    | .sel w => ∃ r ∈ tickRows, r.mnemonic = i.mnemonic ∧ r.hits w = true
    | .hcw w => ∃ r ∈ hostRows, r.mnemonic = i.mnemonic ∧ r.hits w = true

/-- The low four bits of a host command word are those of its OP field. -/
theorem and_append (rest : BitVec 16) (op : BitVec 4) (m : BitVec 4) :
    (rest ++ op : BitVec 20) &&& (0#16 ++ m : BitVec 20) = 0#16 ++ (op &&& m) := by
  ext i hi
  simp only [BitVec.getElem_and, BitVec.getElem_append]
  split <;> simp

theorem packetHcw_eq (op : BitVec 4) (snd dst : NodeId) (size : PayloadSize) :
    packetHcw op snd dst size = ((size ++ dst ++ snd : BitVec 16) ++ op : BitVec 20) := rfl

theorem rxHdr (line sqne : Bool) : Statement (.rxHdr line sqne) := fun _ =>
  ⟨⟨"RX_HDR", 0x20, 0x33⟩, by decide, rfl, by revert line sqne; decide⟩

theorem rxPay (line sqne : Bool) : Statement (.rxPay line sqne) := fun _ =>
  ⟨⟨"RX_PAY", 0x21, 0x33⟩, by decide, rfl, by revert line sqne; decide⟩

theorem rxPar (line sqne : Bool) : Statement (.rxPar line sqne) := fun _ =>
  ⟨⟨"RX_PAR", 0x22, 0x33⟩, by decide, rfl, by revert line sqne; decide⟩

theorem txHdr (line sqne : Bool) : Statement (.txHdr line sqne) := fun _ =>
  ⟨⟨"TX_HDR", 0x10, 0x33⟩, by decide, rfl, by revert line sqne; decide⟩

theorem txPay (line sqne : Bool) : Statement (.txPay line sqne) := fun _ =>
  ⟨⟨"TX_PAY", 0x11, 0x33⟩, by decide, rfl, by revert line sqne; decide⟩

theorem txPar (line sqne : Bool) : Statement (.txPar line sqne) := fun _ =>
  ⟨⟨"TX_PAR", 0x12, 0x33⟩, by decide, rfl, by revert line sqne; decide⟩

theorem txRel (line sqne : Bool) : Statement (.txRel line sqne) := fun _ =>
  ⟨⟨"TX_REL", 0x13, 0x33⟩, by decide, rfl, by revert line sqne; decide⟩

theorem idleRxstart (sqne : Bool) (ph : BitVec 2) : Statement (.idleRxstart sqne ph) := fun _ =>
  ⟨⟨"IDLE_RXSTART", 0x00, 0x38⟩, by decide, rfl, by revert sqne ph; decide⟩

theorem idleClaim (ph : BitVec 2) : Statement (.idleClaim ph) := fun _ =>
  ⟨⟨"IDLE_CLAIM", 0x0C, 0x3C⟩, by decide, rfl, by revert ph; decide⟩

theorem idleNop (ph : BitVec 2) : Statement (.idleNop ph) := fun _ =>
  ⟨⟨"IDLE_NOP", 0x08, 0x3C⟩, by decide, rfl, by revert ph; decide⟩

theorem reservedRxPh11 (line sqne : Bool) : Statement (.reservedRxPh11 line sqne) := fun _ =>
  ⟨⟨"RESERVED_RX_PH11", 0x23, 0x33⟩, by decide, rfl, by revert line sqne; decide⟩

theorem reservedMode11 (line sqne : Bool) (ph : BitVec 2) : Statement (.reservedMode11 line sqne ph) := fun _ =>
  ⟨⟨"RESERVED_MODE11", 0x30, 0x30⟩, by decide, rfl, by revert line sqne ph; decide⟩

theorem init : Statement .init := fun _ => ⟨⟨"INIT", 0x00000, 0xFFFFF⟩, by decide, rfl, by decide⟩

theorem sqIsempty : Statement .sqIsempty := fun _ => ⟨⟨"SQ_ISEMPTY", 0x00001, 0xFFFFF⟩, by decide, rfl, by decide⟩

theorem sqIsfull : Statement .sqIsfull := fun _ => ⟨⟨"SQ_ISFULL", 0x00002, 0xFFFFF⟩, by decide, rfl, by decide⟩

theorem sqEnq (snd dst : NodeId) (size : PayloadSize) : Statement (.sqEnq snd dst size) := fun _ =>
  ⟨⟨"SQ_ENQ", 0x00003, 0x0000F⟩, by decide, rfl, by
    rw [packetHcw_eq]
    exact beq_iff_eq.2 (and_append _ 3#4 0xF#4)⟩

theorem rqIsempty : Statement .rqIsempty := fun _ => ⟨⟨"RQ_ISEMPTY", 0x00004, 0xFFFFF⟩, by decide, rfl, by decide⟩

theorem rqIsfull : Statement .rqIsfull := fun _ => ⟨⟨"RQ_ISFULL", 0x00005, 0xFFFFF⟩, by decide, rfl, by decide⟩

theorem rqDeq : Statement .rqDeq := fun _ => ⟨⟨"RQ_DEQ", 0x00006, 0xFFFFF⟩, by decide, rfl, by decide⟩

theorem send (snd dst : NodeId) (size : PayloadSize) : Statement (.send snd dst size) := fun _ =>
  ⟨⟨"SEND", 0x00007, 0x0000F⟩, by decide, rfl, by
    rw [packetHcw_eq]
    exact beq_iff_eq.2 (and_append _ 7#4 0xF#4)⟩

theorem get : Statement .get := fun _ => ⟨⟨"GET", 0x00008, 0xFFFFF⟩, by decide, rfl, by decide⟩

theorem has : Statement .has := fun _ => ⟨⟨"HAS", 0x00009, 0xFFFFF⟩, by decide, rfl, by decide⟩

theorem reservedOpAB (op : BitVec 4) (rest : BitVec 16) : Statement (.reservedOpAB op rest) := fun h =>
  ⟨⟨"RESERVED_OP_A_B", 0x0000A, 0x0000E⟩, by decide, rfl, by
    have ho : ∀ op : BitVec 4, (op.toNat == 10 || op.toNat == 11) = true → 0#16 ++ (op &&& 0xE#4) = 0x0000A#20 := by
      decide
    exact beq_iff_eq.2 ((and_append rest op 0xE#4).trans (ho op h))⟩

theorem reservedOpCF (op : BitVec 4) (rest : BitVec 16) : Statement (.reservedOpCF op rest) := fun h =>
  ⟨⟨"RESERVED_OP_C_F", 0x0000C, 0x0000C⟩, by decide, rfl, by
    have ho : ∀ op : BitVec 4, decide (12 ≤ op.toNat) = true → 0#16 ++ (op &&& 0xC#4) = 0x0000C#20 := by decide
    exact beq_iff_eq.2 ((and_append rest op 0xC#4).trans (ho op h))⟩

end Sys2Proof.Laws.EncodesItsRow
end

