-- ==== Sys2Proof/Tests/Slice0.lean ====
section
/-! SUPPORT. The model's own tests: the refused ill-formed terms, decoding from written-out words, single steps against
the vectors of 95_test_vectors.md (each test names its vector), and a witness for every statement with hypotheses. -/

namespace Sys2Proof.Tests

open Sys2Proof Sys2Proof.Machine

set_option Elab.async false

/-! ### WellFormed refuses each ill-formed term -/

theorem test_wf_reserved_ab : (Instr.reservedOpAB 9#4 0#16).wf = false ∧ (Instr.reservedOpAB 12#4 0#16).wf = false := by
  decide

theorem test_wf_reserved_cf : (Instr.reservedOpCF 11#4 0#16).wf = false := by decide

theorem test_wf_packet_command : Command.wf ⟨0x03523#20, [0x68, 0x69]⟩ = false := by decide

theorem test_wf_plain_command : Command.wf ⟨0x00009#20, [0x00]⟩ = false := by decide

theorem test_wf_command_accepts : Command.wf ⟨0x03523#20, [0x68, 0x69, 0x00]⟩ = true := by decide

theorem test_legal_sqCap : Params.legal { Params.deployment with sqCap := 0 } = false := by decide

theorem test_legal_rqCap : Params.legal { Params.deployment with rqCap := 0 } = false := by decide

theorem test_legal_payload_low : Params.legal { Params.deployment with payloadCap := 127 } = false := by decide

theorem test_legal_payload_high : Params.legal { Params.deployment with payloadCap := 256 } = false := by decide

theorem test_legal_nodes : Params.legal { Params.deployment with nodes := 0 } = false := by decide

theorem test_legal_bidxW : Params.legal { Params.deployment with bidxW := 11 } = false := by decide

theorem test_legal_deployment : Params.deployment.legal = true := by decide

/-! ### Decoding every constructor from a written-out word (tables SEL and H) -/

theorem test_decode_X1 : decode (.sel 0x00#6) = .ok (.idleRxstart false 0#2) := by decide
theorem test_decode_X2 : decode (.sel 0x04#6) = .ok (.idleRxstart true 0#2) := by decide
theorem test_decode_X3 : decode (.sel 0x0C#6) = .ok (.idleClaim 0#2) := by decide
theorem test_decode_X4 : decode (.sel 0x08#6) = .ok (.idleNop 0#2) := by decide
theorem test_decode_X5 : decode (.sel 0x2C#6) = .ok (.rxHdr true true) := by decide
theorem test_decode_X6 : decode (.sel 0x21#6) = .ok (.rxPay false false) := by decide
theorem test_decode_X7 : decode (.sel 0x2A#6) = .ok (.rxPar true false) := by decide
theorem test_decode_X8 : decode (.sel 0x2F#6) = .ok (.reservedRxPh11 true true) := by decide
theorem test_decode_X9 : decode (.sel 0x14#6) = .ok (.txHdr false true) := by decide
theorem test_decode_X10 : decode (.sel 0x19#6) = .ok (.txPay true false) := by decide
theorem test_decode_X11 : decode (.sel 0x12#6) = .ok (.txPar false false) := by decide
theorem test_decode_X12 : decode (.sel 0x1F#6) = .ok (.txRel true true) := by decide
theorem test_decode_X13 : decode (.sel 0x30#6) = .ok (.reservedMode11 false false 0#2) := by decide
theorem test_decode_H1 : decode (.hcw 0x00000#20) = .ok .init := by decide
theorem test_decode_H2 : decode (.hcw 0x00001#20) = .ok .sqIsempty := by decide
theorem test_decode_H3 : decode (.hcw 0x00002#20) = .ok .sqIsfull := by decide
theorem test_decode_H4 : decode (.hcw 0x03523#20) = .ok (.sqEnq 2#4 5#4 3#8) := by decide
theorem test_decode_H6 : decode (.hcw 0xFFFF3#20) = .ok (.sqEnq 15#4 15#4 255#8) := by decide
theorem test_decode_H7 : decode (.hcw 0x00004#20) = .ok .rqIsempty := by decide
theorem test_decode_H8 : decode (.hcw 0x00005#20) = .ok .rqIsfull := by decide
theorem test_decode_H9 : decode (.hcw 0x00006#20) = .ok .rqDeq := by decide
theorem test_decode_H10 : decode (.hcw 0x06527#20) = .ok (.send 2#4 5#4 6#8) := by decide
theorem test_decode_H11 : decode (.hcw 0x01927#20) = .ok (.send 2#4 9#4 1#8) := by decide
theorem test_decode_H13 : decode (.hcw 0x00008#20) = .ok .get := by decide
theorem test_decode_H14 : decode (.hcw 0x00009#20) = .ok .has := by decide
theorem test_decode_H15 : decode (.hcw 0x0000A#20) = .ok (.reservedOpAB 0xA#4 0#16) := by decide
theorem test_decode_H16 : decode (.hcw 0x1234F#20) = .ok (.reservedOpCF 0xF#4 0x1234#16) := by decide
theorem test_decode_H17 : decode (.hcw 0x00019#20) = .error .reservedBits := by decide
theorem test_decode_H18 : decode (.hcw 0x01000#20) = .error .reservedBits := by decide

theorem test_table_word_tick : decodeTableWord 8 0x2A = some (.rxPar true false) := by decide
theorem test_table_word_host : decodeTableWord 24 0x06527 = some (.send 2#4 5#4 6#8) := by decide
theorem test_table_word_refused : decodeTableWord 24 0x00019 = none := by decide

/-! ### Small states -/

/-- The block after INIT. -/
def up : State := { State.reset with ready := true }

/-- A payload buffer of 128 bytes that begins with `bs`. -/
def bytes (bs : List Byte) : List Byte := bs ++ List.replicate (128 - bs.length) 0

/-- A slot buffer of 128 bytes that begins with `bs`, the rest undef. -/
def slotBytes (bs : List Byte) : List (Option Byte) := bs.map some ++ List.replicate (128 - bs.length) none

/-- The packet of S2 and F1. -/
def hiWp : WorkPacket := ⟨2, 5, 6, bytes [0x68, 0x69]⟩

/-- A slot that holds it. -/
def hiSlot : Slot := ⟨2, 5, 6, slotBytes [0x68, 0x69, 0, 0, 0, 0]⟩

/-- A queue of `cap` slots whose first holds `sl`, with `n` packets from slot 0 on. -/
def queueOf (cap n : Nat) (sl : Slot) : Queue := ⟨0, n, sl :: List.replicate (cap - 1) (freshSlot Params.deployment)⟩

/-- SQ holds `n` packets, the first in slot `sl`. -/
def sqHolds (n : Nat) (sl : Slot) : State := { up with sq := queueOf 3 n sl }

/-- RQ holds `n` packets, the first in slot `sl`. -/
def rqHolds (n : Nat) (sl : Slot) : State := { up with rq := queueOf 5 n sl }

/-- RECEIVING at frame index `i`. -/
def rxAt (i : Nat) (par : Bool) (w : WorkPacket) : State :=
  { up with mode := .receiving, bidx := i, par := par, wp := w }

/-- SENDING at frame index `i`. -/
def txAt (i : Nat) (par : Bool) (w : WorkPacket) : State :=
  { up with mode := .sending, bidx := i, par := par, wp := w, lineOe := true, lineOut := false }

/-- What can be compared of the state after an instruction. -/
def after (i : Instr) (s : State) : State := settle s (exec i s)

/-! ### Ticks (table E) -/

theorem test_E1_idle_nop : afterTick true up = up := by decide +kernel

theorem test_E2_idle_rxstart :
    (afterTick false (sqHolds 1 hiSlot)).mode = .receiving ∧ (afterTick false (sqHolds 1 hiSlot)).sq.head = 0 := by
  decide +kernel

theorem test_E3_idle_claim :
    (afterTick true (sqHolds 1 hiSlot)).drive = ⟨true, false⟩ ∧ (afterTick true (sqHolds 1 hiSlot)).wp = hiWp ∧
      (afterTick true (sqHolds 1 hiSlot)).sq.head = 1 := by
  decide +kernel

theorem test_E4_idle_claim_faults :
    afterTick true (sqHolds 1 ⟨1, 8, 0, slotBytes []⟩) = { sqHolds 1 ⟨1, 8, 0, slotBytes []⟩ with fault := 0x04 } := by
  decide +kernel

theorem test_E6_tx_hdr :
    (afterTick false (txAt 1 false hiWp)).lineOut = true ∧ (afterTick false (txAt 1 false hiWp)).par = true ∧
      (afterTick false (txAt 1 false hiWp)).bidx = 2 := by
  decide +kernel

theorem test_E7_tx_pay :
    (afterTick true (txAt 19 true hiWp)).lineOut = true ∧ (afterTick true (txAt 19 true hiWp)).par = false := by
  decide +kernel

theorem test_E8_tx_par :
    (afterTick true (txAt 64 false hiWp)).lineOut = true ∧ (afterTick true (txAt 64 false hiWp)).bidx = 65 := by
  decide +kernel

theorem test_E9_tx_par_size_zero :
    (afterTick true (txAt 16 true (zeroPacket 128))).lineOut = false ∧
      (afterTick true (txAt 16 true (zeroPacket 128))).bidx = 17 := by
  decide +kernel

theorem test_E10_tx_rel :
    (afterTick true (txAt 65 false hiWp)).lineOe = false ∧ (afterTick true (txAt 65 false hiWp)).mode = .idle ∧
      (afterTick true (txAt 65 false hiWp)).lineOut = false := by
  decide +kernel

theorem test_E11_rx_hdr :
    (afterTick true (rxAt 1 false (zeroPacket 128))).wp.snd = 2 ∧
      (afterTick true (rxAt 1 false (zeroPacket 128))).par = true := by
  decide +kernel

theorem test_E12_rx_hdr_size :
    (afterTick true (rxAt 10 false ⟨2, 5, 2, bytes []⟩)).wp.size = 6 ∧
      (afterTick true (rxAt 10 false ⟨2, 5, 2, bytes []⟩)).bidx = 11 := by
  decide +kernel

theorem test_E14_rx_pay :
    (afterTick true (rxAt 19 true ⟨2, 5, 6, bytes []⟩)).wp.pay.head? = some 0x08 ∧
      (afterTick true (rxAt 19 true ⟨2, 5, 6, bytes []⟩)).par = false := by
  decide +kernel

theorem test_E15_rx_par_accepts :
    (afterTick true (rxAt 64 false hiWp)).rq.tail = 1 ∧
      (afterTick true (rxAt 64 false hiWp)).rq.slots.head? = some hiSlot ∧
      (afterTick true (rxAt 64 false hiWp)).mode = .idle := by
  decide +kernel

theorem test_E17_rx_par_full :
    (afterTick true { rxAt 64 false hiWp with rq := queueOf 5 4 hiSlot }).rq = queueOf 5 4 hiSlot ∧
      (afterTick true { rxAt 64 false hiWp with rq := queueOf 5 4 hiSlot }).mode = .idle := by
  decide +kernel

theorem test_E19_rx_pay_overflow :
    afterTick true (rxAt 1040 false ⟨0, 0, 200, bytes []⟩) = { rxAt 1040 false ⟨0, 0, 200, bytes []⟩ with fault := 0x01 } := by
  decide +kernel

/-- R152, and R213's value of F_UNREACHABLE. -/
theorem test_reserved_receive : (afterTick true (rxAt 65 false hiWp)).fault = 0x20 := by decide +kernel

/-- R152. -/
theorem test_reserved_mode : (afterTick true { up with mode := .reserved }).fault = 0x20 := by decide +kernel

/-! ### Host operations (tables A and Q) -/

theorem test_A1_has_before_init : exec .has State.reset = .refused .preInit := rfl

theorem test_A2_init : (after .init State.reset).ready = true ∧ (after .init State.reset).lineOe = false := by
  decide +kernel

theorem test_A3_reinit : exec .init up = .refused .reinit := rfl

theorem test_A4_sq_isempty : (after .sqIsempty up).res = .bit true := by decide +kernel
theorem test_A4_sq_isfull : (after .sqIsfull up).res = .bit false := by decide +kernel
theorem test_A4_rq_isempty : (after .rqIsempty up).res = .bit true := by decide +kernel
theorem test_A4_rq_isfull : (after .rqIsfull up).res = .bit false := by decide +kernel
theorem test_A4_has : (after .has up).res = .bit false := by decide +kernel

/-- R183's example. -/
theorem test_sq_isfull_two : (after .sqIsfull (sqHolds 2 hiSlot)).res = .bit true := by decide +kernel

/-- R186's corner case. -/
theorem test_rq_isfull_four : (after .rqIsfull (rqHolds 4 hiSlot)).res = .bit true := by decide +kernel

theorem test_A5_sq_enq :
    (after (.sqEnq 2 5 3) { up with din := [0x68, 0x69, 0] }).sq = queueOf 3 1 ⟨2, 5, 3, slotBytes [0x68, 0x69, 0]⟩ := by
  decide +kernel

theorem test_Q10_sq_enq_full : (after (.sqEnq 2 5 129) (sqHolds 2 hiSlot)).res = .bit false := by decide +kernel

theorem test_A7_send_holds :
    (after (.send 2 5 3) { sqHolds 2 hiSlot with din := [0x68, 0x69, 0] }).host =
      .sendHeld ⟨2, 5, 3, slotBytes [0x68, 0x69, 0]⟩ := by
  decide +kernel

theorem test_A10_send_dropped : (after (.send 2 12 200) up).fault = 0 ∧ (after (.send 2 12 200) up).res = .done := by
  decide +kernel

theorem test_A11_rq_deq_empty : (after .rqDeq up).res = .dequeued none := by decide +kernel

theorem test_A13_rq_deq :
    (after .rqDeq (rqHolds 1 hiSlot)).res = .dequeued (some ⟨2, 5, 6, slotBytes [0x68, 0x69, 0]⟩) ∧
      (after .rqDeq (rqHolds 1 hiSlot)).rq.head = 1 := by
  decide +kernel

theorem test_A12_get_holds : (after .get up).host = .getHeld := by decide +kernel

/-- R189's example. -/
theorem test_get : (after .get (rqHolds 1 hiSlot)).res = .packet ⟨2, 5, 6, slotBytes [0x68, 0x69, 0]⟩ := by
  decide +kernel

theorem test_A14_reserved_op : exec (.reservedOpAB 0xA 0) up = .refused .reservedOp := rfl

theorem test_H16_reserved_op : exec (.reservedOpCF 0xF 0x1234) up = .refused .reservedOp := rfl

theorem test_A15_reserved_bits :
    step { up with program := [⟨0x00019#20, []⟩], agenda := [.host] } = .refused .reservedBits := rfl

theorem test_A16_stopped : exec .has { up with fault := 0x04 } = .fault .stopped := rfl

/-! ### Queues and the scan (table Q) -/

theorem test_Q13_scanLen : scanLen 128 ⟨0, 0, 0, List.replicate 127 (some 0xFF) ++ [some 0]⟩ = .ok 128 := by
  decide +kernel

theorem test_Q14_scanLen : scanLen 128 ⟨0, 0, 0, List.replicate 128 (some 0xFF)⟩ = .error .scanOvr := by decide +kernel

theorem test_Q16_scanLen : scanLen 128 ⟨0, 0, 0, slotBytes [0x11]⟩ = .error .scanUndef := by decide +kernel

theorem test_Q20_stale_bytes :
    (copyIn ⟨1, 1, 2, slotBytes [0x55, 0]⟩ ⟨9, 9, 4, slotBytes [0x41, 0x42, 0x43, 0]⟩).pay =
      slotBytes [0x55, 0, 0x43, 0] := by
  decide +kernel

/-! ### The line (table L) and the frame (table F) -/

theorem test_L_resolution :
    resolveLine [⟨false, false⟩] = .level true ∧ resolveLine [⟨true, false⟩, ⟨false, true⟩] = .level false ∧
      resolveLine [⟨true, true⟩] = .level true ∧ resolveLine [⟨true, false⟩, ⟨true, false⟩] = .level false ∧
      resolveLine [⟨true, false⟩, ⟨true, true⟩] = .contended := by
  decide

theorem test_L6_noise : sampleLine [⟨false, true⟩] true false = false := by decide

/-- R214 on a line: a refused operation changes no node, its mark stays after a later refusal, and NODES blocks stand on
the line from power-on. -/
theorem test_bus_refusal :
    let b := Bus.powerOn { Params.deployment with nodes := 2 }
    let c : Bus := { b with nodes := b.nodes.map fun s => { s with program := [⟨0x00009#20, []⟩] } }
    b.nodes.length = 2 ∧ (c.hostTurn 1).refused = some (1, .preInit) ∧ (c.hostTurn 1).nodes = c.nodes ∧
      ((c.hostTurn 1).hostTurn 0).refused = some (1, .preInit) := by
  decide +kernel

/-- F7: `1111 1111 10000000 11111111 0`. -/
theorem test_F7 :
    frame ⟨15, 15, 1, [0xFF]⟩ =
      [true, true, true, true, true, true, true, true, true, false, false, false, false, false, false, false,
       true, true, true, true, true, true, true, true, false] := by
  decide +kernel

/-! ### A placed word is what the next step runs -/

theorem test_fetch_tick :
    step (State.reset.withFetchWord 8 0x2A) =
      exec (.rxPar true false) (takeTurn (State.reset.withFetchWord 8 0x2A)) := rfl

theorem test_fetch_host :
    step (State.reset.withFetchWord 24 0x00009) =
      exec .has { takeTurn (State.reset.withFetchWord 24 0x00009) with program := [] } := rfl

/-! ### Witnesses: for each statement with hypotheses, operands and states that meet them, clause by clause -/

theorem inv_intro {s : State} (h : s.cfg.legal = true ∧ s.sq.wf s.cfg.payloadCap s.cfg.sqCap ∧
    s.rq.wf s.cfg.payloadCap s.cfg.rqCap ∧ s.bidx < 2 ^ s.cfg.bidxW ∧ EngineInv s ∧ hostInv s = true ∧
    (s.ready = false → s.mode = .idle ∧ s.host = .idle) ∧ s.fault &&& 0xC0#8 = 0#8) : Inv s :=
  ⟨h.1, h.2.1, h.2.2.1, h.2.2.2.1, h.2.2.2.2.1, h.2.2.2.2.2.1, h.2.2.2.2.2.2.1, h.2.2.2.2.2.2.2⟩

theorem inv_reset : Inv State.reset := inv_intro (by decide +kernel)

theorem inv_up : Inv up := inv_intro (by decide +kernel)

theorem inv_sqHolds_one : Inv (sqHolds 1 hiSlot) := inv_intro (by decide +kernel)

/-- A packet whose size is the whole buffer. -/
def fullWp : WorkPacket := ⟨15, 8, 128, List.replicate 128 0xA5⟩

/-- A slot without a terminator. -/
def endless : Slot := ⟨1, 2, 3, List.replicate 128 (some 0xFF)⟩

/-- A slot nothing has written. -/
def blank : Slot := ⟨1, 2, 0, slotBytes []⟩

theorem witness_EncodedInstructionDecodesBack :
    (Instr.reservedOpAB 0xB#4 0xFFFF#16).wf = true ∧ (Instr.reservedOpCF 0xC#4 0#16).wf = true ∧
      (Instr.sqEnq 15#4 15#4 255#8).wf = true ∧ (Instr.idleClaim 3#2).wf = true := by
  decide

theorem witness_DecodedWordIsItsEncoding :
    decode (.hcw 0xFFFF7#20) = .ok (.send 15#4 15#4 255#8) ∧ decode (.sel 0x3F#6) = .ok (.reservedMode11 true true 3#2) := by
  decide

theorem witness_FrameHasLengthAndOddParity :
    fullWp.size.toNat ≤ fullWp.pay.length ∧ (zeroPacket 0).size.toNat ≤ (zeroPacket 0).pay.length := by
  decide +kernel

theorem witness_FrameBitReadsFrame :
    fullWp.pay.length = 128 ∧ fullWp.size.toNat ≤ 128 ∧ 0 < 16 + 8 * fullWp.size.toNat ∧
      1039 < 16 + 8 * fullWp.size.toNat := by
  decide +kernel

theorem witness_SetFrameBitReadsBack : hiWp.pay.length = 128 ∧ 1039 < 16 + 8 * 128 ∧ 16 + 8 * 128 ≤ 1040 := by
  decide +kernel

/-- A contended tick that draws 1, and an uncontended one whose noise inverts the free line. -/
theorem witness_StepRunsSelectedArm :
    { up with agenda := [.tick [⟨true, true⟩, ⟨true, false⟩] false true] }.agenda =
      .tick [⟨true, true⟩, ⟨true, false⟩] false true :: [] ∧
      resolveLine (up.drive :: [⟨true, true⟩, ⟨true, false⟩]) = .contended ∧
      { up with agenda := [.tick [] true true] }.agenda = .tick [] true true :: [] ∧
      resolveLine (up.drive :: []) = .level true :=
  ⟨rfl, by decide, rfl, by decide⟩

/-- A host turn at which H presents `c`. -/
def presents (c : Command) (s : State) : State := { s with agenda := [.host], program := [c] }

theorem witness_StepRunsPresentedOperation :
    (presents ⟨0x00009#20, []⟩ up).agenda = .host :: [] ∧ (presents ⟨0x00009#20, []⟩ up).host = .idle ∧
      (presents ⟨0x00009#20, []⟩ up).program = ⟨0x00009#20, []⟩ :: [] ∧ decodeHcw 0x00009#20 = .ok .has := by
  decide +kernel

theorem witness_StepRefusesIllegalBits :
    (presents ⟨0x01000#20, []⟩ up).host = .idle ∧ decodeHcw 0x01000#20 = .error .reservedBits ∧
      (presents ⟨0x00019#20, []⟩ State.reset).host = .idle ∧ (presents ⟨0x00019#20, []⟩ State.reset).ready = false ∧
      decodeHcw 0x00019#20 = .error .reservedBits := by
  decide +kernel

/-- A turn refused on its own, after another, and on a line without and with a mark. -/
theorem witness_StepRefusesIllegalBits_kept :
    runTurns [.tick [] false false] (presents ⟨0x00019#20, []⟩ up) = .next (presents ⟨0x00019#20, []⟩ up) ∧
      runTurn .host (presents ⟨0x00019#20, []⟩ up) = .refused .reservedBits ∧
      (⟨[presents ⟨0x00019#20, []⟩ up], 0, none⟩ : Bus).nodes[0]? = some (presents ⟨0x00019#20, []⟩ up) ∧
      (⟨[up], 0, some (0, .reinit)⟩ : Bus).refused = some (0, .reinit) :=
  ⟨rfl, rfl, rfl, rfl⟩

/-- RX_HDR at the first and the last header bit. -/
theorem witness_RxHdrStoresHeaderBit :
    Ticking (rxAt 0 false hiWp) ∧ (rxAt 0 false hiWp).bidx < 16 ∧ Ticking (rxAt 15 true hiWp) ∧
      (rxAt 15 true hiWp).bidx < 16 := by
  decide +kernel

/-- RX_PAY at the first and the last bit of the buffer, and just past it. -/
theorem witness_RxPayStoresPayloadBitOrOverflows :
    Ticking (rxAt 16 false hiWp) ∧ (rxAt 16 false hiWp).wp.pay.length = (rxAt 16 false hiWp).cfg.payloadCap ∧
      16 ≤ (rxAt 16 false hiWp).bidx ∧ ((rxAt 16 false hiWp).bidx - 16) / 8 < 128 ∧
      ((rxAt 1039 false hiWp).bidx - 16) / 8 < 128 ∧ 128 ≤ ((rxAt 1040 false hiWp).bidx - 16) / 8 := by
  decide +kernel

/-- RX_PAR of the largest packet that fits, accepted, dropped by parity, and dropped by a full RQ. -/
theorem witness_RxParDeliversOrDrops :
    Ticking (rxAt 1040 false fullWp) ∧ (rxAt 1040 false fullWp).wp.size.toNat ≤ 128 ∧
      xor true (rxAt 1040 false fullWp).par = true ∧ xor false (rxAt 1040 false fullWp).par = false ∧
      (rxAt 1040 false fullWp).rq.isFull 5 = false ∧
      { rxAt 1040 false fullWp with rq := queueOf 5 4 hiSlot }.rq.isFull 5 = true := by
  decide +kernel

theorem witness_TxHdrDrivesHeaderBit :
    Ticking (txAt 0 false hiWp) ∧ (txAt 0 false hiWp).bidx < 16 ∧ (txAt 15 false hiWp).bidx < 16 := by
  decide +kernel

theorem witness_TxPayDrivesPayloadBit :
    Ticking (txAt 16 false fullWp) ∧ 16 ≤ (txAt 16 false fullWp).bidx ∧
      ((txAt 1039 false fullWp).bidx - 16) / 8 < 128 ∧
      ((txAt 1039 false fullWp).bidx - 16) / 8 < (txAt 1039 false fullWp).wp.pay.length ∧
      128 ≤ ((txAt 1040 false fullWp).bidx - 16) / 8 := by
  decide +kernel

/-- TX_PAR and TX_REL, IDLE_RXSTART, IDLE_NOP and the reserved arms ask only for a tick that reaches E. -/
theorem witness_Ticking : Ticking (txAt 64 false hiWp) ∧ Ticking (txAt 65 false hiWp) ∧ Ticking up := by decide +kernel

theorem witness_IdleClaimLoadsHeadPacketOrFaults :
    Ticking (sqHolds 1 hiSlot) ∧ (sqHolds 1 hiSlot).sq.head ≠ (sqHolds 1 hiSlot).sq.tail ∧
      scanSlot 128 ((sqHolds 1 hiSlot).sq.slotAt 0) = .ok [0x68, 0x69, 0] ∧
      scanSlot 128 ((sqHolds 1 blank).sq.slotAt 0) = .error .scanUndef ∧
      scanSlot 128 ((sqHolds 1 endless).sq.slotAt 0) = .error .scanOvr := by
  decide +kernel

theorem witness_TickNeedsReadyAndNoFault : State.reset.ready = false ∧ { up with fault := 0x20 }.fault ≠ 0#8 := by
  decide +kernel

theorem witness_InitBuildsBlock :
    State.reset.ready = false ∧ State.reset.fault = 0#8 ∧ State.reset.host = .idle ∧ State.reset.sq.slots.length = 3 := by
  decide +kernel

/-- A queue of one slot, and one of three that is full; every state that accepts an operation. -/
theorem witness_EmptyAndFullTests :
    Queue.wf 128 1 (freshQueue Params.deployment 1) ∧ Queue.wf 128 3 (queueOf 3 2 hiSlot) ∧
      (queueOf 3 2 hiSlot).isFull 3 = true ∧ Accepting up := by
  decide +kernel

theorem witness_HasReportsReceivedPacket :
    Accepting up ∧ Accepting (rqHolds 1 hiSlot) ∧ (rqHolds 1 hiSlot).rq.head ≠ (rqHolds 1 hiSlot).rq.tail := by
  decide +kernel

/-- SQ_ENQ and SEND: a full SQ, room for sizes 128 and 129, destinations 8 and 9. -/
theorem witness_SqEnqAndSend :
    Accepting up ∧ Accepting (sqHolds 2 hiSlot) ∧ (sqHolds 2 hiSlot).sq.isFull 3 = true ∧ up.sq.isFull 3 = false ∧
      up.cfg.payloadCap < (129#8).toNat ∧ (128#8).toNat ≤ up.cfg.payloadCap ∧ up.cfg.maxDest < (9#4).toNat ∧
      (8#4).toNat ≤ up.cfg.maxDest ∧ up.sq.tail < up.sq.slots.length := by
  decide +kernel

/-- RQ_DEQ and GET: an empty RQ, both faults of the scan, and a terminated packet. -/
theorem witness_RqDeqAndGet :
    Accepting up ∧ up.rq.head = up.rq.tail ∧ (rqHolds 1 hiSlot).rq.head ≠ (rqHolds 1 hiSlot).rq.tail ∧
      scanSlot 128 ((rqHolds 1 blank).rq.slotAt 0) = .error .scanUndef ∧
      scanSlot 128 ((rqHolds 1 endless).rq.slotAt 0) = .error .scanOvr ∧
      scanSlot 128 ((rqHolds 1 hiSlot).rq.slotAt 0) = .ok [0x68, 0x69, 0] ∧ Accepting (rqHolds 1 hiSlot) := by
  decide +kernel

theorem witness_OperationsOutOfBootOrderRefused :
    State.reset.ready = false ∧ decodeHcw 0x0000F#20 = .ok (.reservedOpCF 0xF#4 0#16) ∧ Accepting up := by
  decide +kernel

theorem witness_StoppedBlockRunsNoHostStep :
    up.ready = true ∧ { up with fault := 0x01 }.fault ≠ 0#8 ∧ decodeHcw 0x00009#20 = .ok .has ∧
      (hcwOp 0x00009#20).toNat < 10 ∧ { up with fault := 0x01, host := HostPhase.getHeld }.host ≠ .idle := by
  decide +kernel

/-- A packet of size 128 held by SEND. -/
def heldPacket : Packet := fullWp.toPacket

theorem witness_HeldOperationRetries :
    up.fault = 0#8 ∧ { sqHolds 2 hiSlot with host := .sendHeld heldPacket }.sq.isFull 3 = true ∧
      { up with host := .sendHeld heldPacket }.sq.isFull 3 = false ∧ heldPacket.size.toNat ≤ 128 ∧
      up.cfg.payloadCap < ({ heldPacket with size := 129#8 } : Packet).size.toNat ∧
      scanSlot 128 ((rqHolds 1 blank).rq.slotAt 0) = .error .scanUndef ∧
      scanSlot 128 ((rqHolds 1 endless).rq.slotAt 0) = .error .scanOvr ∧
      { up with host := HostPhase.getHeld }.rq.head = up.rq.tail ∧
      { rqHolds 1 hiSlot with host := HostPhase.getHeld }.rq.head ≠ (rqHolds 1 hiSlot).rq.tail ∧
      scanSlot 128 ((rqHolds 1 hiSlot).rq.slotAt 0) = .ok [0x68, 0x69, 0] := by
  decide +kernel

theorem witness_EnqueueCopiesPacket :
    Queue.wf 128 3 (queueOf 3 1 hiSlot) ∧ heldPacket.pay.length = 128 ∧ (queueOf 3 1 hiSlot).isFull 3 = false ∧
      heldPacket.size.toNat ≤ 128 := by
  decide +kernel

theorem witness_ScanStopsAtFirstZero : hiSlot.pay.length = 128 ∧ blank.pay.length = 128 ∧ endless.pay.length = 128 := by
  decide +kernel

theorem witness_QueueHoldsPacketsInOrder :
    Queue.wf 128 3 (queueOf 3 1 hiSlot) ∧
      ((queueOf 3 1 hiSlot).enqueue Params.deployment 3 heldPacket).toOption.any (·.isSome) = true ∧
      ((queueOf 3 1 hiSlot).dequeue Params.deployment 3 id (zeroPacket 128)).toOption.any (·.isSome) = true := by
  decide +kernel

theorem witness_QueueAcceptsUpToCapacity :
    Queue.wf 128 3 (queueOf 3 1 hiSlot) ∧ heldPacket.size.toNat ≤ 128 ∧ (queueOf 3 1 hiSlot).count 3 < 3 - 1 ∧
      Queue.wf 128 3 (queueOf 3 2 hiSlot) ∧ (queueOf 3 2 hiSlot).count 3 = 3 - 1 := by
  decide +kernel

/-- The packet of S2 in a fresh queue of three slots, accepted and returned up to its first 0x00. -/
theorem witness_QueueRunIsFifo :
    Queue.wf 128 3 (freshQueue Params.deployment 3) ∧ hiSlot.pay.length = 128 ∧
      runQueueOps Params.deployment 3 [.enq hiSlot, .deq] (freshQueue Params.deployment 3) =
        .ok ([hiSlot], [⟨2, 5, 6, slotBytes [0x68, 0x69, 0]⟩], { queueOf 3 1 hiSlot with head := 1 }) ∧
      2 < hiSlot.size.toNat ∧ hiSlot.pay[2]? = some (some 0#8) := by
  decide +kernel

theorem witness_PowerOnSatisfiesInvariant :
    Params.deployment.legal = true ∧ Params.legal { Params.deployment with payloadCap := 255 } = true ∧
      Params.legal { Params.deployment with sqCap := 1, rqCap := 1 } = true := by
  decide

theorem witness_StepKeepsInvariant :
    ∃ t, Inv { sqHolds 1 hiSlot with agenda := [.tick [] false false] } ∧
      step { sqHolds 1 hiSlot with agenda := [.tick [] false false] } = .next t :=
  ⟨_, inv_intro (by decide +kernel), rfl⟩

/-- The sender's last tick of the largest frame, at BIDX 2057. -/
theorem witness_BitIndexNeverWraps :
    let s : State := {
      State.powerOn { Params.deployment with payloadCap := 255 } with
      ready := true, mode := .sending, lineOe := true, bidx := 2057
      wp := { zeroPacket 255 with size := 255 } }
    Inv s ∧ ∃ t, tickAt true s = .next t :=
  ⟨inv_intro (by decide +kernel), _, rfl⟩

theorem witness_ModeTransitionGraph :
    (afterTick false up).fault = 0#8 ∧ (afterTick true (sqHolds 1 hiSlot)).fault = 0#8 ∧
      (afterTick true (rxAt 64 false hiWp)).fault = 0#8 ∧ (afterTick true (txAt 64 false hiWp)).fault = 0#8 ∧
      (afterTick true (txAt 65 false hiWp)).fault = 0#8 ∧ Ticking up ∧ (rxAt 64 false hiWp).mode ≠ .idle ∧
      (afterTick true (rxAt 64 false hiWp)).mode = .idle := by
  decide +kernel

/-- A tick and a step that answer a next state. -/
theorem witness_ticks_and_steps :
    (∃ t, tickAt true (txAt 64 false hiWp) = .next t) ∧ (∃ t, tickAt true (rxAt 64 false hiWp) = .next t) ∧
      ∃ t, step { up with agenda := [.host] } = .next t :=
  ⟨⟨_, rfl⟩, ⟨_, rfl⟩, _, rfl⟩

theorem witness_HostLeavesEngineSide :
    ∃ t, isTick .host = false ∧ up.ready = true ∧ hostInv (presents ⟨0x03523#20, [0x68, 0x69, 0]⟩ up) = true ∧
      runTurn .host (presents ⟨0x03523#20, [0x68, 0x69, 0]⟩ up) = .next t :=
  ⟨_, rfl, rfl, rfl, rfl⟩

/-- SQ_ENQ of 129 bytes raises a fault in an instruction, and in its step E3; so does the retry of a held SEND. -/
theorem witness_FaultCommitsNothingElse :
    (after (.sqEnq 2 5 129) up).fault ≠ up.fault ∧
      (settle up (microTurn 0 { up with host := .enqBound .sqEnq { heldPacket with size := 129 } 0 })).fault ≠ up.fault ∧
      (settle up (runTurn .host { up with host := .sendHeld { heldPacket with size := 129 } })).fault ≠ up.fault ∧
      { up with host := HostPhase.sendHeld { heldPacket with size := 129 } }.host ≠ .idle := by
  decide +kernel

theorem witness_QueueTestsStableOverTick :
    Queue.wf 128 3 (sqHolds 1 hiSlot).sq ∧ Queue.wf 128 5 (sqHolds 1 hiSlot).rq ∧
      (∃ t, tickAt true (sqHolds 1 hiSlot) = .next t) :=
  ⟨by decide +kernel, by decide +kernel, _, rfl⟩

/-- A claim that makes room in a full SQ, and an RX_PAR that ends an empty RQ. -/
theorem witness_HoldLiftedOnlyByItsArm :
    (sqHolds 2 hiSlot).sq.isFull 3 = true ∧ (afterTick true (sqHolds 2 hiSlot)).sq.isFull 3 = false ∧
      (rxAt 64 false hiWp).rq.isEmpty = true ∧ (afterTick true (rxAt 64 false hiWp)).rq.isEmpty = false := by
  decide +kernel

theorem witness_LineResolution :
    (∀ d ∈ ([⟨false, false⟩] : List Drive), d.oe = false) ∧
      (∃ d ∈ ([⟨true, false⟩, ⟨false, true⟩] : List Drive), d.oe = true) ∧
      (∀ d ∈ ([⟨true, false⟩, ⟨false, true⟩] : List Drive), d.oe = true → d.out = false) ∧
      (∃ d ∈ ([⟨true, false⟩, ⟨true, true⟩] : List Drive), d.oe = true ∧ d.out = true) ∧
      (∃ d ∈ ([⟨true, false⟩, ⟨true, true⟩] : List Drive), d.oe = true ∧ d.out = false) := by
  decide

/-- The sender of S2, with the samples of its first bit, its last bit and its release. -/
theorem witness_SenderDrivesItsFrame :
    Inv (sqHolds 1 hiSlot) ∧ Ticking (sqHolds 1 hiSlot) ∧ (sqHolds 1 hiSlot).mode = .idle ∧
      (sqHolds 1 hiSlot).sq.dequeue Params.deployment 3 id (zeroPacket 128) =
        .ok (some (hiWp, { queueOf 3 1 hiSlot with head := 1 })) ∧
      ([] : List Bool).length < frameLength 6 ∧ (List.replicate 64 true).length < frameLength 6 ∧
      (List.replicate 66 true).length = frameLength 6 + 1 :=
  ⟨inv_sqHolds_one, by decide +kernel, rfl, by decide +kernel, by decide, by decide, by decide⟩

theorem witness_ReceiverDeliversFrame :
    Inv up ∧ Ticking up ∧ up.mode = .idle ∧ fullWp.pay.length = up.cfg.payloadCap ∧
      fullWp.size.toNat ≤ up.cfg.payloadCap :=
  ⟨inv_up, by decide, rfl, by decide +kernel, by decide +kernel⟩

/-- The first and last frame index of each range the single-bit-error law covers, in the frame of S2. -/
theorem witness_SingleBitErrorIsDiscarded :
    Inv up ∧ hiWp.pay.length = up.cfg.payloadCap ∧ hiWp.size.toNat ≤ up.cfg.payloadCap ∧
      (∀ i ∈ [0, 7, 16, 64], i < frameLength hiWp.size.toNat ∧ (i < 8 ∨ 16 ≤ i)) :=
  ⟨inv_up, by decide +kernel, by decide +kernel, by decide +kernel⟩

theorem witness_BusDeliversToEveryListener :
    Inv (sqHolds 1 hiSlot) ∧ Ticking (sqHolds 1 hiSlot) ∧ (sqHolds 1 hiSlot).mode = .idle ∧
      (sqHolds 1 hiSlot).sq.dequeue Params.deployment 3 id (zeroPacket 128) =
        .ok (some (hiWp, { queueOf 3 1 hiSlot with head := 1 })) ∧
      ∀ r ∈ [up] ++ [up], Inv r ∧ Ticking r ∧ r.mode = .idle ∧ r.sq.head = r.sq.tail ∧
        hiWp.size.toNat ≤ r.cfg.payloadCap := by
  refine ⟨inv_sqHolds_one, by decide +kernel, rfl, by decide +kernel, ?_⟩
  have h : Inv up ∧ Ticking up ∧ up.mode = .idle ∧ up.sq.head = up.sq.tail ∧ hiWp.size.toNat ≤ up.cfg.payloadCap :=
    ⟨inv_up, by decide, rfl, by decide +kernel, by decide +kernel⟩
  intro r hr
  simp only [List.cons_append, List.nil_append, List.mem_cons, List.not_mem_nil, or_false, or_self] at hr
  exact hr ▸ h

/-- Whether an outcome is a next state that passes a test. -/
def nextIs (o : Out) (p : State → Bool) : Bool :=
  match o with
  | .next t => p t
  | .fault _ => false
  | .refused _ => false

/-- Whether turns take an operation from its start to its end in micro-steps, with no fault. -/
def runsToEnd (s : State) (i : Instr) (ts : List Turn) : Bool :=
  ts.all (fun t => isTick t || isMicro t) &&
    (List.range ts.length).all (fun k =>
      nextIs (andThen (beginMicro i s) (runTurns (ts.take k))) fun u => !u.host.isIdle) &&
    nextIs (andThen (beginMicro i s) (runTurns ts)) fun u => u.host.isIdle && u.fault == 0#8

/-- SQ_ENQ of one byte, a tick between its steps E3 and E4; SEND to a destination that is dropped; RQ_DEQ of an empty
queue; GET of a packet of one byte. -/
theorem witness_MicroStepsLinearise :
    Inv { up with din := [0] } ∧ Accepting { up with din := [0] } ∧
      runsToEnd { up with din := [0] } (.sqEnq 2 5 1)
        (List.replicate 3 (.micro 1) ++ .tick [] false false :: List.replicate 5 (.micro 1)) = true ∧
      runsToEnd up (.send 2 9 1) [] = true ∧ runsToEnd up .rqDeq [.micro 0, .tick [] false false, .micro 0] = true ∧
      Inv (rqHolds 1 ⟨1, 2, 1, slotBytes [0]⟩) ∧
      runsToEnd (rqHolds 1 ⟨1, 2, 1, slotBytes [0]⟩) .get (List.replicate 9 (.micro 0)) = true :=
  ⟨inv_intro (by decide +kernel), by decide, by decide +kernel, by decide +kernel, by decide +kernel,
    inv_intro (by decide +kernel), by decide +kernel⟩

end Sys2Proof.Tests
end

section
/-! SUPPORT. The writes of a tick and of a host turn, each said once as a relation between the state before and after:
every frame statement is one case analysis over it. -/

namespace Sys2Proof.Machine

open Sys2Proof

variable {s t : State}

/-! ### The queues after an accepted operation -/

/-- An accepted enqueue writes the slot at `tail` and advances `tail`. -/
theorem Queue.enqueue_some {c : Params} {cap : Nat} {q q' : Queue} {p : Packet}
    (h : q.enqueue c cap p = .ok (some q')) :
    q' = { q with slots := q.slots.set q.tail (copyIn p (q.slotAt q.tail)), tail := nextIndex cap q.tail } := by
  rcases q.enqueue_cases c cap p with ⟨-, e⟩ | ⟨-, -, e⟩ | ⟨-, -, e⟩ <;> rw [e] at h <;> cases h
  rfl

/-- An answered dequeue advances `head` and writes nothing else of the queue. -/
theorem Queue.dequeue_some {α : Type} {c : Params} {cap : Nat} {q q' : Queue} {f : Byte → α} {d p : PacketOf α}
    (h : q.dequeue c cap f d = .ok (some (p, q'))) : q' = { q with head := nextIndex cap q.head } := by
  rcases q.dequeue_cases c cap f d with ⟨-, e⟩ | ⟨_, -, -, e⟩ | ⟨_, -, -, e⟩ <;> rw [e] at h <;> cases h
  rfl

/-! ### A tick (41_engine.md R140 to R152) -/

/-- What one tick that samples `line` makes of a state: one constructor per kind of write, with the guard it stands
under. -/
inductive TickWrite (line : Bool) (s : State) : State → Prop
  /-- No tick reaches E (R140, R216). -/
  | gated : ¬ Ticking s → TickWrite line s s
  /-- The arm raised a fault and committed nothing else (R212). -/
  | raised (c : FaultCode) : Ticking s → armEffect line s = .error c → TickWrite line s (raise c s)
  /-- RX_HDR, RX_PAY (R142, R143). -/
  | storeBit (p : WorkPacket) : Ticking s → s.mode = .receiving → s.bidx < 16 + 8 * s.wp.size.toNat →
      setFrameBit s.cfg.payloadCap s.wp s.bidx line = .ok p →
      TickWrite line s { s with wp := p, par := parityAdd s.par line, bidx := nextBit s.cfg.bidxW s.bidx }
  /-- RX_PAR drops the packet: wrong parity or a full RQ (R144). -/
  | dropPacket : Ticking s → s.mode = .receiving → s.bidx = 16 + 8 * s.wp.size.toNat → TickWrite line s (toIdle s)
  /-- RX_PAR delivers the packet (R144). -/
  | deliverPacket (q : Queue) : Ticking s → s.mode = .receiving → s.bidx = 16 + 8 * s.wp.size.toNat →
      parityPasses s.par line = true → s.rq.enqueue s.cfg s.cfg.rqCap s.wp.toPacket = .ok (some q) →
      TickWrite line s (toIdle { s with rq := q })
  /-- TX_HDR, TX_PAY (R145, R146). -/
  | driveBit (b : Bool) : Ticking s → s.mode = .sending → s.bidx < 16 + 8 * s.wp.size.toNat →
      frameBit s.cfg.payloadCap s.wp s.bidx = .ok b →
      TickWrite line s { s with lineOut := b, par := parityAdd s.par b, bidx := nextBit s.cfg.bidxW s.bidx }
  /-- TX_PAR (R147). -/
  | driveParity : Ticking s → s.mode = .sending → s.bidx = 16 + 8 * s.wp.size.toNat →
      TickWrite line s { s with lineOut := parityBit s.par, bidx := nextBit s.cfg.bidxW s.bidx }
  /-- TX_REL (R148). -/
  | release : Ticking s → s.mode = .sending → 16 + 8 * s.wp.size.toNat < s.bidx →
      TickWrite line s (toIdle { s with lineOe := false })
  /-- IDLE_RXSTART (R149). -/
  | startReceive : Ticking s → s.mode = .idle → line = false →
      TickWrite line s { s with mode := .receiving, wp := zeroPacket s.cfg.payloadCap, bidx := 0, par := false }
  /-- IDLE_NOP (R151). -/
  | nop : Ticking s → s.mode = .idle → line = true → s.sq.isEmpty = true → TickWrite line s s
  /-- IDLE_CLAIM (R150). -/
  | claim (p : WorkPacket) (q : Queue) : Ticking s → s.mode = .idle → line = true →
      s.sq.dequeue s.cfg s.cfg.sqCap id s.wp = .ok (some (p, q)) →
      TickWrite line s
        { s with lineOe := true, lineOut := false, sq := q, wp := p, mode := .sending, bidx := 0, par := false }

/-- The writes of an arm that does not fault. -/
theorem armEffect_write {line : Bool} (ht : Ticking s) (h : armEffect line s = .ok t) : TickWrite line s t := by
  have storeBit_write (hm : s.mode = .receiving) (hb : s.bidx < 16 + 8 * s.wp.size.toNat)
      (h : storeDataBit line s = .ok t) : TickWrite line s t := by
    obtain ⟨p, hp, rfl⟩ := storeDataBit_ok h
    exact .storeBit p ht hm hb hp
  unfold armEffect at h
  split at h
  case h_1 hm =>
    split_ifs at h with hhdr hpay _ hpar
    · exact storeBit_write hm (by omega) h
    · exact storeBit_write hm hpay h
    · rcases rxPar_ok h with rfl | ⟨q, hp, hq, rfl⟩
      · exact .dropPacket ht hm hpar
      · exact .deliverPacket q ht hm hpar hp hq
  case h_2 hm =>
    split_ifs at h with hdata hpar
    · obtain ⟨b, hb, rfl⟩ := driveDataBit_ok h
      exact .driveBit b ht hm hdata hb
    · cases h
      exact .driveParity ht hm hpar
    · cases h
      exact .release ht hm (by omega)
  case h_3 hm =>
    split_ifs at h with hl he
    · cases h
      exact .startReceive ht hm hl
    · cases h
      exact .nop ht hm (by simpa using hl) he
    · obtain ⟨p, q, hq, rfl⟩ := idleClaim_ok h
      exact .claim p q ht hm (by simpa using hl) hq
  case h_4 => cases h

/-- Every tick is one of these writes. -/
theorem tickAt_write {line : Bool} (h : tickAt line s = .next t) : TickWrite line s t := by
  rcases tickAt_cases h with ⟨hg, rfl⟩ | ⟨ht, h⟩ | ⟨ht, c, he, rfl⟩
  · exact .gated hg
  · exact armEffect_write ht h
  · exact .raised c ht he

/-- A tick writes no parameter, no port, nothing of H's, not READY and not the CONTENTION mark. -/
theorem TickWrite.keeps_host_fields {line : Bool} (h : TickWrite line s t) :
    t.cfg = s.cfg ∧ t.ready = s.ready ∧ t.res = s.res ∧ t.din = s.din ∧ t.host = s.host ∧ t.program = s.program ∧
      t.contention = s.contention := by
  cases h <;> exact ⟨rfl, rfl, rfl, rfl, rfl, rfl, rfl⟩

/-- Of SQ a tick writes `head` alone, and only by IDLE_CLAIM. -/
theorem TickWrite.sq_eq {line : Bool} (h : TickWrite line s t) :
    t.sq = s.sq ∨ t.sq = { s.sq with head := nextIndex s.cfg.sqCap s.sq.head } := by
  cases h with
  | claim p q _ _ _ hq => exact .inr (Queue.dequeue_some hq)
  | _ => exact .inl rfl

/-- Of RQ a tick writes the slot at `tail` and `tail`, and only by an RX_PAR that delivers. -/
theorem TickWrite.rq_eq {line : Bool} (h : TickWrite line s t) :
    t.rq = s.rq ∨ t.rq = { s.rq with
      slots := s.rq.slots.set s.rq.tail (copyIn s.wp.toPacket (s.rq.slotAt s.rq.tail))
      tail := nextIndex s.cfg.rqCap s.rq.tail } := by
  cases h with
  | deliverPacket q _ _ _ _ hq => exact .inr (Queue.enqueue_some hq)
  | _ => exact .inl rfl

/-- A raised code adds its bit to FAULT. -/
theorem fault_and_raise (c : FaultCode) (s : State) : s.fault &&& (raise c s).fault = s.fault := by
  ext i hi
  simp only [raise_fault, BitVec.getElem_and, BitVec.getElem_or]
  cases s.fault[i] <;> rfl

/-- A tick clears no FAULT bit. -/
theorem TickWrite.fault_sticky {line : Bool} (h : TickWrite line s t) : s.fault &&& t.fault = s.fault := by
  cases h with
  | raised c => exact fault_and_raise c s
  | _ => exact BitVec.and_self

/-! ### BIDX (41_engine.md R158) -/

/-- The last index of a frame in the engine's modes, for the largest size, is 2057. -/
theorem Inv.bidx_le (h : Inv s) : s.bidx ≤ 2057 := by
  obtain ⟨-, hmode, hidle, hsend, hrecv⟩ := h.engine
  have hsize : s.wp.size.toNat < 256 := s.wp.size.isLt
  cases hm : s.mode with
  | idle => obtain ⟨hb, -⟩ := hidle hm; omega
  | sending => obtain ⟨-, -, hb, -⟩ := hsend hm; omega
  | receiving => obtain ⟨-, hb, -⟩ := hrecv hm; omega
  | reserved => exact absurd hm hmode

/-- Inside a frame the next bit index is the successor and stays within 2057. -/
theorem nextBit_in_frame (hl : s.cfg.legal = true) (hb : s.bidx ≤ 16 + 8 * s.wp.size.toNat) :
    nextBit s.cfg.bidxW s.bidx = s.bidx + 1 ∧ s.bidx + 1 ≤ 2057 := by
  have hsize : s.wp.size.toNat < 256 := s.wp.size.isLt
  have hwidth := bidxW_of_legal hl
  exact ⟨nextBit_of_lt (by omega), by omega⟩

/-- A tick leaves BIDX, advances it inside the frame, or resets it. -/
theorem TickWrite.bidx_cases {line : Bool} (h : TickWrite line s t) :
    t.bidx = s.bidx ∨ t.bidx = 0 ∨
      (s.bidx ≤ 16 + 8 * s.wp.size.toNat ∧ t.bidx = nextBit s.cfg.bidxW s.bidx) := by
  cases h with
  | gated | raised | nop => exact .inl rfl
  | dropPacket | deliverPacket | release | startReceive | claim => exact .inr (.inl rfl)
  | storeBit p _ _ hb => exact .inr (.inr ⟨by omega, rfl⟩)
  | driveBit b _ _ hb => exact .inr (.inr ⟨by omega, rfl⟩)
  | driveParity _ _ hb => exact .inr (.inr ⟨by omega, rfl⟩)

end Sys2Proof.Machine
end

section
/-! SUPPORT. The writes of a host turn, whole or in micro-steps, as a relation between the state before and after. -/

namespace Sys2Proof.Machine

open Sys2Proof

variable {s t : State}

/-! ### H's own side of the state -/

/-- What H writes beside the block: the ports RES and DIN (30_encoding.md R94), its hidden state (R35), its program. -/
structure HostSide where
  res : Result
  din : List Byte
  host : HostPhase
  program : List Command

/-- A state with H's own side as `x` says. -/
def State.withHostSide (s : State) (x : HostSide) : State :=
  { s with res := x.res, din := x.din, host := x.host, program := x.program }

/-! ### A host turn (42_link_api.md R181 to R190, 40_queue.md R117, R118) -/

/-- What one host turn or micro turn makes of a state: one constructor per kind of write to the block, each beside any
write to H's own side. -/
inductive HostWrite (s : State) : State → Prop
  /-- Nothing of the block: a query, a hold, a refused enqueue, a step of H alone. -/
  | own (x : HostSide) : HostWrite s (s.withHostSide x)
  /-- A fault and no other write to the block (60_exceptions.md R212). -/
  | raised (c : FaultCode) (x : HostSide) : HostWrite s ((raise c s).withHostSide x)
  /-- INIT, once per block (R181). -/
  | init (x : HostSide) : s.ready = false → HostWrite s ((initBlock s).withHostSide x)
  /-- An enqueue accepted whole (R184, R188). -/
  | enqueue (p : Packet) (q : Queue) (x : HostSide) : s.sq.enqueue s.cfg s.cfg.sqCap p = .ok (some q) →
      HostWrite s ({ s with sq := q }.withHostSide x)
  /-- E4: one access unit of SQ's slot `i`, which is the one at `tail` under the host invariant. -/
  | slotWrite (i : Nat) (sl : Slot) (x : HostSide) : (hostInv s = true → i = s.sq.tail) →
      HostWrite s ({ s with sq := { s.sq with slots := s.sq.slots.set i sl } }.withHostSide x)
  /-- E5: SQ's `tail` is published. -/
  | publishTail (i : Nat) (x : HostSide) :
      HostWrite s ({ s with sq := { s.sq with tail := nextIndex s.cfg.sqCap i } }.withHostSide x)
  /-- A dequeue whole, or Q5: RQ's `head` is published. -/
  | publishHead (i : Nat) (x : HostSide) :
      HostWrite s ({ s with rq := { s.rq with head := nextIndex s.cfg.rqCap i } }.withHostSide x)

/-- Presenting a command writes H's own side only, so what follows is a write of the same kind from before it. -/
theorem HostWrite.of_present {c : Command} {rest : List Command} (h : HostWrite (present c rest s) t) :
    HostWrite s t := by
  cases h with
  | own x => exact .own x
  | raised c x => exact .raised c x
  | init x hr => exact .init x hr
  | enqueue p q x hq => exact .enqueue p q x hq
  | slotWrite i sl x hi => exact .slotWrite i sl x hi
  | publishTail i x => exact .publishTail i x
  | publishHead i x => exact .publishHead i x

/-! ### Shared operations -/

theorem hostWrite_refl (s : State) : HostWrite s s := .own ⟨_, _, _, _⟩

theorem hostWrite_finish (r : Result) (s : State) : HostWrite s (finish r s) := .own ⟨_, _, _, _⟩

theorem hostWrite_hold (h : HostPhase) (s : State) : HostWrite s (hold h s) := .own ⟨_, _, _, _⟩

/-- A step of H alone: only its hidden state moves on. -/
theorem hostWrite_phase (h : HostPhase) (s : State) : HostWrite s { s with host := h } := .own ⟨_, _, _, _⟩

theorem commit_hostWrite {r : Except FaultCode State} (h : commit s r = t) (hr : ∀ u, r = .ok u → HostWrite s u) :
    HostWrite s t := by
  rcases commit_cases h with h | ⟨c, -, rfl⟩
  · exact hr t h
  · exact .raised c ⟨_, _, _, _⟩

theorem hostOp_hostWrite {run : State → Except FaultCode State} (h : hostOp s run = .next t)
    (hr : ∀ u, run s = .ok u → HostWrite s u) : HostWrite s t := by
  obtain ⟨-, -, ⟨-, rfl⟩ | ⟨-, h⟩⟩ := hostOp_cases h
  · exact hostWrite_refl _
  · exact commit_hostWrite h hr

/-- An operation that only answers on RES. -/
theorem hostOp_answer_hostWrite {r : State → Result} (h : hostOp s (fun s => .ok (finish (r s) s)) = .next t) :
    HostWrite s t :=
  hostOp_hostWrite h fun u hu => by
    cases hu
    exact hostWrite_finish _ s

theorem trySend_hostWrite {p : Packet} (h : trySend p s = .ok t) : HostWrite s t := by
  rcases trySend_ok h with ⟨-, rfl⟩ | ⟨q, hq, rfl⟩
  · exact hostWrite_hold _ s
  · exact .enqueue p q ⟨_, _, _, _⟩ hq

theorem tryGet_hostWrite (h : tryGet s = .ok t) : HostWrite s t := by
  rcases tryGet_ok h with ⟨-, rfl⟩ | ⟨p, q, hq, rfl⟩
  · exact hostWrite_hold _ s
  · rw [Queue.dequeue_some hq]
    exact .publishHead s.rq.head ⟨_, _, _, _⟩

/-! ### Whole operations -/

theorem execInit_hostWrite (h : execInit s = .next t) : HostWrite s t := by
  unfold execInit at h
  split_ifs at h with _ _ hr
  · cases h
    exact hostWrite_refl s
  · cases h
    exact .init ⟨_, _, _, _⟩ (by simpa using hr)

theorem execSqEnq_hostWrite {snd dst : NodeId} {size : PayloadSize} (h : execSqEnq snd dst size s = .next t) :
    HostWrite s t :=
  hostOp_hostWrite h fun u hu => by
    split at hu <;> cases hu
    · exact hostWrite_finish _ s
    · rename_i q hq
      exact .enqueue _ q ⟨_, _, _, _⟩ hq

theorem execRqDeq_hostWrite (h : execRqDeq s = .next t) : HostWrite s t :=
  hostOp_hostWrite h fun u hu => by
    split at hu <;> cases hu
    · exact hostWrite_finish _ s
    · rename_i p q hq
      rw [Queue.dequeue_some hq]
      exact .publishHead s.rq.head ⟨_, _, _, _⟩

theorem execSend_hostWrite {snd dst : NodeId} {size : PayloadSize} (h : execSend snd dst size s = .next t) :
    HostWrite s t :=
  hostOp_hostWrite h fun u hu => by
    split at hu
    · cases hu
      exact hostWrite_finish _ s
    · exact trySend_hostWrite hu

/-- Every operation that a host command word decodes to. -/
theorem exec_hostWrite {w : Hcw} {i : Instr} (hi : decodeHcw w = .ok i) (h : exec i s = .next t) : HostWrite s t := by
  rcases decodeHcw_host hi with rfl | rfl | rfl | ⟨a, b, c, rfl⟩ | rfl | rfl | rfl | ⟨a, b, c, rfl⟩ | rfl | rfl |
    ⟨a, b, rfl⟩ | ⟨a, b, rfl⟩
  · exact execInit_hostWrite h
  · exact hostOp_answer_hostWrite (r := fun s => .bit s.sq.isEmpty) h
  · exact hostOp_answer_hostWrite (r := fun s => .bit (s.sq.isFull s.cfg.sqCap)) h
  · exact execSqEnq_hostWrite h
  · exact hostOp_answer_hostWrite (r := fun s => .bit s.rq.isEmpty) h
  · exact hostOp_answer_hostWrite (r := fun s => .bit (s.rq.isFull s.cfg.rqCap)) h
  · exact execRqDeq_hostWrite h
  · exact execSend_hostWrite h
  · exact hostOp_hostWrite h fun u => tryGet_hostWrite
  · exact hostOp_answer_hostWrite (r := fun s => .bit (!s.rq.isEmpty)) h
  · exact absurd h refuseWord_not_next
  · exact absurd h refuseWord_not_next

/-! ### Micro-steps -/

/-- The start of an operation in micro-steps writes H's own side, or is the operation whole. -/
theorem beginMicro_hostWrite {w : Hcw} {i : Instr} (hi : decodeHcw w = .ok i) (h : beginMicro i s = .next t) :
    HostWrite s t := by
  unfold beginMicro at h
  split at h
  case h_1 =>
    exact hostOp_hostWrite h fun u hu => by cases hu; exact hostWrite_hold _ s
  case h_2 =>
    refine hostOp_hostWrite h fun u hu => ?_
    cases hu
    split
    · exact hostWrite_finish _ s
    · exact hostWrite_hold _ s
  case h_3 =>
    exact hostOp_hostWrite h fun u hu => by cases hu; exact hostWrite_hold _ s
  case h_4 =>
    exact hostOp_hostWrite h fun u hu => by cases hu; exact hostWrite_hold _ s
  all_goals exact exec_hostWrite hi h

/-- The answer of a host enqueue writes H's own side only. -/
theorem enqAnswer_eq (c : EnqCaller) (p : Packet) (b : Bool) (s : State) :
    ∃ x, enqAnswer c p b s = s.withHostSide x := by
  cases c with
  | sqEnq => exact ⟨⟨_, _, _, _⟩, rfl⟩
  | send => cases b <;> exact ⟨⟨_, _, _, _⟩, rfl⟩

/-- The answer of a host dequeue writes H's own side only. -/
theorem deqAnswer_eq (c : DeqCaller) (r : Option Packet) (s : State) : ∃ x, deqAnswer c r s = s.withHostSide x := by
  cases c with
  | rqDeq => exact ⟨⟨_, _, _, _⟩, rfl⟩
  | get => cases r <;> exact ⟨⟨_, _, _, _⟩, rfl⟩

/-- In E4 H owns the slot at SQ's tail. -/
theorem enqCopy_index {c : EnqCaller} {p : Packet} {j : Nat} {fs : List SlotField} (h : s.host = .enqCopy c p j fs)
    (hi : hostInv s = true) : j = s.sq.tail := by
  simp only [hostInv, h, Bool.and_eq_true, beq_iff_eq] at hi
  exact hi.1.2

theorem deqScanByte_hostWrite {c : DeqCaller} {i j : Nat} (h : deqScanByte c i j s = .ok t) : HostWrite s t := by
  unfold deqScanByte at h
  split at h <;> cases h
  exact hostWrite_phase _ s

theorem microStep_hostWrite {pick : Nat} (h : microStep pick s = .ok t) : HostWrite s t := by
  cases hh : s.host with
  | idle =>
    simp only [microStep, hh] at h
    cases h
    exact hostWrite_refl s
  | sendHeld p =>
    rw [microStep_sendHeld hh] at h
    cases h
    split
    · exact hostWrite_refl s
    · exact hostWrite_phase _ s
  | getHeld =>
    rw [microStep_getHeld hh] at h
    cases h
    split
    · exact hostWrite_refl s
    · exact hostWrite_phase _ s
  | enqRead c p =>
    rw [microStep_enqRead hh] at h
    cases h
    exact hostWrite_phase _ s
  | enqTest c p i j =>
    rw [microStep_enqTest hh] at h
    cases h
    split
    · obtain ⟨x, hx⟩ := enqAnswer_eq c p false s
      exact hx ▸ .own x
    · exact hostWrite_phase _ s
  | enqBound c p j =>
    rw [microStep_enqBound hh] at h
    split at h <;> cases h
    exact hostWrite_phase _ s
  | enqCopy c p j fs =>
    cases fs with
    | nil =>
      rw [microStep_enqCopy_nil hh] at h
      cases h
      obtain ⟨x, hx⟩ := enqAnswer_eq c p true { s with sq := { s.sq with tail := nextIndex s.cfg.sqCap j } }
      exact hx ▸ .publishTail j x
    | cons f fs =>
      rw [microStep_enqCopy_cons hh] at h
      cases h
      exact .slotWrite j _ ⟨_, _, _, _⟩ (enqCopy_index hh)
  | deqRead c =>
    rw [microStep_deqRead hh] at h
    cases h
    exact hostWrite_phase _ s
  | deqTest c i j =>
    rw [microStep_deqTest hh] at h
    cases h
    split
    · obtain ⟨x, hx⟩ := deqAnswer_eq c none s
      exact hx ▸ .own x
    · exact hostWrite_phase _ s
  | deqScan c i j =>
    rw [microStep_deqScan hh] at h
    exact deqScanByte_hostWrite h
  | deqCopy c i fs acc =>
    cases fs with
    | nil =>
      rw [microStep_deqCopy_nil hh] at h
      cases h
      obtain ⟨x, hx⟩ := deqAnswer_eq c (some acc) { s with rq := { s.rq with head := nextIndex s.cfg.rqCap i } }
      exact hx ▸ .publishHead i x
    | cons f fs =>
      rw [microStep_deqCopy_cons hh] at h
      cases h
      exact hostWrite_phase _ s

/-! ### Turns -/

/-- The next command, presented and run whole or begun in micro-steps. -/
theorem fetchHost_hostWrite {run : Instr → State → Out} (h : fetchHost run s = .next t)
    (hr : ∀ {w i u}, decodeHcw w = .ok i → run i u = .next t → HostWrite u t) : HostWrite s t := by
  rcases fetchHost_cases h with ⟨-, rfl⟩ | ⟨c, rest, i, -, hi, h⟩
  · exact hostWrite_refl _
  · exact (hr hi h).of_present

/-- Every turn that is no tick is one of these writes. -/
theorem runTurn_hostWrite {turn : Turn} (hn : isTick turn = false) (h : runTurn turn s = .next t) : HostWrite s t := by
  cases turn with
  | tick => cases hn
  | host =>
    rcases hostTurn_cases h with ⟨-, h⟩ | ⟨p, -, -, h⟩ | ⟨-, -, h⟩ | ⟨-, -, h⟩
    · exact fetchHost_hostWrite h exec_hostWrite
    · exact commit_hostWrite h fun _ => trySend_hostWrite
    · exact commit_hostWrite h fun _ => tryGet_hostWrite
    · exact commit_hostWrite h fun _ => microStep_hostWrite
  | micro pick =>
    rcases microTurn_cases h with ⟨-, h⟩ | ⟨-, -, h⟩
    · exact fetchHost_hostWrite h beginMicro_hostWrite
    · exact commit_hostWrite h fun _ => microStep_hostWrite

/-! ### What a host turn leaves unchanged -/

/-- Once INIT has run, a host turn writes no parameter, no engine register, not the line configuration, not READY and not
the CONTENTION mark. -/
theorem HostWrite.keeps_engine (h : HostWrite s t) (hr : s.ready = true) :
    t.cfg = s.cfg ∧ t.mode = s.mode ∧ t.bidx = s.bidx ∧ t.par = s.par ∧ t.wp = s.wp ∧ t.lineOe = s.lineOe ∧
      t.lineOut = s.lineOut ∧ t.ready = true ∧ t.contention = s.contention := by
  cases h with
  | init x hn => rw [hr] at hn; cases hn
  | _ => exact ⟨rfl, rfl, rfl, rfl, rfl, rfl, rfl, hr, rfl⟩

/-- After INIT a host turn leaves SQ's head and, under the host invariant, every SQ slot but the one at tail. -/
theorem HostWrite.keeps_sq (h : HostWrite s t) (hr : s.ready = true) (hi : hostInv s = true) :
    t.sq.head = s.sq.head ∧ ∀ k : Nat, k ≠ s.sq.tail → t.sq.slots[k]? = s.sq.slots[k]? := by
  cases h with
  | init x hn => rw [hr] at hn; cases hn
  | enqueue p q x hq =>
    rw [Queue.enqueue_some hq]
    exact ⟨rfl, fun k hk => List.getElem?_set_ne hk.symm⟩
  | slotWrite i sl x ht =>
    rw [ht hi]
    exact ⟨rfl, fun k hk => List.getElem?_set_ne hk.symm⟩
  | _ => exact ⟨rfl, fun _ _ => rfl⟩

/-- After INIT a host turn leaves RQ's tail and slots. -/
theorem HostWrite.keeps_rq (h : HostWrite s t) (hr : s.ready = true) :
    t.rq.tail = s.rq.tail ∧ t.rq.slots = s.rq.slots := by
  cases h with
  | init x hn => rw [hr] at hn; cases hn
  | _ => exact ⟨rfl, rfl⟩

/-- A host turn clears no FAULT bit, and INIT is no exception (R181). -/
theorem HostWrite.fault_sticky (h : HostWrite s t) : s.fault &&& t.fault = s.fault := by
  cases h with
  | raised c x => exact fault_and_raise c s
  | _ => exact BitVec.and_self

/-- No turn clears a FAULT bit (R30, R212). -/
theorem runTurn_fault_sticky {turn : Turn} (h : runTurn turn s = .next t) : s.fault &&& t.fault = s.fault := by
  cases turn with
  | tick peers noise draw => exact (tickAt_write h).fault_sticky
  | host => exact (runTurn_hostWrite rfl h).fault_sticky
  | micro pick => exact (runTurn_hostWrite rfl h).fault_sticky

end Sys2Proof.Machine
end

section
/-! SUPPORT. The statements of 10_state.md: BIDX's bound, the two agents' frames, the sticky FAULT. -/

namespace Sys2Proof.Proofs

open Sys2Proof Sys2Proof.Machine

/-- Settles O46: BIDX is bounded by the invariant, and an arm advances it only inside the frame. -/
theorem bitIndexNeverWraps : Obligations.BitIndexNeverWraps := by
  intro s t line hinv h
  have hs := hinv.bidx_le
  rcases (tickAt_write h).bidx_cases with ht | ht | ⟨hb, ht⟩
  · exact ⟨hs, ht ▸ hs, .inl ht⟩
  · exact ⟨hs, by omega, .inr (.inr ht)⟩
  · obtain ⟨hnext, hle⟩ := nextBit_in_frame hinv.legal hb
    exact ⟨hs, by omega, .inr (.inl (ht.trans hnext))⟩

/-- Settles O49, by the one write each queue can have from a tick. -/
theorem tickLeavesHostSide : Obligations.TickLeavesHostSide := by
  intro s t line h
  have hw := tickAt_write h
  obtain ⟨hcfg, hready, hres, hdin, hhost, hprogram, hcontention⟩ := hw.keeps_host_fields
  have hsq : t.sq.tail = s.sq.tail ∧ t.sq.slots = s.sq.slots := by
    rcases hw.sq_eq with e | e <;> rw [e] <;> exact ⟨rfl, rfl⟩
  have hrq : t.rq.head = s.rq.head ∧ ∀ k : Nat, k ≠ s.rq.tail → t.rq.slots[k]? = s.rq.slots[k]? := by
    rcases hw.rq_eq with e | e <;> rw [e]
    · exact ⟨rfl, fun _ _ => rfl⟩
    · exact ⟨rfl, fun k hk => List.getElem?_set_ne hk.symm⟩
  exact ⟨hcfg, hready, hres, hdin, hhost, hprogram, hcontention, hsq.1, hsq.2, hrq⟩

/-- Settles O50, by the writes a host turn can make once INIT has run. -/
theorem hostLeavesEngineSide : Obligations.HostLeavesEngineSide := by
  intro s t turn hn hr hi h
  have hw := runTurn_hostWrite hn h
  obtain ⟨hcfg, hmode, hbidx, hpar, hwp, hlineOe, hlineOut, hready, hcontention⟩ := hw.keeps_engine hr
  obtain ⟨hhead, hslots⟩ := hw.keeps_sq hr hi
  obtain ⟨htail, hrqSlots⟩ := hw.keeps_rq hr
  exact ⟨hcfg, hmode, hbidx, hpar, hwp, hlineOe, hlineOut, hready, hcontention, hhead, htail, hrqSlots, hslots⟩

/-- Settles O51: every write of a tick or of a host turn leaves FAULT or adds one bit to it. -/
theorem faultIsSticky : Obligations.FaultIsSticky :=
  fun s _ h => runTurn_fault_sticky (s := takeTurn s) h

end Sys2Proof.Proofs
end

section
/-! SUPPORT. What a tick does to each queue, with the guard it stands under (20_memory.md R58; 70_reset_and_hazards.md
R262): IDLE_CLAIM advances the head of a non-empty SQ, RX_PAR fills the tail of an RQ that is not full. -/

namespace Sys2Proof.Machine

open Sys2Proof

variable {s t : State}

/-! ### The guards of the two operations -/

/-- Only a queue that is not full accepts a packet. -/
theorem Queue.not_isFull_of_enqueue {c : Params} {cap : Nat} {q q' : Queue} {p : Packet}
    (h : q.enqueue c cap p = .ok (some q')) : q.isFull cap = false := by
  rcases q.enqueue_cases c cap p with ⟨-, e⟩ | ⟨hf, -⟩ | ⟨hf, -⟩
  · rw [e] at h; cases h
  · exact hf
  · exact hf

/-- Only a non-empty queue answers a packet. -/
theorem Queue.not_isEmpty_of_dequeue {α : Type} {c : Params} {cap : Nat} {q q' : Queue} {f : Byte → α}
    {d p : PacketOf α} (h : q.dequeue c cap f d = .ok (some (p, q'))) : q.isEmpty = false := by
  rcases q.dequeue_cases c cap f d with ⟨-, e⟩ | ⟨_, he, -⟩ | ⟨_, he, -⟩
  · rw [e] at h; cases h
  · exact he
  · exact he

theorem Queue.isEmpty_eq_false_iff (q : Queue) : q.isEmpty = false ↔ q.head ≠ q.tail := by
  rw [← Bool.not_eq_true, q.isEmpty_iff]

theorem Queue.isFull_eq_false_iff (cap : Nat) (q : Queue) : q.isFull cap = false ↔ nextIndex cap q.tail ≠ q.head := by
  rw [← Bool.not_eq_true, q.isFull_iff, nextIndex]

/-! ### The queue tests after each operation -/

/-- Two indices of one queue with the same successor are the same index. -/
theorem nextIndex_inj {cap i j : Nat} (hi : i < cap) (hj : j < cap) (h : nextIndex cap i = nextIndex cap j) :
    i = j := by
  have hmod : i ≡ j [MOD cap] := Nat.ModEq.add_right_cancel' 1 h
  exact hmod.eq_of_lt_of_lt hi hj

/-- A queue out of which a packet has been taken is not full. -/
theorem Queue.not_isFull_advance_head {pc cap : Nat} {q : Queue} (hw : q.wf pc cap) (he : q.isEmpty = false) :
    Queue.isFull cap { q with head := nextIndex cap q.head } = false := by
  obtain ⟨hhead, htail, -⟩ := hw
  rw [Queue.isFull_eq_false_iff]
  intro heq
  exact q.isEmpty_eq_false_iff.1 he (nextIndex_inj htail hhead heq).symm

/-- A queue into which a packet has been put is not empty. -/
theorem Queue.not_isEmpty_advance_tail {cap : Nat} {q : Queue} (slots : List Slot) (hf : q.isFull cap = false) :
    Queue.isEmpty { q with slots := slots, tail := nextIndex cap q.tail } = false := by
  rw [Queue.isEmpty_eq_false_iff]
  exact ((q.isFull_eq_false_iff cap).1 hf).symm

/-! ### A tick -/

/-- A tick leaves SQ or, if it is not empty, advances its head. -/
theorem TickWrite.sq_cases {line : Bool} (h : TickWrite line s t) :
    t.sq = s.sq ∨ s.sq.isEmpty = false ∧ t.sq = { s.sq with head := nextIndex s.cfg.sqCap s.sq.head } := by
  cases h with
  | claim p q _ _ _ hq => exact .inr ⟨Queue.not_isEmpty_of_dequeue hq, Queue.dequeue_some hq⟩
  | _ => exact .inl rfl

/-- A tick leaves RQ or, if it is not full, fills the slot at its tail and advances the tail. -/
theorem TickWrite.rq_cases {line : Bool} (h : TickWrite line s t) :
    t.rq = s.rq ∨ s.rq.isFull s.cfg.rqCap = false ∧ t.rq = { s.rq with
      slots := s.rq.slots.set s.rq.tail (copyIn s.wp.toPacket (s.rq.slotAt s.rq.tail))
      tail := nextIndex s.cfg.rqCap s.rq.tail } := by
  cases h with
  | deliverPacket q _ _ _ _ hq => exact .inr ⟨Queue.not_isFull_of_enqueue hq, Queue.enqueue_some hq⟩
  | _ => exact .inl rfl

/-- An empty SQ stays empty over a tick. -/
theorem TickWrite.sq_stays_empty {line : Bool} (h : TickWrite line s t) (he : s.sq.isEmpty = true) :
    t.sq.isEmpty = true := by
  rcases h.sq_cases with e | ⟨hne, -⟩
  · rw [e, he]
  · rw [he] at hne; cases hne

/-- A well-formed SQ that is not full stays so over a tick. -/
theorem TickWrite.sq_stays_not_full {line : Bool} (h : TickWrite line s t)
    (hw : s.sq.wf s.cfg.payloadCap s.cfg.sqCap) (hf : s.sq.isFull s.cfg.sqCap = false) :
    t.sq.isFull s.cfg.sqCap = false := by
  rcases h.sq_cases with e | ⟨hne, e⟩
  · rw [e, hf]
  · rw [e, Queue.not_isFull_advance_head hw hne]

/-- A non-empty RQ stays non-empty over a tick. -/
theorem TickWrite.rq_stays_nonempty {line : Bool} (h : TickWrite line s t) (he : s.rq.isEmpty = false) :
    t.rq.isEmpty = false := by
  rcases h.rq_cases with e | ⟨hf, e⟩
  · rw [e, he]
  · rw [e, Queue.not_isEmpty_advance_tail _ hf]

/-- A full RQ stays full over a tick. -/
theorem TickWrite.rq_stays_full {line : Bool} (h : TickWrite line s t) (hf : s.rq.isFull s.cfg.rqCap = true) :
    t.rq.isFull s.cfg.rqCap = true := by
  rcases h.rq_cases with e | ⟨hnf, -⟩
  · rw [e, hf]
  · rw [hf] at hnf; cases hnf

end Sys2Proof.Machine

namespace Sys2Proof.Proofs

open Sys2Proof Sys2Proof.Machine

/-- Settles O53, by the one write a tick can make to each queue and the guard of that write. -/
theorem queueTestsStableOverTick : Obligations.QueueTestsStableOverTick := by
  intro s t line hsq _ h
  have hw := tickAt_write h
  exact ⟨hw.sq_stays_empty, hw.sq_stays_not_full hsq, hw.rq_stays_nonempty, hw.rq_stays_full⟩

end Sys2Proof.Proofs
end

section
/-! SUPPORT. A tick cannot tell whether H is between two micro-steps: it reads nothing of H's (10_state.md R36) and not
SQ's slot at tail, which H owns (20_memory.md R60). So a tick and H's own writes commute. -/

namespace Sys2Proof.Machine

open Sys2Proof

variable {s t : State}

/-! ### SQ's slot at tail -/

/-- A queue whose slot at `tail`, the one its producer owns, is `sl`. -/
def Queue.withTailSlot (sl : Slot) (q : Queue) : Queue := { q with slots := q.slots.set q.tail sl }

@[simp] theorem Queue.withTailSlot_head (sl : Slot) (q : Queue) : (q.withTailSlot sl).head = q.head := rfl
@[simp] theorem Queue.withTailSlot_tail (sl : Slot) (q : Queue) : (q.withTailSlot sl).tail = q.tail := rfl
@[simp] theorem Queue.withTailSlot_isEmpty (sl : Slot) (q : Queue) : (q.withTailSlot sl).isEmpty = q.isEmpty := rfl

/-- The slot written is read back. -/
theorem Queue.slotAt_withTailSlot (sl : Slot) {q : Queue} (h : q.tail < q.slots.length) :
    (q.withTailSlot sl).slotAt q.tail = sl := by
  simp [Queue.slotAt, Queue.withTailSlot, h]

/-- Every other slot is as it was. -/
theorem Queue.slotAt_withTailSlot_ne (sl : Slot) {q : Queue} {i : Nat} (h : i ≠ q.tail) :
    (q.withTailSlot sl).slotAt i = q.slotAt i := by
  simp [Queue.slotAt, Queue.withTailSlot, List.getElem?_set_ne h.symm]

/-- Writing back the slot that stands there changes nothing. -/
@[simp] theorem Queue.withTailSlot_slotAt (q : Queue) : q.withTailSlot (q.slotAt q.tail) = q := by
  have hset : q.slots.set q.tail (q.slotAt q.tail) = q.slots := by
    by_cases h : q.tail < q.slots.length
    · rw [show q.slotAt q.tail = q.slots[q.tail] by simp [Queue.slotAt, h], List.set_getElem_self]
    · exact List.set_eq_of_length_le (by omega)
  rw [Queue.withTailSlot, hset]

/-- A dequeue reads the slot at `head` and leaves the one at `tail`. -/
theorem Queue.dequeue_withTailSlot {α : Type} (c : Params) (cap : Nat) (q : Queue) (f : Byte → α) (d : PacketOf α)
    (sl : Slot) :
    (q.withTailSlot sl).dequeue c cap f d =
      (q.dequeue c cap f d).map fun r => r.map fun pq => (pq.1, pq.2.withTailSlot sl) := by
  unfold Queue.dequeue
  cases he : q.isEmpty with
  | true => simp [he, Except.map]
  | false =>
    have hslot : (q.withTailSlot sl).slotAt q.head = q.slotAt q.head :=
      Queue.slotAt_withTailSlot_ne sl (q.isEmpty_eq_false_iff.1 he)
    simp only [Queue.withTailSlot_isEmpty, Queue.withTailSlot_head, he, hslot, Bool.false_eq_true, if_false]
    cases scanSlot c.payloadCap (q.slotAt q.head) <;> rfl

/-! ### H in an operation -/

/-- `s` with H in an operation at `h` and the slot it owns as `sl`. -/
def underway (h : HostPhase) (sl : Slot) (s : State) : State := hold h { s with sq := s.sq.withTailSlot sl }

variable (h : HostPhase) (sl : Slot)

@[simp] theorem underway_cfg (s : State) : (underway h sl s).cfg = s.cfg := rfl
@[simp] theorem underway_mode (s : State) : (underway h sl s).mode = s.mode := rfl
@[simp] theorem underway_bidx (s : State) : (underway h sl s).bidx = s.bidx := rfl
@[simp] theorem underway_par (s : State) : (underway h sl s).par = s.par := rfl
@[simp] theorem underway_wp (s : State) : (underway h sl s).wp = s.wp := rfl
@[simp] theorem underway_sq (s : State) : (underway h sl s).sq = s.sq.withTailSlot sl := rfl
@[simp] theorem underway_rq (s : State) : (underway h sl s).rq = s.rq := rfl
@[simp] theorem underway_fault (s : State) : (underway h sl s).fault = s.fault := rfl
@[simp] theorem underway_ready (s : State) : (underway h sl s).ready = s.ready := rfl
@[simp] theorem underway_host (s : State) : (underway h sl s).host = h := rfl

/-- Before the first write to the slot, only H itself has moved. -/
theorem underway_own_slot (s : State) : underway h (s.sq.slotAt s.sq.tail) s = hold h s := by
  rw [underway, Queue.withTailSlot_slotAt]

/-! ### The tick arms -/

theorem storeDataBit_underway (b : Bool) (s : State) :
    storeDataBit b (underway h sl s) = (storeDataBit b s).map (underway h sl) := by
  simp only [storeDataBit, underway_cfg, underway_wp, underway_bidx]
  cases setFrameBit s.cfg.payloadCap s.wp s.bidx b <;> rfl

theorem driveDataBit_underway (s : State) :
    driveDataBit (underway h sl s) = (driveDataBit s).map (underway h sl) := by
  simp only [driveDataBit, underway_cfg, underway_wp, underway_bidx]
  cases frameBit s.cfg.payloadCap s.wp s.bidx <;> rfl

theorem rxPar_underway (line : Bool) (s : State) :
    rxPar line (underway h sl s) = (rxPar line s).map (underway h sl) := by
  cases hp : parityPasses s.par line with
  | true =>
    simp only [rxPar, underway_cfg, underway_wp, underway_rq, underway_par, hp, if_true]
    rcases s.rq.enqueue s.cfg s.cfg.rqCap s.wp.toPacket with _ | _ | _ <;> rfl
  | false =>
    simp only [rxPar, underway_par, hp, Bool.false_eq_true, if_false]
    rfl

theorem idleClaim_underway (s : State) : idleClaim (underway h sl s) = (idleClaim s).map (underway h sl) := by
  simp only [idleClaim, underway_cfg, underway_wp, underway_sq, Queue.dequeue_withTailSlot]
  rcases s.sq.dequeue s.cfg s.cfg.sqCap id s.wp with _ | _ | ⟨p, q⟩ <;> rfl

/-- The arm a tick runs does the same whether H is in an operation or not. -/
theorem armEffect_underway (line : Bool) (s : State) :
    armEffect line (underway h sl s) = (armEffect line s).map (underway h sl) := by
  cases hm : s.mode with
  | receiving =>
    by_cases hhdr : s.bidx < 16
    · simp [armEffect, hm, hhdr, storeDataBit_underway]
    by_cases hpay : s.bidx < 16 + 8 * s.wp.size.toNat
    · by_cases hcap : s.cfg.payloadCap ≤ byteIndex s.bidx
      · simp [armEffect, hm, hhdr, hpay, hcap, Except.map]
      · simp [armEffect, hm, hhdr, hpay, hcap, storeDataBit_underway]
    by_cases hpar : s.bidx = 16 + 8 * s.wp.size.toNat
    · simp [armEffect, hm, hpar, rxPar_underway]
    · simp [armEffect, hm, hhdr, hpay, hpar, Except.map]
  | sending =>
    by_cases hdata : s.bidx < 16 + 8 * s.wp.size.toNat
    · simp [armEffect, hm, hdata, driveDataBit_underway]
    by_cases hpar : s.bidx = 16 + 8 * s.wp.size.toNat
    · simp [armEffect, hm, hpar, Except.map, underway, hold]
    · simp [armEffect, hm, hdata, hpar, Except.map, underway, hold, toIdle]
  | idle =>
    cases line with
    | false => simp [armEffect, hm, Except.map, underway, hold]
    | true =>
      cases he : s.sq.isEmpty with
      | true => simp [armEffect, hm, he, Except.map]
      | false => simp [armEffect, hm, he, idleClaim_underway]
  | reserved => simp [armEffect, hm, Except.map]

theorem commit_underway (s : State) (r : Except FaultCode State) :
    commit (underway h sl s) (r.map (underway h sl)) = underway h sl (commit s r) := by
  cases r <;> rfl

/-! ### The tick -/

theorem tickAt_underway {line : Bool} (hn : tickAt line s = .next t) :
    tickAt line (underway h sl s) = .next (underway h sl t) := by
  rw [tickAt_eq] at hn ⊢
  simp only [engineTick, underway_ready, underway_fault, armEffect_underway, commit_underway] at hn ⊢
  injection hn with hn
  rw [← hn]
  split <;> rfl

/-- A tick turn commutes with H's being in an operation. -/
theorem runTurn_underway {x : Turn} (hx : isTick x = true) (hn : runTurn x s = .next t) :
    runTurn x (underway h sl s) = .next (underway h sl t) := by
  cases x with
  | tick peers noise draw => exact tickAt_underway h sl (s := markContention (s.drive :: peers) s) hn
  | host => cases hx
  | micro => cases hx

/-- A tick turn writes as one tick does, beside the CONTENTION mark. -/
theorem runTurn_tick_write {x : Turn} (hx : isTick x = true) (hn : runTurn x s = .next t) :
    ∃ ds line, TickWrite line (markContention ds s) t := by
  cases x with
  | tick peers noise draw => exact ⟨_, _, tickAt_write hn⟩
  | host => cases hx
  | micro => cases hx

/-- A tick turn always has a next state. -/
theorem runTurn_tick_exists {x : Turn} (hx : isTick x = true) (s : State) : ∃ t, runTurn x s = .next t := by
  cases x with
  | tick peers noise draw => exact tickAt_exists _ _
  | host => cases hx
  | micro => cases hx

/-- While H's phase is `h` and its slot as it was, a tick turn does what it does with H idle. -/
theorem runTurn_hold {x : Turn} (hx : isTick x = true) (hn : runTurn x s = .next t) :
    runTurn x (hold h s) = .next (hold h t) := by
  have hslot : t.sq.slotAt t.sq.tail = s.sq.slotAt s.sq.tail := by
    obtain ⟨ds, line, hw⟩ := runTurn_tick_write hx hn
    rcases hw.sq_eq with e | e <;> rw [e] <;> rfl
  have hu := runTurn_underway h (s.sq.slotAt s.sq.tail) hx hn
  rwa [underway_own_slot, ← hslot, underway_own_slot] at hu

end Sys2Proof.Machine
end

section
/-! SUPPORT. Runs of an operation in micro-steps with ticks between them, and the run of the same ticks in which it
executes whole at one point (20_memory.md R61): one induction over the turns, for any simulation between the two. -/

namespace Sys2Proof.Machine

open Sys2Proof

variable {s t u v w : State} {op : State → Out} {x : Turn} {ts : List Turn}

/-! ### One point for the whole operation -/

/-- `t` is the end of a run from `s` of the ticks among `ts` in which `op` executes whole after those of the first `k`
turns. -/
def AtOnePoint (op : State → Out) (ts : List Turn) (s t : State) : Prop :=
  ∃ k, k ≤ ts.length ∧
    andThen (runTurns ((ts.take k).filter isTick) s)
      (fun u => andThen (op u) (runTurns ((ts.drop k).filter isTick))) = .next t

/-- The operation executes now. -/
theorem AtOnePoint.here (hop : op s = .next w) (h : runTurns (ts.filter isTick) w = .next t) : AtOnePoint op ts s t :=
  ⟨0, Nat.zero_le _, by simp [hop, h]⟩

/-- A tick, and the operation executes later. -/
theorem AtOnePoint.tick (hx : isTick x = true) (hs : runTurn x s = .next u) (h : AtOnePoint op ts u t) :
    AtOnePoint op (x :: ts) s t := by
  obtain ⟨k, hk, hrun⟩ := h
  exact ⟨k + 1, by simpa using hk, by simpa [hx, hs] using hrun⟩

/-- A micro-step is no part of the whole operation's run. -/
theorem AtOnePoint.micro (hx : isTick x = false) (h : AtOnePoint op ts s t) : AtOnePoint op (x :: ts) s t := by
  obtain ⟨k, hk, hrun⟩ := h
  exact ⟨k + 1, by simpa using hk, by simpa [hx] using hrun⟩

/-- The operation executes at a micro-step. -/
theorem AtOnePoint.here_of_micro (hx : isTick x = false) (hop : op s = .next w)
    (h : runTurns (ts.filter isTick) w = .next t) : AtOnePoint op (x :: ts) s t :=
  .micro hx (.here hop h)

/-! ### H is busy until its operation ends -/

/-- H is in an operation before each of the turns `ts` from `s`. -/
def BusyBefore (ts : List Turn) (s : State) : Prop :=
  ∀ (k : Nat) (u : State), k < ts.length → runTurns (ts.take k) s = .next u → u.host ≠ .idle

theorem BusyBefore.head (h : BusyBefore (x :: ts) s) : s.host ≠ .idle := h 0 s (by simp) rfl

theorem BusyBefore.tail (h : BusyBefore (x :: ts) s) (hs : runTurn x s = .next u) : BusyBefore ts u :=
  fun k v hk hv => h (k + 1) v (by simpa using hk) (by simpa [hs] using hv)

/-! ### Micro-steps between ticks -/

/-- A micro-step of a busy H that leaves FAULT at 0 has committed its writes. -/
theorem runTurn_micro_ok (hx : isMicro x = true) (hb : s.host ≠ .idle) (h : runTurn x s = .next t)
    (hf : t.fault = 0#8) : s.fault = 0#8 ∧ ∃ pick, microStep pick s = .ok t := by
  cases x with
  | tick => cases hx
  | host => cases hx
  | micro pick =>
    rcases microTurn_cases h with ⟨hi, -⟩ | ⟨-, hs, hc⟩
    · exact absurd hi hb
    · rcases commit_cases hc with hok | ⟨c, -, rfl⟩
      · exact ⟨hs, pick, hok⟩
      · exact absurd hf (raise_fault_ne_zero c s)

/-- A run that ends without a fault had none before. -/
theorem fault_zero_of_runTurns (h : runTurns ts s = .next t) (hf : t.fault = 0#8) : s.fault = 0#8 := by
  induction ts generalizing s with
  | nil => cases h; exact hf
  | cons x ts ih =>
    obtain ⟨u, hu, hrun⟩ := andThen_cases h
    have hsticky := runTurn_fault_sticky hu
    rw [ih hrun] at hsticky
    simpa using hsticky.symm

/-- What a tick turn leaves alone of H's side and of the parameters. -/
theorem runTurn_tick_keeps (hx : isTick x = true) (h : runTurn x s = .next t) :
    t.cfg = s.cfg ∧ t.ready = s.ready ∧ t.res = s.res ∧ t.din = s.din ∧ t.host = s.host := by
  obtain ⟨ds, line, hw⟩ := runTurn_tick_write hx h
  obtain ⟨hcfg, hready, hres, hdin, hhost, -⟩ := hw.keeps_host_fields
  exact ⟨hcfg, hready, hres, hdin, hhost⟩

theorem isTick_of_isMicro (hx : isMicro x = true) : isTick x = false := by
  cases x with
  | tick => cases hx
  | host => rfl
  | micro => rfl

/-! ### After the point -/

/-- The operation has executed whole in `w`; in `u` it has ended too, or is about to answer what it read of the other
side's index at that point (40_queue.md E2, Q2). -/
inductive Answering (w : State) : State → Prop
  | ended : w.host = .idle → Answering w w
  | full (p : Packet) (i j : Nat) : w.host = .idle → w.res = .bit false → nextIndex w.cfg.sqCap j = i →
      Answering w (hold (.enqTest .sqEnq p i j) w)
  | empty (i j : Nat) : w.host = .idle → w.res = .dequeued none → j = i →
      Answering w (hold (.deqTest .rqDeq i j) w)

theorem Answering.idle (h : Answering w u) : w.host = .idle := by
  cases h with
  | ended hi => exact hi
  | full _ _ _ hi => exact hi
  | empty _ _ hi => exact hi

/-- A result put on RES where it stands already frees H. -/
theorem finish_hold_self (h : HostPhase) (hh : w.host = .idle) : finish w.res (hold h w) = w := by
  rw [finish, hold, ← hh]

/-- A tick does to both what it does to either. -/
theorem Answering.tick (h : Answering w u) (hx : isTick x = true) (hw : runTurn x w = .next v) :
    ∃ u', runTurn x u = .next u' ∧ Answering v u' := by
  obtain ⟨hcfg, -, hres, -, hhost⟩ := runTurn_tick_keeps hx hw
  cases h with
  | ended hi => exact ⟨v, hw, .ended (hhost.trans hi)⟩
  | full p i j hi hr hj =>
    exact ⟨_, runTurn_hold _ hx hw, .full p i j (hhost.trans hi) (hres.trans hr) (by rw [hcfg, hj])⟩
  | empty i j hi hr hj => exact ⟨_, runTurn_hold _ hx hw, .empty i j (hhost.trans hi) (hres.trans hr) hj⟩

/-- A micro-step answers. -/
theorem Answering.micro {pick : Nat} (h : Answering w u) (hb : u.host ≠ .idle) (hm : microStep pick u = .ok t) :
    t = w := by
  cases h with
  | ended hi => exact absurd hi hb
  | full p i j hi hr hj =>
    rw [microStep_enqTest (hold_host _ w), hold_cfg, hj, beq_self_eq_true, if_pos rfl] at hm
    injection hm with hm
    rw [← hm, enqAnswer, ← hr, finish_hold_self _ hi]
  | empty i j hi hr hj =>
    rw [microStep_deqTest (hold_host _ w), hj, beq_self_eq_true, if_pos rfl] at hm
    injection hm with hm
    rw [← hm, deqAnswer, ← hr, finish_hold_self _ hi]

/-- From the point on, the ticks alone lead to the same end. -/
theorem Answering.run (h : Answering w u) (hts : ∀ x ∈ ts, isTick x = true ∨ isMicro x = true)
    (hb : BusyBefore ts u) (hrun : runTurns ts u = .next t) (ht : t.host = .idle) (hf : t.fault = 0#8) :
    runTurns (ts.filter isTick) w = .next t := by
  induction ts generalizing w u with
  | nil =>
    cases hrun
    cases h with
    | ended => rfl
    | full => cases ht
    | empty => cases ht
  | cons x ts ih =>
    obtain ⟨u', hu, hrun'⟩ := andThen_cases hrun
    have hrest := fun y hy => hts y (List.mem_cons_of_mem x hy)
    rcases hts x List.mem_cons_self with hx | hx
    · obtain ⟨w', hw⟩ := runTurn_tick_exists hx w
      obtain ⟨u'', hu', ha⟩ := h.tick hx hw
      obtain rfl : u'' = u' := by simpa [hu'] using hu
      simpa [hx, hw] using ih ha hrest (hb.tail hu) hrun'
    · obtain ⟨-, pick, hm⟩ := runTurn_micro_ok hx hb.head hu (fault_zero_of_runTurns hrun' hf)
      obtain rfl : u' = w := h.micro hb.head hm
      simpa [isTick_of_isMicro hx] using ih (.ended h.idle) hrest (hb.tail hu) hrun'

/-! ### Before the point -/

/-- A relation between `v`, where the operation has not begun, and `u`, where it is under way: ticks keep it, and a
micro-step keeps it or is the point at which the operation executes whole in `v`. -/
structure Simulates (op : State → Out) (R : State → State → Prop) : Prop where
  busy : ∀ {v u}, R v u → u.host ≠ .idle
  tick : ∀ {x v v' u}, isTick x = true → R v u → runTurn x v = .next v' → ∃ u', runTurn x u = .next u' ∧ R v' u'
  micro : ∀ {pick v u u'}, R v u → u.fault = 0#8 → microStep pick u = .ok u' →
    R v u' ∨ ∃ w, op v = .next w ∧ Answering w u'

/-- A run in micro-steps that such a relation holds of ends where a run with the operation at one point ends. -/
theorem Simulates.atOnePoint {R : State → State → Prop} (hsim : Simulates op R) (h : R v u)
    (hts : ∀ x ∈ ts, isTick x = true ∨ isMicro x = true) (hb : BusyBefore ts u) (hrun : runTurns ts u = .next t)
    (ht : t.host = .idle) (hf : t.fault = 0#8) : AtOnePoint op ts v t := by
  induction ts generalizing v u with
  | nil =>
    cases hrun
    exact absurd ht (hsim.busy h)
  | cons x ts ih =>
    obtain ⟨u', hu, hrun'⟩ := andThen_cases hrun
    have hrest := fun y hy => hts y (List.mem_cons_of_mem x hy)
    rcases hts x List.mem_cons_self with hx | hx
    · obtain ⟨v', hv⟩ := runTurn_tick_exists hx v
      obtain ⟨u'', hu', hr⟩ := hsim.tick hx h hv
      obtain rfl : u'' = u' := by simpa [hu'] using hu
      exact .tick hx hv (ih hr hrest (hb.tail hu) hrun')
    · obtain ⟨hfu, pick, hm⟩ := runTurn_micro_ok hx hb.head hu (fault_zero_of_runTurns hrun' hf)
      rcases hsim.micro h hfu hm with hr | ⟨w, hop, ha⟩
      · exact .micro (isTick_of_isMicro hx) (ih hr hrest (hb.tail hu) hrun')
      · exact .here_of_micro (isTick_of_isMicro hx) hop (ha.run hrest (hb.tail hu) hrun' ht hf)

end Sys2Proof.Machine
end

section
/-! SUPPORT. A slot copied one access at a time, in any order, ends as the slot copied whole (40_queue.md E4, Q4 against
R114, R116), and a scan one byte at a time finds the first 0x00 (Q3 against R115). -/

namespace Sys2Proof.Machine

open Sys2Proof

variable {src d target : Packet}

/-! ### Access units -/

/-- Two buffers hold the same in one access unit (20_memory.md R54). -/
def SameField (f : SlotField) (a b : Packet) : Prop :=
  match f with
  | .snd => a.snd = b.snd
  | .dst => a.dst = b.dst
  | .size => a.size = b.size
  | .byte j => a.pay.getD j none = b.pay.getD j none

theorem SameField.trans {f : SlotField} {a b c : Packet} (hab : SameField f a b) (hbc : SameField f b c) :
    SameField f a c := by
  cases f <;> exact Eq.trans hab hbc

/-- Buffers of one length that agree in every access unit are equal. -/
theorem eq_of_sameField {a b : Packet} (hlen : a.pay.length = b.pay.length) (h : ∀ f, SameField f a b) : a = b := by
  have hsnd : a.snd = b.snd := h .snd
  have hdst : a.dst = b.dst := h .dst
  have hsize : a.size = b.size := h .size
  have hpay : a.pay = b.pay := by
    refine List.ext_getElem hlen fun j ha hb => ?_
    have hj : a.pay.getD j none = b.pay.getD j none := h (.byte j)
    simpa [ha, hb] using hj
  cases a
  cases b
  simp_all

@[simp] theorem writeField_length (src : Packet) (f : SlotField) (d : Packet) :
    (writeField src f d).pay.length = d.pay.length := by
  cases f <;> simp [writeField]

/-- The unit written is the source's, where the buffer has it. -/
theorem sameField_writeField (f : SlotField) (hlen : ∀ j, f = .byte j → j < d.pay.length) :
    SameField f (writeField src f d) src := by
  cases f with
  | byte j =>
    have hj := hlen j rfl
    simp [SameField, writeField, hj]
  | _ => rfl

/-- Every other unit is as it was. -/
theorem sameField_writeField_ne {f g : SlotField} (h : g ≠ f) : SameField g (writeField src f d) d := by
  cases f with
  | byte j =>
    cases g with
    | byte k =>
      have hk : j ≠ k := fun e => h (by rw [e])
      simp [SameField, writeField, List.getElem?_set_ne hk]
    | _ => rfl
  | snd =>
    cases g with
    | snd => exact absurd rfl h
    | _ => rfl
  | dst =>
    cases g with
    | dst => exact absurd rfl h
    | _ => rfl
  | size =>
    cases g with
    | size => exact absurd rfl h
    | _ => rfl

/-! ### A copy in progress -/

/-- `d` on its way to `target`, with the units `todo` still to copy from `src`. -/
structure Copying (src d target : Packet) (todo : List SlotField) : Prop where
  done : ∀ f, f ∉ todo → SameField f d target
  source : ∀ f ∈ todo, SameField f src target
  length : d.pay.length = target.pay.length
  inRange : ∀ j, .byte j ∈ todo → j < d.pay.length

/-- A unit that is not the one taken off a list stays on it. -/
theorem mem_eraseIdx_of_ne_getElem {l : List SlotField} {f : SlotField} {k : Nat} (hk : k < l.length) (hf : f ∈ l)
    (hne : f ≠ l[k]) : f ∈ l.eraseIdx k := by
  obtain ⟨i, hi, rfl⟩ := List.mem_iff_getElem.1 hf
  have hik : i ≠ k := fun e => hne (by subst e; rfl)
  exact List.mem_eraseIdx_iff_getElem.2 ⟨i, hi, hik, rfl⟩

/-- One access, whichever of the pending ones. -/
theorem Copying.write {todo : List SlotField} (h : Copying src d target todo) {k : Nat} (hk : k < todo.length) :
    Copying src (writeField src todo[k] d) target (todo.eraseIdx k) where
  done f hf := by
    by_cases hfk : f = todo[k]
    · subst hfk
      exact (sameField_writeField _ fun j hj => h.inRange j (hj ▸ List.getElem_mem hk)).trans
        (h.source _ (List.getElem_mem hk))
    · have hnot : f ∉ todo := fun hmem => hf (mem_eraseIdx_of_ne_getElem hk hmem hfk)
      exact (sameField_writeField_ne hfk).trans (h.done f hnot)
  source f hf := h.source f (List.mem_of_mem_eraseIdx hf)
  length := by rw [writeField_length, h.length]
  inRange j hj := by
    rw [writeField_length]
    exact h.inRange j (List.mem_of_mem_eraseIdx hj)

/-- With nothing left to copy the target is reached. -/
theorem Copying.eq_target (h : Copying src d target []) : d = target :=
  eq_of_sameField h.length fun f => h.done f (by simp)

theorem byte_mem_slotFields {n j : Nat} : .byte j ∈ slotFields n ↔ j < n := by
  simp [slotFields]

/-- A whole copy of the header and `n` payload bytes, before its first access. -/
theorem copying_start {n : Nat} (hs : n ≤ src.pay.length) (hd : n ≤ d.pay.length) :
    Copying src d ⟨src.snd, src.dst, src.size, src.pay.take n ++ d.pay.drop n⟩ (slotFields n) where
  done f hf := by
    cases f with
    | byte j =>
      rw [byte_mem_slotFields] at hf
      have hj : n + (j - n) = j := by omega
      simp [SameField, List.getElem?_append_right, hs, Nat.le_of_not_lt hf, hj]
    | _ => simp [slotFields] at hf
  source f hf := by
    cases f with
    | byte j =>
      rw [byte_mem_slotFields] at hf
      have hj : j < (src.pay.take n).length := by rw [List.length_take]; omega
      simp [SameField, List.getElem?_append_left hj, hf]
    | _ => rfl
  length := by
    simp only [List.length_append, List.length_take, List.length_drop]
    omega
  inRange j hj := Nat.lt_of_lt_of_le (byte_mem_slotFields.1 hj) hd

/-- E4: the copy of a packet into a slot. -/
theorem copying_copyIn {p : Packet} {sl : Slot} (hp : p.size.toNat ≤ p.pay.length)
    (hs : p.size.toNat ≤ sl.pay.length) : Copying p sl (copyIn p sl) (slotFields p.size.toNat) :=
  copying_start hp hs

/-- Q4: the copy of a scanned slot into a buffer. -/
theorem copying_copyOut {cap : Nat} {sl : Slot} {bs : List Byte} {d : Packet} (h : scanSlot cap sl = .ok bs)
    (hd : cap ≤ d.pay.length) : Copying sl d (copyOut some sl bs d) (slotFields bs.length) := by
  obtain ⟨hcap, hsl⟩ := scanSlot_length_le h
  have htake : sl.pay.take bs.length = bs.map some := by
    rw [← (scanBytes_ok h).2.1, List.take_take, Nat.min_eq_left hcap]
  have hstart := copying_start (src := sl) (d := d) hsl (hcap.trans hd)
  rwa [htake] at hstart

/-! ### A scan in progress -/

/-- The first `j` bytes hold no 0x00 and none is undefined. -/
def NoZeroBefore (l : List (Option Byte)) (j : Nat) : Prop := ∀ k < j, ∃ b : Byte, b ≠ 0#8 ∧ l[k]? = some (some b)

theorem NoZeroBefore.succ {l : List (Option Byte)} {j : Nat} {b : Byte} (h : NoZeroBefore l j) (hb : b ≠ 0#8)
    (hj : l[j]? = some (some b)) : NoZeroBefore l (j + 1) := fun k hk => by
  rcases Nat.lt_succ_iff_lt_or_eq.1 hk with hlt | rfl
  · exact h k hlt
  · exact ⟨b, hb, hj⟩

/-- A scan that meets its first 0x00 at `j` answers the `j + 1` bytes up to it. -/
theorem NoZeroBefore.scanBytes_eq {l : List (Option Byte)} {j : Nat} (h : NoZeroBefore l j)
    (hj : l[j]? = some (some 0#8)) : ∃ bs, scanBytes l = .ok bs ∧ bs.length = j + 1 := by
  induction l generalizing j with
  | nil => simp at hj
  | cons a l ih =>
    cases j with
    | zero =>
      obtain rfl : a = some 0#8 := by simpa using hj
      exact ⟨[0#8], by simp [scanBytes], rfl⟩
    | succ j =>
      obtain ⟨b, hb, ha⟩ := h 0 (Nat.succ_pos j)
      obtain rfl : a = some b := by simpa using ha
      obtain ⟨bs, hbs, hlen⟩ := ih (fun k hk => by simpa using h (k + 1) (Nat.succ_lt_succ hk)) (by simpa using hj)
      exact ⟨b :: bs, by simp [scanBytes, hb, hbs], by rw [List.length_cons, hlen]⟩

end Sys2Proof.Machine
end

section
/-! SUPPORT. An enqueue in micro-steps against the enqueue whole (40_queue.md R117). An accepted one executes at E5, where
`tail` is published; a refused SQ_ENQ at E1, where `head` is read (20_memory.md R61). -/

namespace Sys2Proof.Machine

open Sys2Proof

variable {s t u v w : State} {x : Turn}

/-! ### Before the operation -/

/-- `v` is what ticks make of `s`, a block whose H is idle and ready: the operation reads the same parameters and ports. -/
structure NotBegun (s v : State) : Prop where
  cfg : v.cfg = s.cfg
  din : v.din = s.din
  ready : v.ready = true
  host : v.host = .idle
  sq : v.sq.wf v.cfg.payloadCap v.cfg.sqCap

theorem NotBegun.accepting (h : NotBegun s v) (hf : v.fault = 0#8) : Accepting v := ⟨h.ready, hf, h.host⟩

/-- Of SQ a tick turn leaves the tail and the slot there, keeps it well-formed, and makes it no fuller. -/
theorem runTurn_tick_sq (hx : isTick x = true) (hw : v.sq.wf v.cfg.payloadCap v.cfg.sqCap)
    (h : runTurn x v = .next w) :
    w.sq.tail = v.sq.tail ∧ w.sq.slots = v.sq.slots ∧ w.sq.wf v.cfg.payloadCap v.cfg.sqCap ∧
      (v.sq.isFull v.cfg.sqCap = false → w.sq.isFull v.cfg.sqCap = false) := by
  obtain ⟨ds, line, htick⟩ := runTurn_tick_write hx h
  have hroom := htick.sq_stays_not_full hw
  have hsq : w.sq = v.sq ∨ w.sq = { v.sq with head := nextIndex v.cfg.sqCap v.sq.head } := htick.sq_eq
  rcases hsq with e | e <;> rw [e] at hroom ⊢
  · exact ⟨rfl, rfl, hw, hroom⟩
  · exact ⟨rfl, rfl, Queue.wf_head hw _, hroom⟩

theorem NotBegun.tick (h : NotBegun s v) (hx : isTick x = true) (hw : runTurn x v = .next w) : NotBegun s w := by
  obtain ⟨hcfg, hready, -, hdin, hhost⟩ := runTurn_tick_keeps hx hw
  obtain ⟨-, -, hsq, -⟩ := runTurn_tick_sq hx h.sq hw
  exact ⟨hcfg.trans h.cfg, hdin.trans h.din, hready.trans h.ready, hhost.trans h.host, by rwa [hcfg]⟩

/-! ### The operation whole -/

/-- A host enqueue whole: SQ_ENQ (42_link_api.md R184), or the poll of SEND (R188). -/
def enqWhole (c : EnqCaller) (p : Packet) (s : State) : Except FaultCode State :=
  match s.sq.enqueue s.cfg s.cfg.sqCap p with
  | .error e => .error e
  | .ok none => .ok (enqAnswer c p false s)
  | .ok (some q) => .ok (enqAnswer c p true { s with sq := q })

theorem enqWhole_full {c : EnqCaller} {p : Packet} (hf : s.sq.isFull s.cfg.sqCap = true) :
    enqWhole c p s = .ok (enqAnswer c p false s) := by
  simp [enqWhole, Queue.enqueue, hf]

theorem enqWhole_accepted {c : EnqCaller} {p : Packet} (hf : s.sq.isFull s.cfg.sqCap = false)
    (hs : p.size.toNat ≤ s.cfg.payloadCap) :
    enqWhole c p s = .ok (enqAnswer c p true { s with sq := { s.sq.withTailSlot (copyIn p (s.sq.slotAt s.sq.tail)) with
      tail := nextIndex s.cfg.sqCap s.sq.tail } }) := by
  simp [enqWhole, Queue.enqueue, hf, Nat.not_lt.2 hs, Queue.withTailSlot]

theorem exec_sqEnq (snd dst : NodeId) (size : PayloadSize) (h : Accepting s) :
    exec (.sqEnq snd dst size) s =
      .next (commit s (enqWhole .sqEnq (hostPacket s.cfg.payloadCap snd dst size s.din) s)) :=
  hostOp_of_accepting h fun s => enqWhole .sqEnq (hostPacket s.cfg.payloadCap snd dst size s.din) s

theorem trySend_eq_enqWhole (p : Packet) (s : State) : trySend p s = enqWhole .send p s := by
  unfold trySend enqWhole
  rcases s.sq.enqueue s.cfg s.cfg.sqCap p with _ | _ | _ <;> rfl

theorem exec_send (snd dst : NodeId) (size : PayloadSize) (h : Accepting s) :
    exec (.send snd dst size) s = .next (commit s
      (if s.cfg.maxDest < dst.toNat then .ok (finish .done s)
        else enqWhole .send (hostPacket s.cfg.payloadCap snd dst size s.din) s)) := by
  rw [← trySend_eq_enqWhole]
  exact hostOp_of_accepting h fun s =>
    if s.cfg.maxDest < dst.toNat then .ok (finish .done s)
    else trySend (hostPacket s.cfg.payloadCap snd dst size s.din) s

/-- An accepted enqueue ends the operation. -/
theorem enqAnswer_true_host (c : EnqCaller) (p : Packet) (s : State) : (enqAnswer c p true s).host = .idle := by
  cases c <;> rfl

/-- An answer overwrites H's phase and RES. -/
theorem enqAnswer_hold (c : EnqCaller) (p : Packet) (b : Bool) (h : HostPhase) (s : State) :
    enqAnswer c p b (hold h s) = enqAnswer c p b s := by
  cases c <;> cases b <;> rfl

/-- E5: publishing `tail` makes of the operation under way what it makes of `s` with the slot written. -/
theorem enqAnswer_underway (c : EnqCaller) (p : Packet) (h : HostPhase) (sl : Slot) (n : Nat) (s : State) :
    enqAnswer c p true { underway h sl s with sq := { (underway h sl s).sq with tail := n } } =
      enqAnswer c p true { s with sq := { s.sq.withTailSlot sl with tail := n } } := by
  cases c <;> rfl

/-! ### The operation in micro-steps -/

/-- `u` is `v` with an enqueue of `p` under way that will be accepted, or, for SEND, retried: the indices H has read, what
they say of SQ now (R60), and how far the copy is. -/
inductive EnqUnderway (c : EnqCaller) (p : Packet) (v : State) : State → Prop
  | held : c = .send → EnqUnderway c p v (hold (.sendHeld p) v)
  | read : EnqUnderway c p v (hold (.enqRead c p) v)
  | test (i : Nat) : (nextIndex v.cfg.sqCap v.sq.tail = i → c = .send) →
      (nextIndex v.cfg.sqCap v.sq.tail ≠ i → v.sq.isFull v.cfg.sqCap = false) →
      EnqUnderway c p v (hold (.enqTest c p i v.sq.tail) v)
  | bound : v.sq.isFull v.cfg.sqCap = false → EnqUnderway c p v (hold (.enqBound c p v.sq.tail) v)
  | copy (sl : Slot) (todo : List SlotField) : v.sq.isFull v.cfg.sqCap = false → p.size.toNat ≤ v.cfg.payloadCap →
      Copying p sl (copyIn p (v.sq.slotAt v.sq.tail)) todo →
      EnqUnderway c p v (underway (.enqCopy c p v.sq.tail todo) sl v)

variable {c : EnqCaller} {p : Packet}

theorem EnqUnderway.busy (h : EnqUnderway c p v u) : u.host ≠ .idle := by
  cases h <;> simp

theorem EnqUnderway.fault_eq (h : EnqUnderway c p v u) : u.fault = v.fault := by
  cases h <;> rfl

theorem EnqUnderway.tick (h : EnqUnderway c p v u) (hv : v.sq.wf v.cfg.payloadCap v.cfg.sqCap) (hx : isTick x = true)
    (hw : runTurn x v = .next w) : ∃ u', runTurn x u = .next u' ∧ EnqUnderway c p w u' := by
  obtain ⟨hcfg, -⟩ := runTurn_tick_keeps hx hw
  obtain ⟨htail, hslots, -, hroom⟩ := runTurn_tick_sq hx hv hw
  rw [← hcfg] at hroom
  cases h with
  | held hc => exact ⟨_, runTurn_hold _ hx hw, .held hc⟩
  | read => exact ⟨_, runTurn_hold _ hx hw, .read⟩
  | test i hsend htest =>
    refine ⟨_, runTurn_hold _ hx hw, ?_⟩
    rw [← hcfg, ← htail] at hsend htest
    rw [← htail]
    exact .test i hsend fun hi => hroom (htest hi)
  | bound hf =>
    refine ⟨_, runTurn_hold _ hx hw, ?_⟩
    rw [← htail]
    exact .bound (hroom (hcfg ▸ hf))
  | copy sl todo hf hs hcopy =>
    refine ⟨_, runTurn_underway _ sl hx hw, ?_⟩
    have hslot : w.sq.slotAt w.sq.tail = v.sq.slotAt v.sq.tail := by rw [htail, Queue.slotAt, hslots, Queue.slotAt]
    rw [← htail]
    exact .copy sl todo (hroom (hcfg ▸ hf)) (hcfg ▸ hs) (hslot ▸ hcopy)

/-- E4: one more unit of the packet stands in the slot. -/
theorem enqWrite_underway {sl : Slot} {f : SlotField} {fs : List SlotField} (pick : Nat)
    (ht : v.sq.tail < v.sq.slots.length) :
    ∃ (k : Nat) (hk : k < (f :: fs).length),
      enqWrite pick c p v.sq.tail f fs (underway (.enqCopy c p v.sq.tail (f :: fs)) sl v) =
        underway (.enqCopy c p v.sq.tail ((f :: fs).eraseIdx k)) (writeField p (f :: fs)[k] sl) v := by
  have hk : pick % (fs.length + 1) < (f :: fs).length := Nat.mod_lt _ (Nat.succ_pos _)
  refine ⟨_, hk, ?_⟩
  simp only [enqWrite, underway_sq, Queue.slotAt_withTailSlot sl ht, List.getD_eq_getElem _ _ hk]
  simp only [underway, hold, Queue.withTailSlot, List.set_set]

/-- E1 to E5: the operation goes on, or executes whole here. -/
theorem EnqUnderway.micro {pick : Nat} (h : EnqUnderway c p v u) (hp : p.pay.length = v.cfg.payloadCap)
    (hw : v.sq.wf v.cfg.payloadCap v.cfg.sqCap) (hm : microStep pick u = .ok t) :
    EnqUnderway c p v t ∨ ∃ w, enqWhole c p v = .ok w ∧ Answering w t := by
  have htail : v.sq.tail < v.cfg.sqCap := hw.2.1
  have hlen : v.sq.slots.length = v.cfg.sqCap := hw.2.2.1
  cases h with
  | held hc =>
    subst hc
    rw [microStep_sendHeld (hold_host _ v)] at hm
    injection hm with hm
    subst hm
    split
    · exact .inl (.held rfl)
    · exact .inl .read
  | read =>
    rw [microStep_enqRead (hold_host _ v)] at hm
    injection hm with hm
    subst hm
    by_cases hfull : c = .sqEnq ∧ v.sq.isFull v.cfg.sqCap = true
    · obtain ⟨rfl, hf⟩ := hfull
      exact .inr ⟨_, enqWhole_full hf, .full p v.sq.head v.sq.tail rfl rfl ((v.sq.isFull_iff _).1 hf)⟩
    · refine .inl (.test v.sq.head (fun hn => ?_) (v.sq.isFull_eq_false_iff _).2)
      cases c with
      | send => rfl
      | sqEnq => exact absurd ⟨rfl, (v.sq.isFull_iff _).2 hn⟩ hfull
  | test i hsend htest =>
    rw [microStep_enqTest (hold_host _ v), hold_cfg] at hm
    injection hm with hm
    subst hm
    by_cases hn : nextIndex v.cfg.sqCap v.sq.tail = i
    · obtain rfl := hsend hn
      rw [if_pos (beq_iff_eq.2 hn)]
      exact .inl (.held rfl)
    · rw [if_neg (fun e => hn (beq_iff_eq.1 e))]
      exact .inl (.bound (htest hn))
  | bound hf =>
    rw [microStep_enqBound (hold_host _ v), hold_cfg] at hm
    split_ifs at hm with hs
    injection hm with hm
    subst hm
    have hs : p.size.toNat ≤ v.cfg.payloadCap := Nat.le_of_not_lt hs
    have hslot : (v.sq.slotAt v.sq.tail).pay.length = v.cfg.payloadCap := (Queue.wf_slotAt hw htail).1
    have hcopy := copying_copyIn (p := p) (sl := v.sq.slotAt v.sq.tail) (by rwa [hp]) (by rwa [hslot])
    have hu := EnqUnderway.copy (c := c) _ _ hf hs hcopy
    rw [underway_own_slot] at hu
    exact .inl hu
  | copy sl todo hf hs hcopy =>
    cases todo with
    | nil =>
      rw [microStep_enqCopy_nil (underway_host _ sl v)] at hm
      injection hm with hm
      subst hm
      refine .inr ⟨_, enqWhole_accepted hf hs, ?_⟩
      rw [enqAnswer_underway, hcopy.eq_target]
      exact .ended (enqAnswer_true_host c p _)
    | cons f fs =>
      rw [microStep_enqCopy_cons (underway_host _ sl v)] at hm
      injection hm with hm
      subst hm
      obtain ⟨k, hk, e⟩ := enqWrite_underway (c := c) (p := p) (sl := sl) (f := f) (fs := fs) pick (v := v) (by omega)
      rw [e]
      exact .inl (.copy _ _ hf hs (hcopy.write hk))

/-- An operation that whole is an enqueue of `p` is simulated by its micro-steps. -/
theorem enqueue_simulates {op : State → Out} (hp : p.pay.length = s.cfg.payloadCap)
    (hop : ∀ v, NotBegun s v → v.fault = 0#8 → op v = .next (commit v (enqWhole c p v))) :
    Simulates op fun v u => NotBegun s v ∧ EnqUnderway c p v u where
  busy h := h.2.busy
  tick hx h hw := by
    obtain ⟨hv, hu⟩ := h
    obtain ⟨u', hrun, hu'⟩ := hu.tick hv.sq hx hw
    exact ⟨u', hrun, hv.tick hx hw, hu'⟩
  micro h hf hm := by
    obtain ⟨hv, hu⟩ := h
    rcases hu.micro (hp.trans (congrArg _ hv.cfg.symm)) hv.sq hm with hu' | ⟨w, hw, ha⟩
    · exact .inl ⟨hv, hu'⟩
    · exact .inr ⟨w, by rw [hop _ hv (hu.fault_eq ▸ hf), hw]; rfl, ha⟩

end Sys2Proof.Machine
end

section
/-! SUPPORT. A dequeue in micro-steps against the dequeue whole (40_queue.md R118). An answered one executes at Q5, where
`head` is published; an RQ_DEQ of an empty queue at Q1, where `tail` is read (20_memory.md R61). -/

namespace Sys2Proof.Machine

open Sys2Proof

variable {s t u v w : State} {x : Turn} {c : DeqCaller}

/-! ### The operation whole -/

/-- A host dequeue whole: RQ_DEQ (42_link_api.md R187), or the poll of GET (R189). -/
def deqWhole (c : DeqCaller) (s : State) : Except FaultCode State :=
  match s.rq.dequeue s.cfg s.cfg.rqCap some (undefBuffer s.cfg.payloadCap) with
  | .error e => .error e
  | .ok none => .ok (deqAnswer c none s)
  | .ok (some (p, q)) => .ok (deqAnswer c (some p) { s with rq := q })

theorem deqWhole_empty (he : s.rq.isEmpty = true) : deqWhole c s = .ok (deqAnswer c none s) := by
  simp [deqWhole, Queue.dequeue, he]

theorem deqWhole_answered {bs : List Byte} (he : s.rq.isEmpty = false)
    (hs : scanSlot s.cfg.payloadCap (s.rq.slotAt s.rq.head) = .ok bs) :
    deqWhole c s = .ok (deqAnswer c
      (some (copyOut some (s.rq.slotAt s.rq.head) bs (undefBuffer s.cfg.payloadCap)))
      { s with rq := { s.rq with head := nextIndex s.cfg.rqCap s.rq.head } }) := by
  simp [deqWhole, Queue.dequeue, he, hs]

theorem tryGet_eq_deqWhole (s : State) : tryGet s = deqWhole .get s := by
  unfold tryGet deqWhole
  rcases s.rq.dequeue s.cfg s.cfg.rqCap some (undefBuffer s.cfg.payloadCap) with _ | _ | ⟨_, _⟩ <;> rfl

theorem exec_rqDeq (h : Accepting s) : exec .rqDeq s = .next (commit s (deqWhole .rqDeq s)) :=
  hostOp_of_accepting h (deqWhole .rqDeq)

theorem exec_get (h : Accepting s) : exec .get s = .next (commit s (deqWhole .get s)) := by
  rw [← tryGet_eq_deqWhole]
  exact hostOp_of_accepting h tryGet

/-- A packet returned ends the operation. -/
theorem deqAnswer_some_host (c : DeqCaller) (p : Packet) (s : State) : (deqAnswer c (some p) s).host = .idle := by
  cases c <;> rfl

/-- Q5: publishing `head` makes of the operation under way what it makes of `s`. -/
theorem deqAnswer_hold (c : DeqCaller) (p : Packet) (h : HostPhase) (q : Queue) (s : State) :
    deqAnswer c (some p) { hold h s with rq := q } = deqAnswer c (some p) { s with rq := q } := by
  cases c <;> rfl

/-! ### The operation in micro-steps -/

/-- The bytes a scan of RQ's head slot can read. -/
def headBytes (v : State) : List (Option Byte) := (v.rq.slotAt v.rq.head).pay.take v.cfg.payloadCap

theorem scanSlot_head (v : State) :
    scanSlot v.cfg.payloadCap (v.rq.slotAt v.rq.head) = scanBytes (headBytes v) := rfl

/-- `u` is `v` with a dequeue under way that will be answered, or, for GET, retried: the indices H has read, what they say
of RQ now (R60), and how far the scan and the copy are. -/
inductive DeqUnderway (c : DeqCaller) (v : State) : State → Prop
  | held : c = .get → DeqUnderway c v (hold .getHeld v)
  | read : DeqUnderway c v (hold (.deqRead c) v)
  | test (i : Nat) : (v.rq.head = i → c = .get) → (v.rq.head ≠ i → v.rq.isEmpty = false) →
      DeqUnderway c v (hold (.deqTest c i v.rq.head) v)
  | scan (j : Nat) : v.rq.isEmpty = false → NoZeroBefore (headBytes v) j →
      DeqUnderway c v (hold (.deqScan c v.rq.head j) v)
  | copy (bs : List Byte) (acc : Packet) (todo : List SlotField) : v.rq.isEmpty = false →
      scanBytes (headBytes v) = .ok bs →
      Copying (v.rq.slotAt v.rq.head) acc
        (copyOut some (v.rq.slotAt v.rq.head) bs (undefBuffer v.cfg.payloadCap)) todo →
      DeqUnderway c v (hold (.deqCopy c v.rq.head todo acc) v)

theorem DeqUnderway.busy (h : DeqUnderway c v u) : u.host ≠ .idle := by
  cases h <;> simp

theorem DeqUnderway.fault_eq (h : DeqUnderway c v u) : u.fault = v.fault := by
  cases h <;> rfl

/-- Of RQ a tick turn leaves the head and, while RQ is not empty, the slot there, and RQ not empty. -/
theorem runTurn_tick_rq (hx : isTick x = true) (h : runTurn x v = .next w) :
    w.rq.head = v.rq.head ∧
      (v.rq.isEmpty = false → w.rq.isEmpty = false ∧ w.rq.slotAt w.rq.head = v.rq.slotAt v.rq.head) := by
  obtain ⟨ds, line, htick⟩ := runTurn_tick_write hx h
  have hne := htick.rq_stays_nonempty
  have hrq : w.rq = v.rq ∨ w.rq = { v.rq with
      slots := v.rq.slots.set v.rq.tail (copyIn v.wp.toPacket (v.rq.slotAt v.rq.tail))
      tail := nextIndex v.cfg.rqCap v.rq.tail } := htick.rq_eq
  rcases hrq with e | e
  · exact ⟨by rw [e], fun he => ⟨hne he, by rw [e]⟩⟩
  · refine ⟨by rw [e], fun he => ⟨hne he, ?_⟩⟩
    rw [e]
    exact Queue.slotAt_withTailSlot_ne _ (v.rq.isEmpty_eq_false_iff.1 he)

theorem DeqUnderway.tick (h : DeqUnderway c v u) (hx : isTick x = true) (hw : runTurn x v = .next w) :
    ∃ u', runTurn x u = .next u' ∧ DeqUnderway c w u' := by
  obtain ⟨hcfg, -⟩ := runTurn_tick_keeps hx hw
  obtain ⟨hhead, hkeep⟩ := runTurn_tick_rq hx hw
  have hbytes (he : v.rq.isEmpty = false) : headBytes w = headBytes v := by
    rw [headBytes, (hkeep he).2, hcfg, headBytes]
  cases h with
  | held hc => exact ⟨_, runTurn_hold _ hx hw, .held hc⟩
  | read => exact ⟨_, runTurn_hold _ hx hw, .read⟩
  | test i hget htest =>
    refine ⟨_, runTurn_hold _ hx hw, ?_⟩
    rw [← hhead] at hget htest
    rw [← hhead]
    exact .test i hget fun hi => (hkeep (htest hi)).1
  | scan j he hz =>
    refine ⟨_, runTurn_hold _ hx hw, ?_⟩
    rw [← hbytes he] at hz
    rw [← hhead]
    exact .scan j (hkeep he).1 hz
  | copy bs acc todo he hs hcopy =>
    refine ⟨_, runTurn_hold _ hx hw, ?_⟩
    obtain ⟨hne, hslot⟩ := hkeep he
    rw [← hbytes he] at hs
    rw [← hslot, ← hcfg] at hcopy
    rw [← hhead]
    exact .copy bs acc todo hne hs hcopy

/-- Q3: the next byte of the scan, or the start of the copy. -/
theorem DeqUnderway.scanByte {j : Nat} (he : v.rq.isEmpty = false) (hz : NoZeroBefore (headBytes v) j)
    (hm : deqScanByte c v.rq.head j (hold (.deqScan c v.rq.head j) v) = .ok t) : DeqUnderway c v t := by
  unfold deqScanByte at hm
  split at hm
  case h_1 | h_2 => cases hm
  case h_3 b hb =>
    injection hm with hm
    subst hm
    by_cases h0 : b = 0#8
    · subst h0
      obtain ⟨bs, hs, hlen⟩ := hz.scanBytes_eq hb
      have hcopy := copying_copyOut (d := undefBuffer v.cfg.payloadCap) hs (by simp [undefBuffer])
      rw [hlen] at hcopy
      exact .copy bs _ _ he hs hcopy
    · rw [if_neg (by simpa using h0)]
      exact .scan (j + 1) he (hz.succ h0 hb)

/-- Q1 to Q5: the operation goes on, or executes whole here. -/
theorem DeqUnderway.micro {pick : Nat} (h : DeqUnderway c v u) (hm : microStep pick u = .ok t) :
    DeqUnderway c v t ∨ ∃ w, deqWhole c v = .ok w ∧ Answering w t := by
  cases h with
  | held hc =>
    subst hc
    rw [microStep_getHeld (hold_host _ v)] at hm
    injection hm with hm
    subst hm
    split
    · exact .inl (.held rfl)
    · exact .inl .read
  | read =>
    rw [microStep_deqRead (hold_host _ v)] at hm
    injection hm with hm
    subst hm
    by_cases hempty : c = .rqDeq ∧ v.rq.isEmpty = true
    · obtain ⟨rfl, he⟩ := hempty
      exact .inr ⟨_, deqWhole_empty he, .empty v.rq.tail v.rq.head rfl rfl (v.rq.isEmpty_iff.1 he)⟩
    · refine .inl (.test v.rq.tail (fun hn => ?_) v.rq.isEmpty_eq_false_iff.2)
      cases c with
      | get => rfl
      | rqDeq => exact absurd ⟨rfl, v.rq.isEmpty_iff.2 hn⟩ hempty
  | test i hget htest =>
    rw [microStep_deqTest (hold_host _ v)] at hm
    injection hm with hm
    subst hm
    by_cases hn : v.rq.head = i
    · obtain rfl := hget hn
      rw [if_pos (beq_iff_eq.2 hn)]
      exact .inl (.held rfl)
    · rw [if_neg (fun e => hn (beq_iff_eq.1 e))]
      exact .inl (.scan 0 (htest hn) fun k hk => absurd hk (Nat.not_lt_zero k))
  | scan j he hz =>
    rw [microStep_deqScan (hold_host _ v)] at hm
    exact .inl (.scanByte he hz hm)
  | copy bs acc todo he hs hcopy =>
    cases todo with
    | nil =>
      rw [microStep_deqCopy_nil (hold_host _ v)] at hm
      injection hm with hm
      subst hm
      refine .inr ⟨_, deqWhole_answered he ((scanSlot_head v).trans hs), ?_⟩
      rw [deqAnswer_hold, hcopy.eq_target]
      exact .ended (deqAnswer_some_host c _ _)
    | cons f fs =>
      rw [microStep_deqCopy_cons (hold_host _ v)] at hm
      injection hm with hm
      subst hm
      exact .inl (.copy bs _ _ he hs (hcopy.write (Nat.succ_pos fs.length)))

/-- An operation that whole is a dequeue is simulated by its micro-steps. -/
theorem dequeue_simulates {op : State → Out}
    (hop : ∀ v, NotBegun s v → v.fault = 0#8 → op v = .next (commit v (deqWhole c v))) :
    Simulates op fun v u => NotBegun s v ∧ DeqUnderway c v u where
  busy h := h.2.busy
  tick hx h hw := by
    obtain ⟨hv, hu⟩ := h
    obtain ⟨u', hrun, hu'⟩ := hu.tick hx hw
    exact ⟨u', hrun, hv.tick hx hw, hu'⟩
  micro h hf hm := by
    obtain ⟨hv, hu⟩ := h
    rcases hu.micro hm with hu' | ⟨w, hw, ha⟩
    · exact .inl ⟨hv, hu'⟩
    · exact .inr ⟨w, by rw [hop _ hv (hu.fault_eq ▸ hf), hw]; rfl, ha⟩

end Sys2Proof.Machine
end

section
/-! SUPPORT. The statement of 20_memory.md R61: the start of each operation, and the simulation from there. -/

namespace Sys2Proof.Proofs

open Sys2Proof Sys2Proof.Machine

variable {s t : State} {ts : List Turn}

theorem notBegun_self (hinv : Inv s) (h : Accepting s) : NotBegun s s := ⟨rfl, rfl, h.1, h.2.2, hinv.sq⟩

/-! ### The start of an operation -/

theorem beginMicro_sqEnq (snd dst : NodeId) (size : PayloadSize) (h : Accepting s) :
    beginMicro (.sqEnq snd dst size) s =
      .next (hold (.enqRead .sqEnq (hostPacket s.cfg.payloadCap snd dst size s.din)) s) := by
  rw [beginMicro, hostOp_of_accepting h, commit_ok]

theorem beginMicro_send (snd dst : NodeId) (size : PayloadSize) (h : Accepting s) :
    beginMicro (.send snd dst size) s =
      .next (if s.cfg.maxDest < dst.toNat then finish .done s
        else hold (.sendHeld (hostPacket s.cfg.payloadCap snd dst size s.din)) s) := by
  rw [beginMicro, hostOp_of_accepting h, commit_ok]

theorem beginMicro_rqDeq (h : Accepting s) : beginMicro .rqDeq s = .next (hold (.deqRead .rqDeq) s) := by
  rw [beginMicro, hostOp_of_accepting h, commit_ok]

theorem beginMicro_get (h : Accepting s) : beginMicro .get s = .next (hold .getHeld s) := by
  rw [beginMicro, hostOp_of_accepting h, commit_ok]

/-! ### One point for each operation -/

/-- An operation whose start in micro-steps is `u`, related by a simulation to `s`. -/
theorem atOnePoint_of_beginMicro {i : Instr} {u : State} {R : State → State → Prop} (hbegin : beginMicro i s = .next u)
    (hsim : Simulates (exec i) R) (hr : R s u) (hts : ∀ t ∈ ts, isTick t = true ∨ isMicro t = true)
    (hb : ∀ (k : Nat) (u : State), k < ts.length → andThen (beginMicro i s) (runTurns (ts.take k)) = .next u →
      u.host ≠ .idle)
    (hrun : andThen (beginMicro i s) (runTurns ts) = .next t) (ht : t.host = .idle) (hf : t.fault = 0#8) :
    AtOnePoint (exec i) ts s t := by
  simp only [hbegin, andThen_next] at hb hrun
  exact hsim.atOnePoint hr hts hb hrun ht hf

/-- A SEND to a destination above MAX_DEST is dropped at its start: there are no micro-steps. -/
theorem atOnePoint_send_dropped {snd dst : NodeId} {size : PayloadSize} (ha : Accepting s)
    (hd : s.cfg.maxDest < dst.toNat)
    (hb : ∀ (k : Nat) (u : State), k < ts.length →
      andThen (beginMicro (.send snd dst size) s) (runTurns (ts.take k)) = .next u → u.host ≠ .idle)
    (hrun : andThen (beginMicro (.send snd dst size) s) (runTurns ts) = .next t) :
    AtOnePoint (exec (.send snd dst size)) ts s t := by
  have hbegin : beginMicro (.send snd dst size) s = .next (finish .done s) := by
    rw [beginMicro_send snd dst size ha, if_pos hd]
  have hexec : exec (.send snd dst size) s = .next (finish .done s) := by
    rw [exec_send snd dst size ha, if_pos hd, commit_ok]
  simp only [hbegin, andThen_next] at hb hrun
  cases ts with
  | nil => exact .here hexec hrun
  | cons x ts => exact absurd rfl (hb 0 _ (Nat.succ_pos _) rfl)

/-- Settles O60: the micro-steps of an enqueue and of a dequeue simulate the operation whole, which executes where the
index is published, or, for a refusal, where the other side's index is read. -/
theorem microStepsLinearise : Obligations.MicroStepsLinearise := by
  intro s i ts hinv ha hi hts hb t hrun ht hf
  change AtOnePoint (exec i) ts s t
  have hs := notBegun_self hinv ha
  rcases hi with ⟨snd, dst, size, rfl⟩ | ⟨snd, dst, size, rfl⟩ | rfl | rfl
  · have hsim := enqueue_simulates (s := s) (c := .sqEnq) (op := exec (.sqEnq snd dst size))
      (hostPacket_length s.cfg.payloadCap snd dst size s.din) fun v hv hfv => by
        rw [exec_sqEnq snd dst size (hv.accepting hfv), hv.cfg, hv.din]
    exact atOnePoint_of_beginMicro (beginMicro_sqEnq snd dst size ha) hsim ⟨hs, .read⟩ hts hb hrun ht hf
  · by_cases hd : s.cfg.maxDest < dst.toNat
    · exact atOnePoint_send_dropped ha hd hb hrun
    · have hbegin : beginMicro (.send snd dst size) s =
          .next (hold (.sendHeld (hostPacket s.cfg.payloadCap snd dst size s.din)) s) := by
        rw [beginMicro_send snd dst size ha, if_neg hd]
      have hsim := enqueue_simulates (s := s) (c := .send) (op := exec (.send snd dst size))
        (hostPacket_length s.cfg.payloadCap snd dst size s.din) fun v hv hfv => by
          rw [exec_send snd dst size (hv.accepting hfv), hv.cfg, hv.din, if_neg hd]
      exact atOnePoint_of_beginMicro hbegin hsim ⟨hs, .held rfl⟩ hts hb hrun ht hf
  · have hsim := dequeue_simulates (s := s) (op := exec .rqDeq) fun v hv hfv => exec_rqDeq (hv.accepting hfv)
    exact atOnePoint_of_beginMicro (beginMicro_rqDeq ha) hsim ⟨hs, .read⟩ hts hb hrun ht hf
  · have hsim := dequeue_simulates (s := s) (op := exec .get) fun v hv hfv => exec_get (hv.accepting hfv)
    exact atOnePoint_of_beginMicro (beginMicro_get ha) hsim ⟨hs, .held rfl⟩ hts hb hrun ht hf

end Sys2Proof.Proofs
end

section
/-! SUPPORT. The two encodings of 30_encoding.md: a word is its fields, and decoding and encoding invert each other. -/

namespace Sys2Proof.Machine

open Sys2Proof

variable {w : Hcw} {i j : Instr}

/-! ### The fields of a host command word (R94) -/

@[simp] theorem hcwOp_append (rest : BitVec 16) (op : BitVec 4) : hcwOp (rest ++ op) = op :=
  BitVec.extractLsb'_append_eq_right

@[simp] theorem hcwRest_append (rest : BitVec 16) (op : BitVec 4) : hcwRest (rest ++ op) = rest :=
  BitVec.extractLsb'_append_eq_left

theorem hcwRest_append_hcwOp (w : Hcw) : (hcwRest w ++ hcwOp w : Hcw) = w :=
  (BitVec.extractLsb'_append_extractLsb'_eq_extractLsb' rfl).trans BitVec.extractLsb'_eq_self

theorem hcwOp_toNat (w : Hcw) : (hcwOp w).toNat = w.toNat % 16 := by
  simp [hcwOp]

theorem hcwRest_toNat (w : Hcw) : (hcwRest w).toNat = w.toNat / 16 := by
  simp only [hcwRest, BitVec.extractLsb'_toNat, Nat.shiftRight_eq_div_pow]
  omega

theorem hcwRest_eq_zero_iff (w : Hcw) : hcwRest w = 0#16 ↔ w.toNat / 16 = 0 := by
  rw [← hcwRest_toNat, ← BitVec.toNat_inj, BitVec.toNat_zero]

section
variable (op : BitVec 4) (snd dst : NodeId) (size : PayloadSize)

@[simp] theorem hcwOp_packetHcw : hcwOp (packetHcw op snd dst size) = op :=
  BitVec.extractLsb'_append_eq_right

@[simp] theorem hcwSnd_packetHcw : hcwSnd (packetHcw op snd dst size) = snd :=
  (BitVec.extractLsb'_append_eq_of_le (by decide)).trans BitVec.extractLsb'_append_eq_right

@[simp] theorem hcwDst_packetHcw : hcwDst (packetHcw op snd dst size) = dst :=
  ((BitVec.extractLsb'_append_eq_of_le (by decide)).trans (BitVec.extractLsb'_append_eq_of_le (by decide))).trans
    BitVec.extractLsb'_append_eq_right

@[simp] theorem hcwSize_packetHcw : hcwSize (packetHcw op snd dst size) = size :=
  ((BitVec.extractLsb'_append_eq_of_le (by decide)).trans (BitVec.extractLsb'_append_eq_of_le (by decide))).trans
    BitVec.extractLsb'_append_eq_left

end

/-- A packet operation's word is its fields. -/
theorem packetHcw_fields (w : Hcw) : packetHcw (hcwOp w) (hcwSnd w) (hcwDst w) (hcwSize w) = w := by
  have hhi : hcwSize w ++ hcwDst w = w.extractLsb' 8 12 := BitVec.extractLsb'_append_extractLsb'_eq_extractLsb' rfl
  have hrest : hcwSize w ++ hcwDst w ++ hcwSnd w = hcwRest w := by
    rw [hhi]
    exact BitVec.extractLsb'_append_extractLsb'_eq_extractLsb' rfl
  rw [packetHcw, hrest, hcwRest_append_hcwOp]

/-! ### The codes of a host command word (R95, R96) -/

theorem plainOp_eq_ok_iff : plainOp w i = .ok j ↔ hcwRest w = 0#16 ∧ i = j := by
  unfold plainOp
  by_cases h : hcwRest w = 0#16 <;> simp [h]

theorem plainOp_eq_error_iff {e : DecodeError} : plainOp w i = .error e ↔ hcwRest w ≠ 0#16 := by
  cases e
  unfold plainOp
  by_cases h : hcwRest w = 0#16 <;> simp [h]

/-- A non-packet operation has one encoding, the word of its OP code alone (R95). -/
theorem plainOp_ok {k : Nat} (hop : (hcwOp w).toNat = k) (h : plainOp w i = .ok j) : j = i ∧ BitVec.ofNat 20 k = w := by
  obtain ⟨hrest, rfl⟩ := plainOp_eq_ok_iff.1 h
  refine ⟨rfl, BitVec.eq_of_toNat_eq ?_⟩
  rw [hcwRest_eq_zero_iff] at hrest
  rw [hcwOp_toNat] at hop
  rw [BitVec.toNat_ofNat]
  omega

/-! ### The two inverses -/

/-- An instruction encoded as a packet operation with `w`'s own fields is encoded as `w`. -/
theorem encode_packet {op : BitVec 4} (hop : hcwOp w = op)
    (h : encode i = .hcw (packetHcw op (hcwSnd w) (hcwDst w) (hcwSize w))) : encode i = .hcw w := by
  rw [h, ← hop, packetHcw_fields]

/-- A host command word that decodes is its operation's encoding. -/
theorem encode_of_decodeHcw (h : decodeHcw w = .ok i) : encode i = .hcw w ∧ i.wf = true := by
  unfold decodeHcw at h
  split at h
  case h_1 hop | h_2 hop | h_3 hop | h_5 hop | h_6 hop | h_7 hop | h_9 hop | h_10 hop =>
    obtain ⟨rfl, rfl⟩ := plainOp_ok hop h
    exact ⟨rfl, rfl⟩
  case h_4 hop =>
    cases h
    exact ⟨encode_packet (i := .sqEnq _ _ _) (op := 3#4) (BitVec.eq_of_toNat_eq hop) rfl, rfl⟩
  case h_8 hop =>
    cases h
    exact ⟨encode_packet (i := .send _ _ _) (op := 7#4) (BitVec.eq_of_toNat_eq hop) rfl, rfl⟩
  case h_11 hop | h_12 hop =>
    cases h
    exact ⟨congrArg CodeWord.hcw (hcwRest_append_hcwOp w), by simp [Instr.wf, hop]⟩
  case h_13 =>
    cases h
    exact ⟨congrArg CodeWord.hcw (hcwRest_append_hcwOp w), decide_eq_true (by simp only [imp_false] at *; omega)⟩

/-! ### A selector is its fields (R90), and its arm's encoding (R92) -/

theorem mkSel_fields (w : Sel) : mkSel (selMode w) (selLine w) (selSqne w) (selPh w) = w := by
  revert w; decide

/-- The arm of a selector written by its fields. -/
@[simp] theorem decodeSel_mkSel (mode : BitVec 2) (line sqne : Bool) (ph : BitVec 2) :
    decodeSel (mkSel mode line sqne ph) =
      if mode == 0b10#2 then decodeRx line sqne ph
      else if mode == 0b01#2 then decodeTx line sqne ph
      else if mode == 0b00#2 then decodeIdle line sqne ph
      else .reservedMode11 line sqne ph := by
  simp only [decodeSel, selMode_mkSel, selLine_mkSel, selSqne_mkSel, selPh_mkSel]

theorem bitVec_two_cases (v : BitVec 2) : v = 0b00#2 ∨ v = 0b01#2 ∨ v = 0b10#2 ∨ v = 0b11#2 := by
  revert v; decide

theorem encode_decodeRx (line sqne : Bool) (ph : BitVec 2) :
    encode (decodeRx line sqne ph) = .sel (mkSel 0b10#2 line sqne ph) := by
  rcases bitVec_two_cases ph with rfl | rfl | rfl | rfl <;> rfl

theorem encode_decodeTx (line sqne : Bool) (ph : BitVec 2) :
    encode (decodeTx line sqne ph) = .sel (mkSel 0b01#2 line sqne ph) := by
  rcases bitVec_two_cases ph with rfl | rfl | rfl | rfl <;> rfl

theorem encode_decodeIdle (line sqne : Bool) (ph : BitVec 2) :
    encode (decodeIdle line sqne ph) = .sel (mkSel 0b00#2 line sqne ph) := by
  cases line
  · rfl
  · cases sqne <;> rfl

/-- Every selector is the encoding of the arm it decodes to. -/
theorem encode_decodeSel (w : Sel) : encode (decodeSel w) = .sel w := by
  rw [← mkSel_fields w, decodeSel_mkSel]
  rcases bitVec_two_cases (selMode w) with h | h | h | h <;> rw [h]
  · exact encode_decodeIdle ..
  · exact encode_decodeTx ..
  · exact encode_decodeRx ..
  · rfl

/-- Only the two reserved host rows restrict their operands, so an arm is well-formed. -/
theorem wf_of_encode_sel {w : Sel} (h : encode i = .sel w) : i.wf = true := by
  cases i with
  | reservedOpAB | reservedOpCF => cases h
  | _ => rfl

/-- OP 0xA and 0xB with any HCW[19:4] (R96). -/
theorem decodeHcw_reservedOpAB {op : BitVec 4} (rest : BitVec 16) (h : op.toNat = 10 ∨ op.toNat = 11) :
    decodeHcw (rest ++ op) = .ok (.reservedOpAB op rest) := by
  rcases h with h | h <;> simp [decodeHcw, h]

/-- OP 0xC to 0xF with any HCW[19:4] (R96). -/
theorem decodeHcw_reservedOpCF {op : BitVec 4} (rest : BitVec 16) (h : 12 ≤ op.toNat) :
    decodeHcw (rest ++ op) = .ok (.reservedOpCF op rest) := by
  unfold decodeHcw
  simp only [hcwOp_append, hcwRest_append]
  split
  case h_13 => rfl
  all_goals omega

/-- The word of a well-formed instruction decodes to it. -/
theorem decode_encode (h : i.wf = true) : decode (encode i) = .ok i := by
  cases i with
  | rxHdr | rxPay | rxPar | txHdr | txPay | txPar | txRel | reservedRxPh11 =>
    exact congrArg Except.ok (decodeSel_mkSel ..)
  | idleRxstart | idleClaim | idleNop | reservedMode11 => exact congrArg Except.ok (decodeSel_mkSel ..)
  | init | sqIsempty | sqIsfull | rqIsempty | rqIsfull | rqDeq | get | has => rfl
  | sqEnq snd dst size | send snd dst size => simp [decode, encode, decodeHcw]
  | reservedOpAB op rest => exact decodeHcw_reservedOpAB rest (by simpa [Instr.wf] using h)
  | reservedOpCF op rest => exact decodeHcw_reservedOpCF rest (by simpa [Instr.wf] using h)

/-- Of the OP codes, the non-packet operations reject a word, and only for HCW[19:4] not 0 (R96). -/
theorem decodeHcw_eq_error_iff (w : Hcw) :
    decodeHcw w = .error .reservedBits ↔
      (hcwOp w).toNat < 10 ∧ (hcwOp w).toNat ≠ 3 ∧ (hcwOp w).toNat ≠ 7 ∧ hcwRest w ≠ 0#16 := by
  unfold decodeHcw
  split
  case h_1 hop | h_2 hop | h_3 hop | h_5 hop | h_6 hop | h_7 hop | h_9 hop | h_10 hop =>
    simp [plainOp_eq_error_iff, hop]
  case h_4 hop | h_8 hop | h_11 hop | h_12 hop => simp [hop]
  case h_13 =>
    simp only [imp_false] at *
    exact ⟨nofun, fun h => by omega⟩

/-! ### The rows of the opcode table (R92, R95, R96) -/

variable {n : Nat}

/-- Two rows that fix some bit of a word to different values. -/
def Row.apart (a b : Row n) : Bool := (a.pattern ^^^ b.pattern) &&& a.mask &&& b.mask != 0

theorem Row.not_hits_of_apart {a b : Row n} (h : a.apart b = true) {w : BitVec n} (ha : a.hits w = true) :
    b.hits w = false := by
  rw [← Bool.not_eq_true]
  intro hb
  simp only [Row.hits, beq_iff_eq] at ha hb
  have hzero : (a.pattern ^^^ b.pattern) &&& a.mask &&& b.mask = 0 := by
    rw [← ha, ← hb]
    ext i hi
    simp only [BitVec.getElem_and, BitVec.getElem_xor, BitVec.ofNat_eq_ofNat, BitVec.getElem_zero]
    cases a.mask[i] <;> cases b.mask[i] <;> simp
  simp [Row.apart, hzero] at h

/-- In a table whose rows lie apart a word matches no second row. -/
theorem filter_hits_eq_singleton {rows : List (Row n)} (hrows : rows.Pairwise fun a b => a.apart b = true)
    {r : Row n} (hr : r ∈ rows) {w : BitVec n} (hw : r.hits w = true) : rows.filter (·.hits w) = [r] := by
  induction hrows with
  | nil => cases hr
  | @cons a rows ha _ ih =>
    rcases List.mem_cons.1 hr with rfl | hr
    · rw [List.filter_cons_of_pos (by exact hw), List.filter_eq_nil_iff.2]
      intro b hb
      simp [Row.not_hits_of_apart (ha b hb) hw]
    · have hna : a.hits w = false := by
        rw [← Bool.not_eq_true]
        intro haw
        rw [Row.not_hits_of_apart (ha r hr) haw] at hw
        cases hw
      rw [List.filter_cons_of_neg (by simp [hna]), ih hr]

theorem tickRows_apart : tickRows.Pairwise fun a b => a.apart b = true := by decide

theorem hostRows_apart : hostRows.Pairwise fun a b => a.apart b = true := by decide

/-- Every well-formed instruction's word matches the row that bears its mnemonic. -/
theorem encodesItsRow : ∀ i : Instr, Laws.EncodesItsRow.Statement i
  | .rxHdr l q => Laws.EncodesItsRow.rxHdr l q
  | .rxPay l q => Laws.EncodesItsRow.rxPay l q
  | .rxPar l q => Laws.EncodesItsRow.rxPar l q
  | .txHdr l q => Laws.EncodesItsRow.txHdr l q
  | .txPay l q => Laws.EncodesItsRow.txPay l q
  | .txPar l q => Laws.EncodesItsRow.txPar l q
  | .txRel l q => Laws.EncodesItsRow.txRel l q
  | .idleRxstart q ph => Laws.EncodesItsRow.idleRxstart q ph
  | .idleClaim ph => Laws.EncodesItsRow.idleClaim ph
  | .idleNop ph => Laws.EncodesItsRow.idleNop ph
  | .reservedRxPh11 l q => Laws.EncodesItsRow.reservedRxPh11 l q
  | .reservedMode11 l q ph => Laws.EncodesItsRow.reservedMode11 l q ph
  | .init => Laws.EncodesItsRow.init
  | .sqIsempty => Laws.EncodesItsRow.sqIsempty
  | .sqIsfull => Laws.EncodesItsRow.sqIsfull
  | .sqEnq snd dst size => Laws.EncodesItsRow.sqEnq snd dst size
  | .rqIsempty => Laws.EncodesItsRow.rqIsempty
  | .rqIsfull => Laws.EncodesItsRow.rqIsfull
  | .rqDeq => Laws.EncodesItsRow.rqDeq
  | .send snd dst size => Laws.EncodesItsRow.send snd dst size
  | .get => Laws.EncodesItsRow.get
  | .has => Laws.EncodesItsRow.has
  | .reservedOpAB op rest => Laws.EncodesItsRow.reservedOpAB op rest
  | .reservedOpCF op rest => Laws.EncodesItsRow.reservedOpCF op rest

/-- The row a selector's arm stands in matches the selector. -/
theorem exists_tickRow (w : Sel) : ∃ r ∈ tickRows, r.mnemonic = (decodeSel w).mnemonic ∧ r.hits w = true := by
  have hrow := encodesItsRow (decodeSel w) (wf_of_encode_sel (encode_decodeSel w))
  rwa [encode_decodeSel w] at hrow

/-- The row a decoded operation stands in matches its word. -/
theorem exists_hostRow (h : decodeHcw w = .ok i) : ∃ r ∈ hostRows, r.mnemonic = i.mnemonic ∧ r.hits w = true := by
  obtain ⟨hencode, hwf⟩ := encode_of_decodeHcw h
  have hrow := encodesItsRow i hwf
  rwa [hencode] at hrow

/-- A host row either fixes the whole word and has HCW[19:4] at 0, or is one of an OP that no word is rejected for. -/
theorem hostRow_kinds : ∀ r ∈ hostRows,
    (r.mask = 0xFFFFF#20 ∧ hcwRest r.pattern = 0#16) ∨
      ∀ op : BitVec 4, op &&& hcwOp r.mask = hcwOp r.pattern → op.toNat = 3 ∨ op.toNat = 7 ∨ 10 ≤ op.toNat := by
  decide

theorem hcwOp_and (v w : Hcw) : hcwOp (v &&& w) = hcwOp v &&& hcwOp w := BitVec.extractLsb'_and

/-- A rejected word matches no row. -/
theorem not_hits_of_rejected {e : DecodeError} (h : decodeHcw w = .error e) {r : Row 20} (hr : r ∈ hostRows) :
    r.hits w = false := by
  cases e
  obtain ⟨hlt, h3, h7, hrest⟩ := (decodeHcw_eq_error_iff w).1 h
  rw [← Bool.not_eq_true]
  intro hw
  have hw : w &&& r.mask = r.pattern := beq_iff_eq.1 hw
  rcases hostRow_kinds r hr with ⟨hmask, hpattern⟩ | hops
  · rw [hmask, show 0xFFFFF#20 = BitVec.allOnes 20 by decide, BitVec.and_allOnes] at hw
    exact hrest (hw ▸ hpattern)
  · have hop := hops (hcwOp w) (by rw [← hcwOp_and, hw])
    omega

end Sys2Proof.Machine
end

section
/-! SUPPORT. The statements of 30_encoding.md about the decoder and its tables. -/

namespace Sys2Proof.Proofs

open Sys2Proof Sys2Proof.Machine

/-- Settles O1, one case per constructor: a word written by its fields is read by its fields. -/
theorem encodedInstructionDecodesBack : Obligations.EncodedInstructionDecodesBack :=
  fun _ => decode_encode

/-- Settles O2: a selector is its four fields, and a host word its OP and HCW[19:4], which a code without operands fixes. -/
theorem decodedWordIsItsEncoding : Obligations.DecodedWordIsItsEncoding := by
  intro w i h
  cases w with
  | sel w =>
    cases h
    exact ⟨encode_decodeSel w, wf_of_encode_sel (encode_decodeSel w)⟩
  | hcw w => exact encode_of_decodeHcw h

/-- Settles O5, by the OP codes that look at HCW[19:4]. -/
theorem illegalHostWordRejected : Obligations.IllegalHostWordRejected := by
  intro w
  rw [decodeHcw_eq_error_iff, hcwOp_toNat, ne_eq (hcwRest w), hcwRest_eq_zero_iff]

/-- Settles O3: the arm's own row matches (R92), and the rows lie apart. -/
theorem selectorMatchesOneTableRow : Obligations.SelectorMatchesOneTableRow := by
  intro w
  obtain ⟨r, hr, hname, hw⟩ := exists_tickRow w
  rw [filter_hits_eq_singleton tickRows_apart hr hw, List.map_singleton, hname]

/-- Settles O4: a decoded word matches its operation's row, the rows lie apart, and a rejected word matches none. -/
theorem hostWordMatchesItsTableRow : Obligations.HostWordMatchesItsTableRow := by
  intro w
  cases h : decodeHcw w with
  | ok i =>
    obtain ⟨r, hr, hname, hw⟩ := exists_hostRow h
    rw [filter_hits_eq_singleton hostRows_apart hr hw, List.map_singleton, hname]
  | error e =>
    rw [List.filter_eq_nil_iff.2, List.map_nil]
    intro r hr
    simp [not_hits_of_rejected h hr]

/-- Settles O6, by evaluation of the written words. -/
theorem writtenWordsDecode : Obligations.WrittenWordsDecode := by
  unfold Obligations.WrittenWordsDecode
  decide

end Sys2Proof.Proofs
end

section
/-! SUPPORT. How a turn forms the selector (30_encoding.md R90, R91), presents a command (R94) and keeps a refusal
(60_exceptions.md R214). -/

namespace Sys2Proof.Machine

open Sys2Proof

variable {s : State} {rest : List Turn} {c : Command} {cs : List Command}

/-! ### The frame phase (R91) -/

/-- Each value of PH stands for one range of BIDX, by the size `n` assembled so far. -/
theorem framePhase_ranges (i n : Nat) :
    (framePhase i n = 0b00#2 ↔ i < 16) ∧ (framePhase i n = 0b01#2 ↔ 16 ≤ i ∧ i < 16 + 8 * n) ∧
      (framePhase i n = 0b10#2 ↔ i = 16 + 8 * n) ∧ (framePhase i n = 0b11#2 ↔ 17 + 8 * n ≤ i) := by
  unfold framePhase
  split_ifs with hheader hpayload hparity
  · simp; omega
  · simp; omega
  · simp; omega
  · simp; omega

/-! ### A host turn of an idle H (R94, R180) -/

/-- A step whose next turn is H's, with H idle, presents the next command. -/
theorem step_host_idle (ha : s.agenda = .host :: rest) (hh : s.host = .idle) :
    step s = fetchHost exec (takeTurn s) := by
  simp [step, nextTurn, ha, runTurn, hostTurn, hh]

theorem takeTurn_eq {turn : Turn} (ha : s.agenda = turn :: rest) :
    takeTurn s = { s with agenda := rest, turns := s.turns + 1 } := by
  simp [takeTurn, ha]

theorem fetchHost_of_decoded {run : Instr → State → Out} {i : Instr} (hp : s.program = c :: cs)
    (hd : decodeHcw c.hcw = .ok i) : fetchHost run s = run i (present c cs s) := by
  simp [fetchHost, hp, hd]

theorem fetchHost_of_rejected {run : Instr → State → Out} (hp : s.program = c :: cs)
    (hd : decodeHcw c.hcw = .error .reservedBits) :
    fetchHost run s = refuseWord (hcwOp c.hcw == 0#4) .reservedBits s := by
  simp [fetchHost, hp, hd]

/-! ### Refusals -/

theorem refuseWord_of_ready (hr : s.ready = true) (isInit : Bool) (r : Refusal) : refuseWord isInit r s = .refused r := by
  simp [refuseWord, hr]

/-- A rejected word is refused by R_PRE_INIT before INIT, unless its OP is INIT's, and else by its own reason (R180). -/
theorem refuseWord_hcwOp (w : Hcw) (r : Refusal) (s : State) :
    refuseWord (hcwOp w == 0#4) r s =
      .refused (if s.ready = false ∧ w.toNat % 16 ≠ 0 then .preInit else r) := by
  have hop : hcwOp w = 0#4 ↔ w.toNat % 16 = 0 := by
    rw [← BitVec.toNat_inj, hcwOp_toNat, BitVec.toNat_zero]
  unfold refuseWord
  cases s.ready <;> by_cases h : w.toNat % 16 = 0 <;> simp [hop, h]

/-- A turn on a line keeps a refusal mark once it is set. -/
theorem Bus.nodeTurn_refused {b : Bus} {m : Nat × Refusal} (h : b.refused = some m) (i : Nat) (turn : Turn) :
    (b.nodeTurn i turn).refused = some m := by
  unfold Bus.nodeTurn
  split
  · exact h
  · split
    · exact h
    · exact h
    · simp [Bus.markRefused, h]

/-- A refusal on a line with no mark yet sets the mark and changes no node. -/
theorem Bus.nodeTurn_of_refused {b : Bus} {i : Nat} {turn : Turn} {r : Refusal} (hs : b.nodes[i]? = some s)
    (hrun : runTurn turn s = .refused r) (hm : b.refused = none) :
    b.nodeTurn i turn = { b with refused := some (i, r) } := by
  simp [Bus.nodeTurn, hs, hrun, Bus.markRefused, hm]

end Sys2Proof.Machine
end

section
/-! SUPPORT. The statements of 30_encoding.md about the selector a tick forms and the words H presents. -/

namespace Sys2Proof.Proofs

open Sys2Proof Sys2Proof.Machine

/-- Settles O7: the selector's fields are those it is made of, and the ranges of BIDX give the frame phase. -/
theorem selectorFormedFromState : Obligations.SelectorFormedFromState := by
  intro s line
  unfold formSel
  rw [selMode_mkSel, selLine_mkSel, selSqne_mkSel, selPh_mkSel]
  refine ⟨?_, rfl, ?_, framePhase_ranges ..⟩
  · cases s.mode <;> rfl
  · rw [Bool.not_eq_true', Queue.isEmpty_eq_false_iff]

/-- Settles O12: an idle H takes the first command, and `exec` runs what its word decodes to. -/
theorem stepRunsPresentedOperation : Obligations.StepRunsPresentedOperation := by
  intro s rest c cs i ha hh hp hd
  rw [step_host_idle ha hh, fetchHost_of_decoded (s := takeTurn s) hp hd, takeTurn_eq ha]
  rfl

/-- Settles O13: the order of R180's checks, and for each form of the mark the one function that carries it. -/
theorem stepRefusesIllegalBits : Obligations.StepRefusesIllegalBits := by
  refine ⟨?step, ?run, fun _ _ _ _ _ => Bus.nodeTurn_of_refused, ?kept⟩
  case step =>
    intro s rest c cs ha hh hp hd
    rw [step_host_idle ha hh, fetchHost_of_rejected (s := takeTurn s) hp hd, refuseWord_hcwOp, takeTurn_ready]
  case run =>
    intro s u us vs turn r hus hturn
    rw [runTurns_append, hus, andThen_next, runTurns_cons, hturn, andThen_refused]
  case kept =>
    intro b m hm
    exact ⟨Bus.nodeTurn_refused hm, fun _ _ => hm⟩

/-- Settles O35: R_RESERVED_OP is a ready block's answer to both reserved rows. -/
theorem reservedOpRefused : Obligations.ReservedOpRefused :=
  fun _ _ _ hr => ⟨refuseWord_of_ready hr .., refuseWord_of_ready hr ..⟩

end Sys2Proof.Proofs
end

section
/-! SUPPORT. The wire frame (30_encoding.md R80 to R84): its bits by index, its parity, and the two bit accessors. -/

namespace Sys2Proof.Machine

open Sys2Proof

variable {cap i : Nat} {p : WorkPacket}

/-! ### Parity (R84) -/

@[simp] theorem xorBits_nil : xorBits [] = false := rfl

@[simp] theorem xorBits_cons (b : Bool) (bs : List Bool) : xorBits (b :: bs) = xor b (xorBits bs) := rfl

theorem xorBits_append (as bs : List Bool) : xorBits (as ++ bs) = xor (xorBits as) (xorBits bs) := by
  induction as with
  | nil => simp
  | cons a as ih => simp [ih]

/-- The xor of a sequence is the parity of its number of one bits. -/
theorem count_true_mod_two (bs : List Bool) : bs.count true % 2 = (xorBits bs).toNat := by
  induction bs with
  | nil => rfl
  | cons b bs ih =>
    cases b with
    | false => simpa using ih
    | true =>
      have hnot : ∀ x : Bool, (!x).toNat = (x.toNat + 1) % 2 := by decide
      simp [hnot, ← ih]

/-! ### Fields in order (R80) -/

@[simp] theorem fieldBits_length (n : Nat) (v : BitVec n) : (fieldBits n v).length = n := by
  simp [fieldBits]

theorem getElem?_fieldBits {n : Nat} (v : BitVec n) (h : i < n) : (fieldBits n v)[i]? = some (v.getLsbD i) := by
  simp [fieldBits, h]

theorem flatMap_fieldBits_length (l : List Byte) : (l.flatMap (fieldBits 8)).length = 8 * l.length := by
  induction l with
  | nil => rfl
  | cons b l ih => simp [ih]; omega

/-- Bit `i` of a sequence of bytes is bit `i mod 8` of byte `i / 8` (R81). -/
theorem getElem?_flatMap_fieldBits (l : List Byte) (h : i < 8 * l.length) :
    (l.flatMap (fieldBits 8))[i]? = some ((l.getD (i / 8) 0).getLsbD (i % 8)) := by
  induction l generalizing i with
  | nil => simp at h
  | cons b l ih =>
    rw [List.flatMap_cons]
    by_cases hb : i < 8
    · rw [List.getElem?_append_left (by simpa using hb), getElem?_fieldBits b hb, Nat.div_eq_of_lt hb,
        Nat.mod_eq_of_lt hb]
      rfl
    · obtain ⟨j, rfl⟩ := Nat.exists_eq_add_of_le' (Nat.le_of_not_lt hb)
      rw [List.getElem?_append_right (by simp), fieldBits_length, Nat.add_sub_cancel,
        ih (by simp at h; omega), Nat.add_div_right j (by decide), Nat.add_mod_right]
      rfl

/-- The bits of two fields put together: the low field first. -/
theorem fieldBits_append {m n : Nat} (hi : BitVec m) (lo : BitVec n) :
    fieldBits (m + n) (hi ++ lo) = fieldBits n lo ++ fieldBits m hi := by
  refine List.ext_getElem? fun k => ?_
  by_cases hlo : k < n
  · rw [List.getElem?_append_left (by simpa using hlo), getElem?_fieldBits _ (by omega), getElem?_fieldBits _ hlo,
      BitVec.getLsbD_append, if_pos hlo]
  · rw [List.getElem?_append_right (by simpa using hlo), fieldBits_length]
    by_cases hhi : k < m + n
    · rw [getElem?_fieldBits _ hhi, getElem?_fieldBits _ (by omega), BitVec.getLsbD_append, if_neg hlo]
    · rw [List.getElem?_eq_none (by simpa using hhi), List.getElem?_eq_none (by simp; omega)]

/-! ### The data bits of a frame, by index (R80, R81) -/

theorem fieldBits_headerWord (p : WorkPacket) :
    fieldBits 16 (headerWord p) = fieldBits 4 p.snd ++ (fieldBits 4 p.dst ++ fieldBits 8 p.size) :=
  (fieldBits_append (p.size ++ p.dst) p.snd).trans (congrArg (fieldBits 4 p.snd ++ ·) (fieldBits_append p.size p.dst))

/-- The header fields in the order of the frame are the header word, least-significant bit first. -/
theorem dataBits_eq (p : WorkPacket) :
    dataBits p = fieldBits 16 (headerWord p) ++ (p.pay.take p.size.toNat).flatMap (fieldBits 8) := by
  rw [dataBits, fieldBits_headerWord, List.append_assoc (fieldBits 4 p.snd)]

theorem dataBits_length (h : p.size.toNat ≤ p.pay.length) : (dataBits p).length = 16 + 8 * p.size.toNat := by
  rw [dataBits_eq, List.length_append, fieldBits_length, flatMap_fieldBits_length, List.length_take_of_le h]

theorem frame_length (h : p.size.toNat ≤ p.pay.length) : (frame p).length = frameLength p.size.toNat := by
  rw [frame, List.length_append, dataBits_length h, List.length_singleton, frameLength]
  omega

theorem getElem?_dataBits_header (h : i < 16) : (dataBits p)[i]? = some ((headerWord p).getLsbD i) := by
  rw [dataBits_eq, List.getElem?_append_left (by simpa using h), getElem?_fieldBits _ h]

theorem getElem?_dataBits_pay (hp : p.size.toNat ≤ p.pay.length) (h16 : 16 ≤ i) (h : i < 16 + 8 * p.size.toNat) :
    (dataBits p)[i]? = some ((p.pay.getD (byteIndex i) 0).getLsbD (bitInByte i)) := by
  have hbyte : byteIndex i < p.size.toNat := by unfold byteIndex; omega
  have hget : (p.pay.take p.size.toNat).getD (byteIndex i) 0 = p.pay.getD (byteIndex i) 0 := by
    simp only [List.getD_eq_getElem?_getD, List.getElem?_take_of_lt hbyte]
  rw [dataBits_eq, List.getElem?_append_right (by simpa using h16), fieldBits_length,
    getElem?_flatMap_fieldBits _ (by rw [List.length_take_of_le hp]; omega), ← hget]
  rfl

theorem getElem?_frame_data (hp : p.size.toNat ≤ p.pay.length) (hi : i < 16 + 8 * p.size.toNat) :
    (frame p)[i]? = (dataBits p)[i]? :=
  List.getElem?_append_left (by rwa [dataBits_length hp])

theorem getElem?_frame_parity (hp : p.size.toNat ≤ p.pay.length) :
    (frame p)[16 + 8 * p.size.toNat]? = some (!xorBits (dataBits p)) := by
  rw [frame, ← dataBits_length hp, List.getElem?_concat_length]

/-- The parity bit makes the number of one bits odd (R84). -/
theorem xorBits_frame (p : WorkPacket) : xorBits (frame p) = true := by
  rw [frame, xorBits_append]
  cases xorBits (dataBits p) <;> rfl

/-! ### `frameBit` (R82) -/

theorem getLsbD_headerWord (p : WorkPacket) (k : Nat) :
    (headerWord p).getLsbD k =
      if k < 4 then p.snd.getLsbD k else if k < 8 then p.dst.getLsbD (k - 4) else p.size.getLsbD (k - 8) := by
  simp only [headerWord, BitVec.getLsbD_append]
  split_ifs with h4 h4' h8 h8'
  · rfl
  · rfl
  · omega
  · omega
  · rw [Nat.sub_sub]

theorem frameBit_header (h : i < 16) : frameBit cap p i = .ok ((headerWord p).getLsbD i) := by
  rw [getLsbD_headerWord, frameBit, if_pos h]
  split_ifs <;> rfl

theorem frameBit_pay (h16 : 16 ≤ i) (h : i < 16 + 8 * cap) :
    frameBit cap p i = .ok ((p.pay.getD (byteIndex i) 0).getLsbD (bitInByte i)) := by
  have hbyte : ¬ cap ≤ byteIndex i := by unfold byteIndex; omega
  rw [frameBit, if_neg (by omega), if_neg (by omega), if_neg (by omega), if_neg hbyte]

/-- `frameBit` and the frame agree on every data bit. -/
theorem dataBits_frameBit (hp : p.size.toNat ≤ p.pay.length) (hcap : p.size.toNat ≤ cap)
    (hi : i < 16 + 8 * p.size.toNat) : ∃ b, (dataBits p)[i]? = some b ∧ frameBit cap p i = .ok b := by
  rcases Nat.lt_or_ge i 16 with h | h
  · exact ⟨_, getElem?_dataBits_header h, frameBit_header h⟩
  · exact ⟨_, getElem?_dataBits_pay hp h hi, frameBit_pay h (by omega)⟩

/-! ### `setFrameBit` (R83) -/

/-- A bit of a field that begins at index `o`, after the bit at index `i` is set. -/
theorem getLsbD_setBit_sub {n o k : Nat} (v : BitVec n) (b : Bool) (ho : o ≤ i) (hi : i < o + n) (hk : o ≤ k) :
    (setBit n v (i - o) b).getLsbD (k - o) = if k = i then b else v.getLsbD (k - o) := by
  rw [getLsbD_setBit n v _ _ b (by omega)]
  simp only [show k - o = i - o ↔ k = i by omega]

/-- A header index sets that bit of the header word and nothing else. -/
theorem setFrameBit_header (h : i < 16) (cap : Nat) (p : WorkPacket) (b : Bool) :
    ∃ p', setFrameBit cap p i b = .ok p' ∧ p'.pay = p.pay ∧
      ∀ k, k < 16 → (headerWord p').getLsbD k = if k = i then b else (headerWord p).getLsbD k := by
  simp only [getLsbD_headerWord]
  unfold setFrameBit
  split_ifs with h4 h8
  · exact ⟨_, rfl, rfl, by grind [getLsbD_setBit]⟩
  · exact ⟨_, rfl, rfl, by grind [getLsbD_setBit_sub]⟩
  · exact ⟨_, rfl, rfl, by grind [getLsbD_setBit_sub]⟩

/-- A payload index inside the buffer sets that bit of its byte and nothing else. -/
theorem setFrameBit_pay (h16 : 16 ≤ i) (h : i < 16 + 8 * cap) (p : WorkPacket) (b : Bool) :
    setFrameBit cap p i b = .ok { p with
      pay := p.pay.set (byteIndex i) (setBit 8 (p.pay.getD (byteIndex i) 0) (bitInByte i) b) } := by
  have hbyte : ¬ cap ≤ byteIndex i := by unfold byteIndex; omega
  rw [setFrameBit, if_neg (by omega), if_neg (by omega), if_neg (by omega), if_neg hbyte]

/-- A bit of a payload after one bit of one byte is set. -/
theorem getLsbD_set_setBit (l : List Byte) {j : Nat} (hj : j < l.length) {k : Nat} (hk : k < 8) (b : Bool) (m x : Nat) :
    ((l.set j (setBit 8 (l.getD j 0) k b)).getD m 0).getLsbD x =
      if m = j ∧ x = k then b else (l.getD m 0).getLsbD x := by
  by_cases hm : m = j
  · subst hm
    simp only [List.getD_eq_getElem?_getD, List.getElem?_set_self hj, Option.getD_some,
      getLsbD_setBit 8 _ _ _ _ hk, true_and]
  · simp only [List.getD_eq_getElem?_getD, List.getElem?_set_ne (Ne.symm hm), hm, false_and, if_false]

/-- Two payload indices with the same byte and the same bit in it are one index. -/
theorem eq_of_byteIndex_of_bitInByte {k : Nat} (hi : 16 ≤ i) (hk : 16 ≤ k) :
    byteIndex k = byteIndex i ∧ bitInByte k = bitInByte i ↔ k = i := by
  unfold byteIndex bitInByte
  omega

/-- A bit stored inside the buffer is read back at its own index, and every other index is as it was. -/
theorem setFrameBit_readsBack {b : Bool} (hp : p.pay.length = cap) (hi : i < 16 + 8 * cap) :
    ∃ p', setFrameBit cap p i b = .ok p' ∧ p'.pay.length = cap ∧
      ∀ k, k < 16 + 8 * cap → frameBit cap p' k = if k = i then .ok b else frameBit cap p k := by
  rcases Nat.lt_or_ge i 16 with hi16 | hi16
  · obtain ⟨p', hset, hpay, hbits⟩ := setFrameBit_header hi16 cap p b
    refine ⟨p', hset, hpay ▸ hp, fun k hk => ?_⟩
    rcases Nat.lt_or_ge k 16 with hk16 | hk16
    · rw [frameBit_header hk16, frameBit_header hk16, hbits k hk16]
      split_ifs <;> rfl
    · rw [if_neg (by omega), frameBit_pay hk16 hk, frameBit_pay hk16 hk, hpay]
  · refine ⟨_, setFrameBit_pay hi16 hi p b, by simpa using hp, fun k hk => ?_⟩
    rcases Nat.lt_or_ge k 16 with hk16 | hk16
    · rw [if_neg (by omega), frameBit_header hk16, frameBit_header hk16]
      rfl
    · have hbyte : byteIndex i < p.pay.length := by unfold byteIndex; omega
      have hbit : bitInByte i < 8 := Nat.mod_lt _ (by decide)
      rw [frameBit_pay hk16 hk, frameBit_pay hk16 hk, getLsbD_set_setBit _ hbyte hbit]
      simp only [eq_of_byteIndex_of_bitInByte hi16 hk16]
      split_ifs <;> rfl

end Sys2Proof.Machine
end

section
/-! SUPPORT. The statements of 30_encoding.md about the wire frame. -/

namespace Sys2Proof.Proofs

open Sys2Proof Sys2Proof.Machine

/-- Settles O8: the lengths of the fields add up, and the parity bit completes the xor of the data bits to 1. -/
theorem frameHasLengthAndOddParity : Obligations.FrameHasLengthAndOddParity := by
  intro p hp
  exact ⟨frame_length hp, by rw [count_true_mod_two, xorBits_frame]; rfl⟩

/-- Settles O9: the data bits come before the parity bit, and each is the header's or a payload byte's. -/
theorem frameBitReadsFrame : Obligations.FrameBitReadsFrame := by
  intro cap p i hcap hsize hi
  have hp : p.size.toNat ≤ p.pay.length := hcap ▸ hsize
  rw [getElem?_frame_data hp hi]
  exact dataBits_frameBit hp hsize hi

/-- Settles O10: a header index sets a bit of the header word, a payload index one of its byte. -/
theorem setFrameBitReadsBack : Obligations.SetFrameBitReadsBack := by
  intro cap p i b hp
  refine ⟨setFrameBit_readsBack hp, fun hi => ?_⟩
  rcases setFrameBit_cases cap p i b with ⟨hlt, -⟩ | ⟨-, herr⟩
  · omega
  · exact herr

end Sys2Proof.Proofs
end

section
/-! SUPPORT. A sender from its claim to its release (41_engine.md R145 to R150): the state after each tick, in closed
form. -/

namespace Sys2Proof.Machine

open Sys2Proof

variable {s : State} {w : WorkPacket} {q : Queue} {line : Bool}

/-! ### Runs of ticks -/

@[simp] theorem afterTicks_nil (s : State) : afterTicks [] s = s := rfl

@[simp] theorem afterTicks_cons (l : Bool) (ls : List Bool) (s : State) :
    afterTicks (l :: ls) s = afterTicks ls (afterTick l s) := rfl

theorem afterTicks_concat (ls : List Bool) (l : Bool) (s : State) :
    afterTicks (ls ++ [l]) s = afterTick l (afterTicks ls s) := by
  simp [afterTicks]

/-! ### The arms of a sender (41_engine.md R141) -/

theorem armEffect_data (hm : s.mode = .sending) (hb : s.bidx < 16 + 8 * s.wp.size.toNat) :
    armEffect line s = driveDataBit s := by
  simp [armEffect, hm, hb]

theorem armEffect_parity (hm : s.mode = .sending) (hb : s.bidx = 16 + 8 * s.wp.size.toNat) :
    armEffect line s = .ok { s with lineOut := parityBit s.par, bidx := nextBit s.cfg.bidxW s.bidx } := by
  simp [armEffect, hm, hb]

theorem armEffect_release (hm : s.mode = .sending) (hb : 16 + 8 * s.wp.size.toNat < s.bidx) :
    armEffect line s = .ok (toIdle { s with lineOe := false }) := by
  simp [armEffect, hm, show ¬ s.bidx < 16 + 8 * s.wp.size.toNat by omega,
    show ¬ s.bidx = 16 + 8 * s.wp.size.toNat by omega]

theorem armEffect_claim (hm : s.mode = .idle) (hq : s.sq.dequeue s.cfg s.cfg.sqCap id s.wp = .ok (some (w, q))) :
    armEffect true s = .ok { s with
      lineOe := true, lineOut := false, sq := q, wp := w, mode := .sending, bidx := 0, par := false } := by
  simp [armEffect, hm, Queue.not_isEmpty_of_dequeue hq, idleClaim, hq]

theorem driveDataBit_of_frameBit {b : Bool} (h : frameBit s.cfg.payloadCap s.wp s.bidx = .ok b) :
    driveDataBit s = .ok { s with lineOut := b, par := parityAdd s.par b, bidx := nextBit s.cfg.bidxW s.bidx } := by
  simp [driveDataBit, h]

/-! ### The packet a claim loads (R116, R150) -/

/-- A packet that fills the buffer of a block whose ticks reach E, and whose size fits it. -/
structure Loaded (s : State) (w : WorkPacket) : Prop where
  ticking : Ticking s
  legal : s.cfg.legal = true
  buffer : w.pay.length = s.cfg.payloadCap
  fits : w.size.toNat ≤ s.cfg.payloadCap

theorem Loaded.size_le (h : Loaded s w) : w.size.toNat ≤ w.pay.length := h.buffer ▸ h.fits

/-- A claim's dequeue copies at most the buffer over WP, and the slot's size was checked at its enqueue. -/
theorem loaded_of_dequeue (hinv : Inv s) (ht : Ticking s)
    (hq : s.sq.dequeue s.cfg s.cfg.sqCap id s.wp = .ok (some (w, q))) : Loaded s w := by
  rcases s.sq.dequeue_cases s.cfg s.cfg.sqCap id s.wp with ⟨-, e⟩ | ⟨_, -, -, e⟩ | ⟨bs, -, hscan, e⟩ <;>
    rw [e] at hq <;> cases hq
  have hbytes := (scanSlot_length_le hscan).1
  have hwp := hinv.engine.1
  refine ⟨ht, hinv.legal, ?_, (Queue.wf_slotAt hinv.sq hinv.sq.1).2⟩
  simp only [copyOut, List.length_append, List.length_map, List.length_drop]
  omega

/-! ### The ticks of a frame -/

/-- The sender `s` once it has loaded `w`, left `q` as its SQ and driven `k` bits of the frame: on the line is the low
level of the claim or the last bit driven, in PAR the parity of the data bits driven. -/
def sendingAt (s : State) (w : WorkPacket) (q : Queue) (k : Nat) : State :=
  { s with
    lineOe := true, lineOut := (false :: frame w).getD k true, sq := q, wp := w, mode := .sending, bidx := k
    par := xorBits ((dataBits w).take k) }

theorem Loaded.ticking_sendingAt (h : Loaded s w) (k : Nat) : Ticking (sendingAt s w q k) := h.ticking

theorem Loaded.nextBit_eq (h : Loaded s w) {k : Nat} (hk : k ≤ 16 + 8 * w.size.toNat) :
    nextBit s.cfg.bidxW k = k + 1 :=
  (nextBit_in_frame (s := sendingAt s w s.sq k) h.legal hk).1

/-- IDLE_CLAIM drives the line low and loads the packet. -/
theorem afterTick_claim (ht : Ticking s) (hm : s.mode = .idle)
    (hq : s.sq.dequeue s.cfg s.cfg.sqCap id s.wp = .ok (some (w, q))) : afterTick true s = sendingAt s w q 0 := by
  rw [afterTick_of_ticking ht, armEffect_claim hm hq]
  rfl

/-- TX_HDR and TX_PAY drive the next data bit. -/
theorem afterTick_data (h : Loaded s w) {k : Nat} (hk : k < 16 + 8 * w.size.toNat) :
    afterTick line (sendingAt s w q k) = sendingAt s w q (k + 1) := by
  obtain ⟨b, hbit, hframe⟩ := dataBits_frameBit h.size_le h.fits hk
  have hout : (false :: frame w).getD (k + 1) true = b := by
    rw [List.getD_cons_succ, List.getD_eq_getElem?_getD, getElem?_frame_data h.size_le hk, hbit, Option.getD_some]
  have hpar : xorBits ((dataBits w).take (k + 1)) = parityAdd (xorBits ((dataBits w).take k)) b := by
    simp [List.take_add_one, hbit, xorBits_append, parityAdd]
  rw [afterTick_of_ticking (h.ticking_sendingAt k), armEffect_data rfl hk, driveDataBit_of_frameBit hframe, commit_ok]
  simp only [sendingAt, hout, hpar, h.nextBit_eq hk.le]

/-- TX_PAR drives the parity bit and leaves PAR. -/
theorem afterTick_parity (h : Loaded s w) {k : Nat} (hk : k = 16 + 8 * w.size.toNat) :
    afterTick line (sendingAt s w q k) = sendingAt s w q (k + 1) := by
  have hlen := dataBits_length h.size_le
  have hall : (dataBits w).take k = dataBits w := List.take_of_length_le (by omega)
  have hall' : (dataBits w).take (k + 1) = dataBits w := List.take_of_length_le (by omega)
  have hout : (false :: frame w).getD (k + 1) true = parityBit (xorBits (dataBits w)) := by
    rw [List.getD_cons_succ, List.getD_eq_getElem?_getD, hk, getElem?_frame_parity h.size_le, Option.getD_some,
      parityBit]
  rw [afterTick_of_ticking (h.ticking_sendingAt k), armEffect_parity rfl hk, commit_ok]
  simp only [sendingAt, hout, hall, hall', h.nextBit_eq hk.le]

/-- Whatever a sender samples inside its frame, it drives the next bit. -/
theorem afterTick_frame (h : Loaded s w) {k : Nat} (hk : k < frameLength w.size.toNat) :
    afterTick line (sendingAt s w q k) = sendingAt s w q (k + 1) := by
  unfold frameLength at hk
  rcases Nat.lt_or_ge k (16 + 8 * w.size.toNat) with hdata | hpar
  · exact afterTick_data h hdata
  · exact afterTick_parity h (by omega)

/-- One bit of the frame a tick, from any point in it. -/
theorem afterTicks_frame (h : Loaded s w) (lines : List Bool) {k : Nat}
    (hk : k + lines.length ≤ frameLength w.size.toNat) :
    afterTicks lines (sendingAt s w q k) = sendingAt s w q (k + lines.length) := by
  induction lines generalizing k with
  | nil => rfl
  | cons l ls ih =>
    rw [List.length_cons] at hk ⊢
    rw [afterTicks_cons, afterTick_frame h (by omega), ih (by omega), Nat.add_assoc, Nat.add_comm 1]

/-- TX_REL after the frame leaves the idle sender as it was, but for SQ and the level it drove last. -/
theorem afterTick_release (h : Loaded s w) (hm : s.mode = .idle) (hi : IdleInv s) :
    afterTick line (sendingAt s w q (frameLength w.size.toNat)) =
      { s with sq := q, lineOut := (frame w).getD (16 + 8 * w.size.toNat) true } := by
  have hlen : frameLength w.size.toNat = 16 + 8 * w.size.toNat + 1 := by unfold frameLength; omega
  obtain ⟨hbidx, hpar, hwp, hoe⟩ := hi
  rw [hlen, afterTick_of_ticking (h.ticking_sendingAt _), armEffect_release rfl (Nat.lt_succ_self _), commit_ok]
  simp only [toIdle, sendingAt, List.getD_cons_succ, hm, hbidx, hpar, hwp, hoe]

end Sys2Proof.Machine
end

section
/-! SUPPORT. The statement of 41_engine.md about a sender's frame. -/

namespace Sys2Proof.Proofs

open Sys2Proof Sys2Proof.Machine

/-- Settles O56, by induction over the frame: the claim loads the packet, each tick drives one bit whatever it samples,
and the tick after the parity bit releases the line. -/
theorem senderDrivesItsFrame : Obligations.SenderDrivesItsFrame := by
  intro s w q hinv ht hm hq
  have hl := loaded_of_dequeue hinv ht hq
  have hclaim := afterTick_claim ht hm hq
  refine ⟨by rw [hclaim]; rfl, fun lines hlt l => ?_, fun lines hlen => ?_⟩
  · have hlen : (lines ++ [l]).length = lines.length + 1 := List.length_append
    rw [afterTicks_cons, hclaim, afterTicks_frame hl _ (by omega), Nat.zero_add, hlen]
    rfl
  · rcases List.eq_nil_or_concat' lines with rfl | ⟨ls, l, rfl⟩
    · cases hlen
    · rw [List.length_append, List.length_singleton, Nat.add_right_cancel_iff] at hlen
      rw [afterTicks_cons, hclaim, afterTicks_concat, afterTicks_frame hl _ (by omega), Nat.zero_add, hlen]
      exact afterTick_release hl hm (hinv.engine.2.2.1 hm)

end Sys2Proof.Proofs
end

section
/-! SUPPORT. The ring of a queue (40_queue.md R112, R113, R119): the number of packets held is the one distance below
the capacity from `head` to `tail`, and what an accepted enqueue or an answered dequeue does to it and to the
contents. -/

namespace Sys2Proof.Machine

open Sys2Proof

variable {pc cap : Nat} {q q' : Queue}

/-- The slot at `tail` is one of the storage. -/
theorem Queue.tail_lt_slots (hw : q.wf pc cap) : q.tail < q.slots.length := by
  obtain ⟨-, htail, hslots, -⟩ := hw
  rwa [hslots]

/-! ### The number of packets held (R119) -/

theorem Queue.count_lt (hw : q.wf pc cap) : q.count cap < cap := Nat.mod_lt _ (Nat.zero_lt_of_lt hw.1)

/-- Every number of steps from `head` that ends at `tail` is the count. -/
theorem Queue.count_eq_iff (hw : q.wf pc cap) {k : Nat} (hk : k < cap) :
    q.count cap = k ↔ (q.head + k) % cap = q.tail := by
  obtain ⟨hhead, htail, -⟩ := hw
  have hcount : q.count cap = if q.head ≤ q.tail then q.tail - q.head else q.tail + cap - q.head := by
    unfold Queue.count
    split_ifs with hle
    · rw [show q.tail + cap - q.head = (q.tail - q.head) + cap by omega, Nat.add_mod_right, Nat.mod_eq_of_lt (by omega)]
    · exact Nat.mod_eq_of_lt (by omega)
  have hsum : (q.head + k) % cap = if q.head + k < cap then q.head + k else q.head + k - cap := by
    split_ifs with hlt
    · exact Nat.mod_eq_of_lt hlt
    · rw [Nat.mod_eq_sub_mod (by omega), Nat.mod_eq_of_lt (by omega)]
  rw [hcount, hsum]
  split_ifs <;> omega

theorem Queue.head_add_count (hw : q.wf pc cap) : (q.head + q.count cap) % cap = q.tail :=
  (Queue.count_eq_iff hw (Queue.count_lt hw)).1 rfl

/-- R112: no packet is held iff the indices agree. -/
theorem Queue.isEmpty_iff_count (hw : q.wf pc cap) : q.isEmpty = true ↔ q.count cap = 0 := by
  rw [Queue.count_eq_iff hw (Nat.zero_lt_of_lt hw.1), Nat.add_zero, Nat.mod_eq_of_lt hw.1, q.isEmpty_iff]

theorem Queue.contents_eq_nil_iff : q.contents cap = [] ↔ q.count cap = 0 := by
  rw [Queue.contents, List.map_eq_nil_iff, List.range_eq_nil]

/-- R113: the slot after `tail` is the one at `head` iff all slots but the reserved one are held. -/
theorem Queue.isFull_iff_count (hw : q.wf pc cap) : q.isFull cap = true ↔ q.count cap = cap - 1 := by
  have hcap : 0 < cap := Nat.zero_lt_of_lt hw.1
  have hround : (q.tail + 1) % cap = q.head ↔ nextIndex cap q.tail = nextIndex cap ((q.head + (cap - 1)) % cap) := by
    rw [nextIndex, nextIndex, Nat.mod_add_mod, Nat.add_assoc, Nat.sub_add_cancel hcap, Nat.add_mod_right,
      Nat.mod_eq_of_lt hw.1]
  rw [q.isFull_iff, Queue.count_eq_iff hw (Nat.sub_one_lt_of_lt hcap), hround]
  exact ⟨fun h => (nextIndex_inj hw.2.1 (Nat.mod_lt _ hcap) h).symm, fun h => by rw [h]⟩

theorem Queue.not_isFull_iff_count (hw : q.wf pc cap) : q.isFull cap = false ↔ q.count cap < cap - 1 := by
  have hlt := Queue.count_lt hw
  rw [← Bool.not_eq_true, Queue.isFull_iff_count hw]
  omega

/-! ### The slots held, oldest first -/

/-- The queue with a packet put in the slot at `tail` and published. -/
def Queue.push (cap : Nat) (sl : Slot) (q : Queue) : Queue := { q.withTailSlot sl with tail := nextIndex cap q.tail }

/-- The queue with the packet at `head` given up. -/
def Queue.pop (cap : Nat) (q : Queue) : Queue := { q with head := nextIndex cap q.head }

/-- R114: an accepted enqueue. -/
theorem Queue.enqueue_eq_push {c : Params} {p : Packet} (h : q.enqueue c cap p = .ok (some q')) :
    q' = q.push cap (copyIn p (q.slotAt q.tail)) := Queue.enqueue_some h

/-- R114: a full queue answers false. -/
theorem Queue.enqueue_of_isFull (hf : q.isFull cap = true) (c : Params) (p : Packet) :
    q.enqueue c cap p = .ok none := by
  rw [Queue.enqueue, if_pos hf]

/-- R114: a queue that is not full accepts every packet that fits a slot. -/
theorem Queue.enqueue_of_not_isFull {c : Params} {p : Packet} (hf : q.isFull cap = false)
    (hsize : p.size.toNat ≤ c.payloadCap) :
    q.enqueue c cap p = .ok (some (q.push cap (copyIn p (q.slotAt q.tail)))) := by
  rw [Queue.enqueue, if_neg (by simp [hf]), if_neg (Nat.not_lt.2 hsize)]
  rfl

/-- R116: an answered dequeue. -/
theorem Queue.dequeue_eq_pop {α : Type} {c : Params} {f : Byte → α} {d r : PacketOf α}
    (h : q.dequeue c cap f d = .ok (some (r, q'))) : q' = q.pop cap := Queue.dequeue_some h

theorem Queue.count_push (hw : q.wf pc cap) (hf : q.isFull cap = false) (sl : Slot) :
    (q.push cap sl).count cap = q.count cap + 1 := by
  have hcount := (Queue.not_isFull_iff_count hw).1 hf
  have hwf : Queue.wf pc cap { q with tail := nextIndex cap q.tail } := Queue.wf_tail hw q.tail
  refine (Queue.count_eq_iff hwf (by omega)).2 ?_
  rw [nextIndex, ← Queue.head_add_count hw, Nat.mod_add_mod, Nat.add_assoc]

theorem Queue.count_pop (hw : q.wf pc cap) (he : q.isEmpty = false) : (q.pop cap).count cap + 1 = q.count cap := by
  have hlt := Queue.count_lt hw
  have hpos : q.count cap ≠ 0 := fun h => by
    rw [← Queue.isEmpty_iff_count hw, he] at h
    cases h
  have hpop : (q.pop cap).count cap = q.count cap - 1 := by
    refine (Queue.count_eq_iff (Queue.wf_head hw q.head) (by omega)).2 ?_
    rw [nextIndex, Nat.mod_add_mod, Nat.add_assoc, Nat.add_sub_cancel' (Nat.pos_of_ne_zero hpos)]
    exact Queue.head_add_count hw
  omega

/-- No held slot is the one at `tail`, so putting a packet there only adds it behind the others. -/
theorem Queue.contents_push (hw : q.wf pc cap) (hf : q.isFull cap = false) (sl : Slot) :
    (q.push cap sl).contents cap = q.contents cap ++ [sl] := by
  have htail := Queue.tail_lt_slots hw
  have hnew : (q.push cap sl).slotAt ((q.head + q.count cap) % cap) = sl := by
    rw [Queue.head_add_count hw]
    exact Queue.slotAt_withTailSlot sl htail
  have hold : ∀ k ∈ List.range (q.count cap),
      (q.push cap sl).slotAt ((q.head + k) % cap) = q.slotAt ((q.head + k) % cap) := fun k hk => by
    have hkc := List.mem_range.1 hk
    refine Queue.slotAt_withTailSlot_ne sl fun heq => hkc.ne' ?_
    exact (Queue.count_eq_iff hw (hkc.trans (Queue.count_lt hw))).2 heq
  rw [Queue.contents, Queue.count_push hw hf, List.range_succ, List.map_append, List.map_singleton]
  exact congrArg₂ _ (List.map_congr_left hold) (congrArg (fun x => [x]) hnew)

/-- The slot at `head` is the oldest, and giving it up leaves the others. -/
theorem Queue.contents_pop (hw : q.wf pc cap) (he : q.isEmpty = false) :
    q.contents cap = q.slotAt q.head :: (q.pop cap).contents cap := by
  have hfirst : q.slotAt ((q.head + 0) % cap) = q.slotAt q.head := by
    rw [Nat.add_zero, Nat.mod_eq_of_lt hw.1]
  have hlater : ∀ k ∈ List.range ((q.pop cap).count cap),
      q.slotAt ((q.head + (k + 1)) % cap) = (q.pop cap).slotAt (((q.pop cap).head + k) % cap) := fun k _ => by
    rw [Queue.pop, nextIndex, Nat.mod_add_mod, Nat.add_assoc, Nat.add_comm k 1]
    rfl
  rw [Queue.contents, ← Queue.count_pop hw he, List.range_succ_eq_map, List.map_cons, List.map_map, hfirst]
  exact congrArg _ (List.map_congr_left hlater)

end Sys2Proof.Machine
end

section
/-! SUPPORT. The bytes an enqueue copies into a slot (40_queue.md R114), what the scan of a dequeue answers (R115), and
the bytes a dequeue copies out (R116). -/

namespace Sys2Proof.Machine

open Sys2Proof

variable {cap : Nat} {p : Packet} {sl : Slot} {bs : List Byte} {l : List (Option Byte)}

/-! ### The copy of an enqueue (R114) -/

@[simp] theorem headerWord_copyIn (p : Packet) (sl : Slot) : headerWord (copyIn p sl) = headerWord p := rfl

theorem getElem?_copyIn (hp : p.size.toNat ≤ p.pay.length) (sl : Slot) (j : Nat) :
    (copyIn p sl).pay[j]? = if j < p.size.toNat then p.pay[j]? else sl.pay[j]? := by
  have hlen : (p.pay.take p.size.toNat).length = p.size.toNat := List.length_take_of_le hp
  split_ifs with hj
  · rw [copyIn, List.getElem?_append_left (by rwa [hlen]), List.getElem?_take_of_lt hj]
  · rw [copyIn, List.getElem?_append_right (by omega), hlen, List.getElem?_drop,
      Nat.add_sub_cancel' (Nat.le_of_not_lt hj)]

theorem Queue.getElem?_slots {q : Queue} {i : Nat} (h : i < q.slots.length) : q.slots[i]? = some (q.slotAt i) := by
  simp [Queue.slotAt, h]

/-! ### The scan of a dequeue (R115) -/

@[simp] theorem noZeroBefore_zero (l : List (Option Byte)) : NoZeroBefore l 0 :=
  fun _ hk => absurd hk (Nat.not_lt_zero _)

theorem noZeroBefore_cons_succ {a : Option Byte} {z : Nat} :
    NoZeroBefore (a :: l) (z + 1) ↔ (∃ b : Byte, b ≠ 0#8 ∧ a = some b) ∧ NoZeroBefore l z := by
  simp only [NoZeroBefore, Nat.forall_lt_succ_left, List.getElem?_cons_zero, List.getElem?_cons_succ, Option.some.injEq]

theorem noZeroBefore_iff {z : Nat} : NoZeroBefore l z ↔ ∀ j, j < z → ∃ b : Byte, l[j]? = some (some b) ∧ b ≠ 0#8 :=
  forall₂_congr fun _ _ => exists_congr fun _ => and_comm

theorem scanSlot_of_length (h : sl.pay.length = cap) : scanSlot cap sl = scanBytes sl.pay := by
  rw [scanSlot, ← h, List.take_length]

/-- A scan fails where the defined bytes other than 0x00 end: on an undef byte, or with no byte left. -/
theorem scanBytes_eq_error_iff {e : FaultCode} :
    scanBytes l = .error e ↔
      ∃ z, NoZeroBefore l z ∧ (l[z]? = some none ∧ .scanUndef = e ∨ z = l.length ∧ .scanOvr = e) := by
  induction l with
  | nil => simp [scanBytes]
  | cons a l ih =>
    rw [← Nat.or_exists_add_one]
    cases a with
    | none => simp [scanBytes, noZeroBefore_cons_succ]
    | some b =>
      by_cases hb : b = 0#8
      · simp [scanBytes, noZeroBefore_cons_succ, hb]
      · have hrest : scanBytes (some b :: l) = .error e ↔ scanBytes l = .error e := by
          cases hscan : scanBytes l <;> simp [scanBytes, hb, hscan]
        simp [hrest, ih, noZeroBefore_cons_succ, hb]

/-- A scan answers the bytes up to the place where the defined bytes other than 0x00 end in a 0x00. -/
theorem scanBytes_eq_ok_iff :
    scanBytes l = .ok bs ↔
      ∃ z, bs.length = z + 1 ∧ l[z]? = some (some 0#8) ∧ l.take (z + 1) = bs.map some ∧ NoZeroBefore l z := by
  constructor
  · intro h
    obtain ⟨-, htake, i, rfl, hi⟩ := scanBytes_ok h
    have hget : ∀ k, k < i.length + 1 → l[k]? = (i ++ [0#8])[k]?.map some := fun k hk => by
      rw [← List.getElem?_map, ← htake, List.getElem?_take_of_lt (by simpa using hk)]
    refine ⟨i.length, by simp, by simp [hget], by simpa using htake, fun k hk => ?_⟩
    exact ⟨i[k], hi _ (List.getElem_mem hk), by simp [hget k (Nat.lt_succ_of_lt hk), List.getElem?_append_left hk, hk]⟩
  · rintro ⟨z, hlen, hzero, htake, hbefore⟩
    obtain ⟨cs, hscan, hcs⟩ := hbefore.scanBytes_eq hzero
    have hmap : cs.map some = bs.map some := by rw [← htake, ← (scanBytes_ok hscan).2.1, hcs]
    rw [hscan, List.map_injective_iff.2 (Option.some_injective _) hmap]

theorem scanBytes_eq_scanUndef_iff : scanBytes l = .error .scanUndef ↔ ∃ z, l[z]? = some none ∧ NoZeroBefore l z := by
  simp [scanBytes_eq_error_iff, and_comm]

theorem scanBytes_eq_scanOvr_iff : scanBytes l = .error .scanOvr ↔ NoZeroBefore l l.length := by
  simp [scanBytes_eq_error_iff]

/-! ### The copy of a dequeue (R116) -/

/-- An answered dequeue returns the copy of the scanned slot at `head`. -/
theorem Queue.dequeue_copyOut {α : Type} {c : Params} {q q' : Queue} {f : Byte → α} {d r : PacketOf α}
    (h : q.dequeue c cap f d = .ok (some (r, q'))) :
    ∃ bs, scanSlot c.payloadCap (q.slotAt q.head) = .ok bs ∧ r = copyOut f (q.slotAt q.head) bs d := by
  rcases q.dequeue_cases c cap f d with ⟨-, e⟩ | ⟨_, -, -, e⟩ | ⟨bs, -, hscan, e⟩ <;> rw [e] at h <;> cases h
  exact ⟨bs, hscan, rfl⟩

@[simp] theorem headerWord_copyOut {α : Type} (f : Byte → α) (sl : Slot) (bs : List Byte) (d : PacketOf α) :
    headerWord (copyOut f sl bs d) = headerWord sl := rfl

theorem getElem?_copyOut_scanned (h : scanSlot cap sl = .ok bs) (d : Packet) {j : Nat} (hj : j < bs.length) :
    (copyOut some sl bs d).pay[j]? = sl.pay[j]? := by
  have hcap := (scanSlot_length_le h).1
  rw [copyOut, List.getElem?_append_left (by simpa using hj), ← (scanBytes_ok h).2.1, List.getElem?_take_of_lt hj,
    List.getElem?_take_of_lt (by omega)]

/-- In a result built on the undefined buffer only the scanned bytes are defined. -/
theorem lt_length_of_copyOut_undef {j : Nat} {b : Byte}
    (h : (copyOut some sl bs (undefBuffer cap)).pay[j]? = some (some b)) : j < bs.length := by
  by_contra hj
  rw [copyOut, List.getElem?_append_right (by simpa using hj)] at h
  simp [undefBuffer, List.getElem?_replicate] at h

end Sys2Proof.Machine
end

section
/-! SUPPORT. Runs of operations on one queue (40_queue.md R120): the slots given up are the first of those held and
filled, in order; each was filled from an accepted packet, and its packet is returned. -/

namespace Sys2Proof.Machine

open Sys2Proof

variable {c : Params} {cap : Nat} {q q' r : Queue} {p x : Packet} {sl : Slot} {os : List QueueOp}
  {ins outs : List Packet}

/-! ### One operation of a run -/

/-- A run that begins with an enqueue: a full queue and the run of the rest, or the packet accepted first. -/
theorem runQueueOps_enq_cases (h : runQueueOps c cap (.enq p :: os) q = .ok (ins, outs, r)) :
    runQueueOps c cap os q = .ok (ins, outs, r) ∨
      ∃ q' ins', q.enqueue c cap p = .ok (some q') ∧ runQueueOps c cap os q' = .ok (ins', outs, r) ∧
        ins = p :: ins' := by
  rw [runQueueOps] at h
  split at h
  · cases h
  · exact .inl h
  · rename_i q' he
    split at h <;> cases h
    exact .inr ⟨q', _, he, ‹_›, rfl⟩

/-- A run that begins with a dequeue: an empty queue and the run of the rest, or the packet returned first. -/
theorem runQueueOps_deq_cases (h : runQueueOps c cap (.deq :: os) q = .ok (ins, outs, r)) :
    runQueueOps c cap os q = .ok (ins, outs, r) ∨
      ∃ x q' outs', q.dequeue c cap some (undefBuffer c.payloadCap) = .ok (some (x, q')) ∧
        runQueueOps c cap os q' = .ok (ins, outs', r) ∧ outs = x :: outs' := by
  rw [runQueueOps] at h
  split at h
  · cases h
  · exact .inl h
  · rename_i x q' hd
    split at h <;> cases h
    exact .inr ⟨x, q', _, hd, ‹_›, rfl⟩

/-! ### The slot between the two copies -/

/-- `sl` is a slot that an accepted enqueue of `p` wrote (R114). -/
def FilledFrom (pc : Nat) (p : Packet) (sl : Slot) : Prop :=
  p.pay.length = pc ∧ p.size.toNat ≤ pc ∧ ∃ old, sl = copyIn p old

/-- `x` is what a dequeue of `sl` returns in an undefined buffer (R116). -/
def ReturnedAs (pc : Nat) (sl : Slot) (x : Packet) : Prop :=
  ∃ bs, scanSlot pc sl = .ok bs ∧ x = copyOut some sl bs (undefBuffer pc)

theorem Queue.filledFrom_of_enqueue (hp : p.pay.length = c.payloadCap) (h : q.enqueue c cap p = .ok (some q')) :
    FilledFrom c.payloadCap p (copyIn p (q.slotAt q.tail)) := by
  rcases q.enqueue_cases c cap p with ⟨-, e⟩ | ⟨-, -, e⟩ | ⟨-, hsize, -⟩
  · rw [e] at h; cases h
  · rw [e] at h; cases h
  · exact ⟨hp, hsize, _, rfl⟩

/-- A byte of the packet in its size is the slot's byte. -/
theorem FilledFrom.getElem?_pay {pc j : Nat} (h : FilledFrom pc p sl) (hj : j < p.size.toNat) :
    sl.pay[j]? = p.pay[j]? := by
  obtain ⟨hlen, hsize, old, rfl⟩ := h
  rw [getElem?_copyIn (hlen ▸ hsize), if_pos hj]

/-- The header goes through a queue unchanged. -/
theorem headerWord_through_slot {pc : Nat} (hin : FilledFrom pc p sl) (hout : ReturnedAs pc sl x) :
    headerWord x = headerWord p := by
  obtain ⟨-, -, old, rfl⟩ := hin
  obtain ⟨bs, -, rfl⟩ := hout
  rw [headerWord_copyOut, headerWord_copyIn]

/-- A byte returned within the size is the packet's. -/
theorem byte_through_slot {pc j : Nat} {b : Byte} (hin : FilledFrom pc p sl) (hout : ReturnedAs pc sl x)
    (hj : j < p.size.toNat) (hx : x.pay[j]? = some (some b)) : p.pay[j]? = some (some b) := by
  obtain ⟨bs, hscan, rfl⟩ := hout
  rw [← hin.getElem?_pay hj, ← getElem?_copyOut_scanned hscan _ (lt_length_of_copyOut_undef hx), hx]

/-- A payload with a 0x00 within its size is returned up to its first one, where the scan ends. -/
theorem text_through_slot {pc z j : Nat} (hin : FilledFrom pc p sl) (hout : ReturnedAs pc sl x)
    (hz : z < p.size.toNat) (hzero : p.pay[z]? = some (some 0#8)) (hbefore : NoZeroBefore p.pay z) (hj : j ≤ z) :
    x.pay[j]? = p.pay[j]? := by
  have hbyte : ∀ k ≤ z, (sl.pay.take pc)[k]? = p.pay[k]? := fun k hk => by
    rw [List.getElem?_take_of_lt (by have := hin.2.1; omega), hin.getElem?_pay (by omega)]
  obtain ⟨bs, hscan, rfl⟩ := hout
  have hslot : NoZeroBefore (sl.pay.take pc) z := fun k hk => by rw [hbyte k hk.le]; exact hbefore k hk
  obtain ⟨cs, hcs, hlen⟩ := hslot.scanBytes_eq (by rw [hbyte z le_rfl, hzero])
  obtain rfl : bs = cs := Except.ok.inj (hscan.symm.trans hcs)
  rw [getElem?_copyOut_scanned hscan _ (by omega), hin.getElem?_pay (by omega)]

/-! ### The run -/

/-- The slots a run fills join behind those the queue holds; those it gives up are the first of them all, and the rest
are held at the end. -/
theorem runQueueOps_contents (hw : q.wf c.payloadCap cap) (hp : ∀ p, QueueOp.enq p ∈ os → p.pay.length = c.payloadCap)
    (h : runQueueOps c cap os q = .ok (ins, outs, r)) :
    ∃ filled given, List.Forall₂ (FilledFrom c.payloadCap) ins filled ∧
      List.Forall₂ (ReturnedAs c.payloadCap) given outs ∧
      q.contents cap ++ filled = given ++ r.contents cap := by
  induction os generalizing q ins outs with
  | nil =>
    cases h
    exact ⟨[], [], .nil, .nil, by simp⟩
  | cons o os ih =>
    have hp' : ∀ p, QueueOp.enq p ∈ os → p.pay.length = c.payloadCap := fun p hm => hp p (List.mem_cons_of_mem _ hm)
    cases o with
    | enq p =>
      have hpo := hp p List.mem_cons_self
      rcases runQueueOps_enq_cases h with hrest | ⟨q', ins', he, hrest, rfl⟩
      · exact ih hw hp' hrest
      · obtain ⟨filled, given, hin, hout, heq⟩ := ih (Queue.wf_enqueue hw hpo he) hp' hrest
        refine ⟨_ :: filled, given, .cons (Queue.filledFrom_of_enqueue hpo he) hin, hout, ?_⟩
        rw [← heq, Queue.enqueue_eq_push he, Queue.contents_push hw (Queue.not_isFull_of_enqueue he), List.append_assoc,
          List.singleton_append]
    | deq =>
      rcases runQueueOps_deq_cases h with hrest | ⟨x, q', outs', hd, hrest, rfl⟩
      · exact ih hw hp' hrest
      · obtain ⟨filled, given, hin, hout, heq⟩ := ih (Queue.wf_dequeue hw hd) hp' hrest
        refine ⟨filled, _ :: given, hin, .cons (Queue.dequeue_copyOut hd) hout, ?_⟩
        rw [Queue.contents_pop hw (Queue.not_isEmpty_of_dequeue hd), ← Queue.dequeue_eq_pop hd, List.cons_append, heq,
          List.cons_append]

end Sys2Proof.Machine
end

section
/-! SUPPORT. A host operation that only answers (42_link_api.md R182, R183, R185, R186). -/

namespace Sys2Proof.Machine

open Sys2Proof

variable {s : State}

/-- It writes RES and nothing else: H was idle and is again. -/
theorem hostOp_answer (ha : Accepting s) (r : State → Result) :
    hostOp s (fun s => .ok (finish (r s) s)) = .next { s with res := r s } := by
  rw [hostOp_of_accepting ha, commit_ok, finish, ← ha.2.2]

end Sys2Proof.Machine
end

section
/-! SUPPORT. The statements of 40_queue.md about the Packet Queue. -/

namespace Sys2Proof.Proofs

open Sys2Proof Sys2Proof.Machine

/-- Settles O42, by induction over the run: from an empty queue the slots given up are the first ones filled, and a
packet goes through its slot by one copy in and one out. -/
theorem queueRunIsFifo : Obligations.QueueRunIsFifo := by
  intro c cap q r ops ins outs hw hempty hp hrun
  obtain ⟨filled, given, hin, hout, heq⟩ := runQueueOps_contents hw hp hrun
  have hnil : q.contents cap = [] :=
    Queue.contents_eq_nil_iff.2 ((Queue.isEmpty_iff_count hw).1 (q.isEmpty_iff.2 hempty))
  rw [hnil, List.nil_append] at heq
  subst heq
  have hle : outs.length ≤ ins.length := by
    rw [← hout.length_eq, hin.length_eq, List.length_append]
    exact Nat.le_add_right _ _
  refine ⟨hle, fun k p x hx hi => ?_⟩
  obtain ⟨hko, rfl⟩ := List.getElem?_eq_some_iff.1 hx
  obtain ⟨hki, rfl⟩ := List.getElem?_eq_some_iff.1 hi
  have hkg : k < given.length := hout.length_eq ▸ hko
  have hkf : k < (given ++ r.contents cap).length := hin.length_eq ▸ hki
  have hfill : FilledFrom c.payloadCap ins[k] given[k] := List.getElem_append_left hkg ▸ hin.get hki hkf
  have hret : ReturnedAs c.payloadCap given[k] outs[k] := hout.get hkg hko
  exact ⟨headerWord_through_slot hfill hret, fun j b hj => byte_through_slot hfill hret hj,
    fun z hz hzero hbefore j hj => text_through_slot hfill hret hz hzero (noZeroBefore_iff.2 hbefore) hj⟩

/-- Settles O27: one distance from `head` to `tail` counts the packets held, and it is 0 iff the indices agree. -/
theorem emptyTestReportsEmptiness : Obligations.EmptyTestReportsEmptiness := by
  refine ⟨rfl, rfl, fun s line => selSqne_mkSel .., fun pc cap q hw => ⟨q.isEmpty_iff, ?contents, ?one⟩, ?ops⟩
  case contents => rw [Queue.contents_eq_nil_iff, Queue.isEmpty_iff_count hw]
  case one =>
    rintro rfl
    exact (Queue.isEmpty_iff_count hw).2 (Nat.lt_one_iff.1 (Queue.count_lt hw))
  case ops =>
    exact fun s ha => ⟨hostOp_answer ha fun s => .bit s.sq.isEmpty, hostOp_answer ha fun s => .bit s.rq.isEmpty⟩

/-- Settles O28: all slots but the reserved one are held iff `tail`'s successor is `head`, and a ring of one slot has
only the reserved one. -/
theorem fullTestReportsFullness : Obligations.FullTestReportsFullness := by
  refine ⟨fun pc cap q hw => ⟨q.isFull_iff cap, Queue.isFull_iff_count hw, ?both, ?one⟩, ?ops⟩
  case both =>
    have hlt := Queue.count_lt hw
    rw [Queue.isFull_iff_count hw, Queue.isEmpty_iff_count hw]
    omega
  case one =>
    rintro rfl c p
    exact Queue.enqueue_of_isFull ((Queue.isFull_iff_count hw).2 (Nat.lt_one_iff.1 (Queue.count_lt hw))) c p
  case ops =>
    exact fun s ha => ⟨hostOp_answer ha fun s => .bit (s.sq.isFull s.cfg.sqCap),
      hostOp_answer ha fun s => .bit (s.rq.isFull s.cfg.rqCap)⟩

/-- Settles O38: the copy into the slot at `tail`, byte by byte, and the frame of a write to one place of a list. -/
theorem enqueueCopiesPacket : Obligations.EnqueueCopiesPacket := by
  intro c cap q p hw hp hf hsize
  have htail := Queue.tail_lt_slots hw
  have he := Queue.enqueue_of_not_isFull hf hsize
  exact ⟨_, copyIn p (q.slotAt q.tail), _, he, Queue.wf_enqueue hw hp he, rfl, rfl, Queue.getElem?_slots htail,
    List.getElem?_set_self htail, headerWord_copyIn .., getElem?_copyIn (hp ▸ hsize) _,
    fun k hk => List.getElem?_set_ne hk.symm⟩

/-- Settles O39: a scan ends where the defined bytes other than 0x00 end, by what stands there. -/
theorem scanStopsAtFirstZero : Obligations.ScanStopsAtFirstZero := by
  intro cap sl hlen
  rw [scanSlot_of_length hlen]
  refine ⟨fun bs => ?answer, ?undef, ?overrun⟩
  case answer =>
    rw [scanBytes_eq_ok_iff]
    refine exists_congr fun z => ⟨?_, ?_⟩
    · rintro ⟨hbs, hzero, htake, hbefore⟩
      refine ⟨hlen ▸ (List.getElem?_eq_some_iff.1 hzero).1, hbs, hzero, htake, fun j hj hj0 => ?_⟩
      obtain ⟨b, hb, hjb⟩ := hbefore j hj
      exact hb (by simpa using hjb.symm.trans hj0)
    · rintro ⟨-, hbs, hzero, htake, hne⟩
      refine ⟨hbs, hzero, htake, fun j hj => ?_⟩
      have hjbs : j < bs.length := by omega
      have hget : sl.pay[j]? = some (some bs[j]) := by
        rw [← List.getElem?_take_of_lt (Nat.lt_succ_of_lt hj), htake, List.getElem?_map, List.getElem?_eq_getElem hjbs]
        rfl
      exact ⟨bs[j], fun h0 => hne j hj (hget.trans (by rw [h0])), hget⟩
  case undef => simp only [scanBytes_eq_scanUndef_iff, noZeroBefore_iff]
  case overrun => rw [scanBytes_eq_scanOvr_iff, hlen, noZeroBefore_iff]

/-- Settles O40: `tail` is one past the slots held and `head` the first of them, so an enqueue adds behind and a dequeue
takes the first. -/
theorem queueHoldsPacketsInOrder : Obligations.QueueHoldsPacketsInOrder := by
  intro c cap q hw
  refine ⟨fun p q' he => ?enqueue, fun d r q' hd => ?dequeue⟩
  case enqueue =>
    rw [Queue.enqueue_eq_push he, Queue.contents_push hw (Queue.not_isFull_of_enqueue he)]
  case dequeue =>
    obtain ⟨bs, -, rfl⟩ := Queue.dequeue_copyOut hd
    rw [Queue.contents_pop hw (Queue.not_isEmpty_of_dequeue hd), Queue.dequeue_eq_pop hd]
    exact ⟨rfl, headerWord_copyOut .., rfl, rfl⟩

/-- Settles O41: the count is a distance below the capacity, C - 1 iff the queue is full, and one more after an
enqueue. -/
theorem queueAcceptsUpToCapacity : Obligations.QueueAcceptsUpToCapacity := by
  intro c cap q p hw hsize
  have hlt := Queue.count_lt hw
  refine ⟨Nat.le_sub_one_of_lt hlt, fun h => (Queue.isEmpty_iff_count hw).1 (q.isEmpty_iff.2 h), fun hless => ?accepts,
    fun hall => Queue.enqueue_of_isFull ((Queue.isFull_iff_count hw).2 hall) c p⟩
  case accepts =>
    have hf := (Queue.not_isFull_iff_count hw).2 hless
    exact ⟨_, Queue.enqueue_of_not_isFull hf hsize, Queue.count_push hw hf _⟩

end Sys2Proof.Proofs
end

section
/-! SUPPORT. A packet assembled bit by bit (30_encoding.md R81 to R83): the data bits it holds at its first frame
indices, and what they say of its fields. -/

namespace Sys2Proof.Machine

open Sys2Proof

variable {cap : Nat} {bs : List Bool} {b : Bool} {p w : WorkPacket}

/-! ### Sequences of bits -/

/-- One more bit joins the parity of the first ones. -/
theorem xorBits_take_succ {l : List Bool} {k : Nat} (h : l[k]? = some b) :
    xorBits (l.take (k + 1)) = parityAdd (xorBits (l.take k)) b := by
  simp [List.take_add_one, h, xorBits_append, parityAdd]

theorem xorBits_concat (bs : List Bool) (b : Bool) : xorBits (bs ++ [b]) = parityAdd (xorBits bs) b := by
  simp [xorBits_append, parityAdd]

/-! ### Assembled packets -/

/-- The packet `p` fills a buffer of `cap` bytes and holds the bits `bs` at its first frame indices. -/
structure Assembled (cap : Nat) (bs : List Bool) (p : WorkPacket) : Prop where
  buffer : p.pay.length = cap
  bits : ∀ k b, bs[k]? = some b → frameBit cap p k = .ok b

theorem assembled_nil (h : p.pay.length = cap) : Assembled cap [] p := ⟨h, fun _ _ hk => nomatch hk⟩

/-- The bit stored at the next index is held after those before it (R83). -/
theorem Assembled.store (h : Assembled cap bs p) (hlen : bs.length < 16 + 8 * cap) (b : Bool) :
    ∃ p', setFrameBit cap p bs.length b = .ok p' ∧ Assembled cap (bs ++ [b]) p' := by
  obtain ⟨p', hset, hbuffer, hread⟩ := setFrameBit_readsBack (b := b) h.buffer hlen
  refine ⟨p', hset, hbuffer, fun k c hk => ?_⟩
  have hlt := (List.getElem?_eq_some_iff.1 hk).1
  rw [List.length_append, List.length_singleton] at hlt
  rw [hread k (by omega)]
  split_ifs with he
  · subst he
    rw [List.getElem?_concat_length] at hk
    rw [Option.some.inj hk]
  · rw [List.getElem?_append_left (by omega)] at hk
    exact h.bits k c hk

/-- A data bit that the buffer holds is the one `frameBit` reads, even where the size field announces more bytes. -/
theorem frameBit_of_getElem?_dataBits (hp : p.pay.length = cap) {k : Nat} (hcap : k < 16 + 8 * cap)
    (hk : (dataBits p)[k]? = some b) : frameBit cap p k = .ok b := by
  rcases Nat.lt_or_ge k 16 with h16 | h16
  · rw [getElem?_dataBits_header h16] at hk
    rw [frameBit_header h16, Option.some.inj hk]
  · have hlen := (List.getElem?_eq_some_iff.1 hk).1
    rw [dataBits_eq, List.length_append, fieldBits_length, flatMap_fieldBits_length] at hlen
    have hbyte : (k - 16) / 8 < p.size.toNat := by
      rw [List.length_take] at hlen
      omega
    rw [dataBits_eq, List.getElem?_append_right (by simpa using h16), fieldBits_length,
      getElem?_flatMap_fieldBits _ (by omega), List.getD_eq_getElem?_getD, List.getElem?_take_of_lt hbyte] at hk
    rw [frameBit_pay h16 hcap, List.getD_eq_getElem?_getD, ← Option.some.inj hk]
    rfl

/-- A packet holds its own data bits, as far as its buffer goes. -/
theorem assembled_take_dataBits (hp : p.pay.length = cap) {k : Nat} (hcap : k ≤ 16 + 8 * cap) :
    Assembled cap ((dataBits p).take k) p where
  buffer := hp
  bits i b hi := by
    have hik : i < k := by
      have := (List.getElem?_eq_some_iff.1 hi).1
      rw [List.length_take] at this
      omega
    rw [List.getElem?_take_of_lt hik] at hi
    exact frameBit_of_getElem?_dataBits hp (by omega) hi

/-- The number of data bits that the buffer of a packet holds. -/
theorem dataBits_length_eq (hp : p.pay.length = cap) :
    (dataBits p).length = min (16 + 8 * p.size.toNat) (16 + 8 * cap) := by
  rw [dataBits_eq, List.length_append, fieldBits_length, flatMap_fieldBits_length, List.length_take, hp]
  omega

/-- The bits held are the packet's first data bits. -/
theorem Assembled.take_dataBits (h : Assembled cap bs p) (hsize : bs.length ≤ 16 + 8 * p.size.toNat)
    (hcap : bs.length ≤ 16 + 8 * cap) : (dataBits p).take bs.length = bs := by
  have hlen := dataBits_length_eq h.buffer
  refine List.ext_getElem (by rw [List.length_take]; omega) fun k hk hkb => ?_
  have hd : (dataBits p)[k]? = some (dataBits p)[k] := List.getElem?_eq_getElem (by omega)
  have hown := frameBit_of_getElem?_dataBits h.buffer (by omega) hd
  have hbit := h.bits k bs[k] (List.getElem?_eq_getElem hkb)
  rw [List.getElem_take]
  exact Except.ok.inj (hown.symm.trans hbit)

/-! ### The fields of an assembled packet -/

/-- The size field among the bits of a frame, frame indices 8 to 15, is `n` as far as the bits go (R81). -/
def SizeField (n : PayloadSize) (bs : List Bool) : Prop :=
  ∀ k b, k < 8 → bs[8 + k]? = some b → b = n.getLsbD k

theorem SizeField.of_append {n : PayloadSize} {cs : List Bool} (h : SizeField n (bs ++ cs)) : SizeField n bs :=
  fun k b hk hb => h k b hk (by rw [List.getElem?_append_left (List.getElem?_eq_some_iff.1 hb).1, hb])

/-- Once the header is in, the size is the one its bits give. -/
theorem Assembled.size_eq {n : PayloadSize} (h : Assembled cap bs p) (hn : SizeField n bs) (hlen : 16 ≤ bs.length) :
    p.size = n := by
  refine BitVec.eq_of_getLsbD_eq fun k hk => ?_
  have hget : bs[8 + k]? = some bs[8 + k] := List.getElem?_eq_getElem (by omega)
  have hbit := h.bits _ _ hget
  rw [frameBit_header (by omega), getLsbD_headerWord, if_neg (by omega), if_neg (by omega), Nat.add_sub_cancel_left]
    at hbit
  rw [Except.ok.inj hbit, hn k _ hk hget]

theorem sizeField_dataBits (w : WorkPacket) : SizeField w.size (dataBits w) := fun k b hk hb => by
  rw [getElem?_dataBits_header (by omega), getLsbD_headerWord, if_neg (by omega), if_neg (by omega),
    Nat.add_sub_cancel_left] at hb
  exact (Option.some.inj hb).symm

/-- A packet that holds the header bits of `w` has its header. -/
theorem Assembled.headerWord_eq (h : Assembled cap (dataBits w) p) : headerWord p = headerWord w := by
  refine BitVec.eq_of_getLsbD_eq fun k hk => ?_
  have hbit := h.bits k _ (getElem?_dataBits_header hk)
  rw [frameBit_header hk] at hbit
  exact Except.ok.inj hbit

/-- A packet that holds the data bits of `w` has its payload bytes, up to the size. -/
theorem Assembled.take_pay_eq (h : Assembled cap (dataBits w) p) (hw : w.pay.length = cap)
    (hsize : w.size.toNat ≤ cap) : p.pay.take w.size.toNat = w.pay.take w.size.toNat := by
  have hp := h.buffer
  refine List.ext_getElem (by rw [List.length_take, List.length_take]; omega) fun j hj hjw => ?_
  rw [List.length_take] at hj hjw
  rw [List.getElem_take, List.getElem_take]
  refine BitVec.eq_of_getLsbD_eq fun k hk => ?_
  have hbyte : byteIndex (16 + (8 * j + k)) = j := by unfold byteIndex; omega
  have hpos : bitInByte (16 + (8 * j + k)) = k := by unfold bitInByte; omega
  have hbit := h.bits _ _ (getElem?_dataBits_pay (hw ▸ hsize) (Nat.le_add_right 16 (8 * j + k)) (by omega))
  rw [frameBit_pay (by omega) (by omega), hbyte, hpos] at hbit
  simpa [show j < p.pay.length by omega, show j < w.pay.length by omega] using hbit

/-- The header word is the three header fields. -/
theorem headerWord_inj {a b : WorkPacket} (h : headerWord a = headerWord b) :
    a.snd = b.snd ∧ a.dst = b.dst ∧ a.size = b.size := by
  have append_inj {m n : Nat} {x x' : BitVec m} {y y' : BitVec n} (h : x ++ y = x' ++ y') : x = x' ∧ y = y' := by
    have hhi := congrArg (BitVec.extractLsb' n m) h
    have hlo := congrArg (BitVec.extractLsb' 0 n) h
    rw [BitVec.extractLsb'_append_eq_left, BitVec.extractLsb'_append_eq_left] at hhi
    rw [BitVec.extractLsb'_append_eq_right, BitVec.extractLsb'_append_eq_right] at hlo
    exact ⟨hhi, hlo⟩
  obtain ⟨h, hsnd⟩ := append_inj h
  obtain ⟨hsize, hdst⟩ := append_inj h
  exact ⟨hsnd, hdst, hsize⟩

/-- What a queue takes of a packet is its header and the bytes within its size (40_queue.md R114). -/
theorem Queue.enqueue_congr {c : Params} {q : Queue} {a b : WorkPacket} {qcap : Nat}
    (hheader : headerWord a = headerWord b) (hpay : a.pay.take b.size.toNat = b.pay.take b.size.toNat) :
    q.enqueue c qcap a.toPacket = q.enqueue c qcap b.toPacket := by
  obtain ⟨hsnd, hdst, hsize⟩ := headerWord_inj hheader
  have hcopy (sl : Slot) : copyIn a.toPacket sl = copyIn b.toPacket sl := by
    simp only [copyIn, PacketOf.toPacket, hsnd, hdst, hsize, ← List.map_take, hpay]
  simp only [Queue.enqueue, hcopy, show a.toPacket.size = b.toPacket.size from hsize]

end Sys2Proof.Machine
end

section
/-! SUPPORT. A tick keeps the invariant of the block (41_engine.md R155, 40_queue.md R121, 20_memory.md R60). -/

namespace Sys2Proof.Machine

open Sys2Proof

variable {s t : State} {line : Bool}

/-! ### The engine (R155) -/

/-- A payload bit leaves the size. -/
theorem setFrameBit_size {cap i : Nat} {p p' : WorkPacket} {b : Bool} (h16 : 16 ≤ i)
    (h : setFrameBit cap p i b = .ok p') : p'.size = p.size := by
  rcases setFrameBit_cases cap p i b with ⟨hi, -⟩ | ⟨-, e⟩
  · rw [setFrameBit_pay h16 hi] at h
    cases h
    rfl
  · rw [e] at h
    cases h

/-- RX_HDR and RX_PAY: PAR and WP take in the bit sampled together. -/
theorem receivingInv_store {p : WorkPacket} (hbuffer : s.wp.pay.length = s.cfg.payloadCap) (hr : ReceivingInv s)
    (hb : s.bidx < 16 + 8 * s.wp.size.toNat) (hset : setFrameBit s.cfg.payloadCap s.wp s.bidx line = .ok p) :
    p.pay.length = s.cfg.payloadCap ∧
      ReceivingInv { s with wp := p, par := parityAdd s.par line, bidx := s.bidx + 1 } := by
  obtain ⟨hoe, -, hcap, hpar⟩ := hr
  have hfits : s.bidx < 16 + 8 * s.cfg.payloadCap := by
    rcases setFrameBit_cases s.cfg.payloadCap s.wp s.bidx line with ⟨hlt, -⟩ | ⟨-, e⟩
    · exact hlt
    · rw [e] at hset; cases hset
  have hlen : ((dataBits s.wp).take s.bidx).length = s.bidx := by
    rw [List.length_take, dataBits_length_eq hbuffer]
    omega
  obtain ⟨p', hset', hp'⟩ := (assembled_take_dataBits hbuffer hcap).store (by rwa [hlen]) line
  rw [hlen, hset] at hset'
  cases hset'
  have hsize : s.bidx + 1 ≤ 16 + 8 * p.size.toNat := by
    rcases Nat.lt_or_ge s.bidx 16 with h16 | h16
    · omega
    · rw [setFrameBit_size h16 hset]; exact hb
  have htake := hp'.take_dataBits
  rw [List.length_append, List.length_singleton, hlen] at htake
  refine ⟨hp'.buffer, hoe, hsize, hfits, ?_⟩
  show parityAdd s.par line = xorBits ((dataBits p).take (s.bidx + 1))
  rw [htake hsize hfits, xorBits_concat, hpar, sentParity]

/-- TX_HDR and TX_PAY: PAR takes in the bit driven. -/
theorem sendingInv_drive {b : Bool} (hbuffer : s.wp.pay.length = s.cfg.payloadCap) (hsend : SendingInv s)
    (hb : s.bidx < 16 + 8 * s.wp.size.toNat) (hbit : frameBit s.cfg.payloadCap s.wp s.bidx = .ok b) :
    SendingInv { s with lineOut := b, par := parityAdd s.par b, bidx := s.bidx + 1 } := by
  obtain ⟨hoe, hsize, -, hpar⟩ := hsend
  refine ⟨hoe, hsize, by show s.bidx + 1 ≤ 17 + 8 * s.wp.size.toNat; omega, fun _ => ?_⟩
  obtain ⟨b', hget, hbit'⟩ := dataBits_frameBit (hbuffer ▸ hsize) hsize hb
  rw [hbit] at hbit'
  cases hbit'
  show parityAdd s.par b = xorBits ((dataBits s.wp).take (s.bidx + 1))
  rw [xorBits_take_succ hget, hpar (by omega), sentParity]

/-- The engine invariants in each mode, from the one that applies. -/
theorem engineInv_idle (hbuffer : s.wp.pay.length = s.cfg.payloadCap) (hm : s.mode = .idle) (h : IdleInv s) :
    EngineInv s :=
  ⟨hbuffer, by simp [hm], fun _ => h, by simp [hm], by simp [hm]⟩

theorem engineInv_sending (hbuffer : s.wp.pay.length = s.cfg.payloadCap) (hm : s.mode = .sending) (h : SendingInv s) :
    EngineInv s :=
  ⟨hbuffer, by simp [hm], by simp [hm], fun _ => h, by simp [hm]⟩

theorem engineInv_receiving (hbuffer : s.wp.pay.length = s.cfg.payloadCap) (hm : s.mode = .receiving)
    (h : ReceivingInv s) : EngineInv s :=
  ⟨hbuffer, by simp [hm], by simp [hm], by simp [hm], fun _ => h⟩

@[simp] theorem zeroPacket_length (cap : Nat) : (zeroPacket cap).pay.length = cap := by simp [zeroPacket]

/-- The return to IDLE with the line released. -/
theorem engineInv_toIdle (hoe : s.lineOe = false) : EngineInv (toIdle s) :=
  engineInv_idle (by simp) rfl ⟨rfl, rfl, rfl, hoe⟩

theorem Inv.idle (h : Inv s) (hm : s.mode = .idle) : IdleInv s := by
  obtain ⟨-, -, hidle, -⟩ := h.engine
  exact hidle hm

/-- A tick keeps the engine invariants. -/
theorem TickWrite.engine (h : TickWrite line s t) (hi : Inv s) : EngineInv t := by
  obtain ⟨hbuffer, -, hidle, hsend, hrecv⟩ := hi.engine
  have hnext (hb : s.bidx ≤ 16 + 8 * s.wp.size.toNat) : nextBit s.cfg.bidxW s.bidx = s.bidx + 1 :=
    (nextBit_in_frame hi.legal hb).1
  cases h with
  | gated | raised | nop => exact hi.engine
  | storeBit p _ hm hb hset =>
    obtain ⟨hp, hr⟩ := receivingInv_store hbuffer (hrecv hm) hb hset
    rw [hnext hb.le]
    exact engineInv_receiving hp hm hr
  | dropPacket _ hm => exact engineInv_toIdle (hrecv hm).1
  | deliverPacket q _ hm => exact engineInv_toIdle (hrecv hm).1
  | driveBit b _ hm hb hbit =>
    rw [hnext hb.le]
    exact engineInv_sending hbuffer hm (sendingInv_drive hbuffer (hsend hm) hb hbit)
  | driveParity _ hm hb =>
    obtain ⟨hoe, hsize, -, -⟩ := hsend hm
    rw [hnext hb.le]
    refine engineInv_sending hbuffer hm ⟨hoe, hsize, ?_, ?_⟩ <;> simp only <;> omega
  | release => exact engineInv_toIdle rfl
  | startReceive _ hm =>
    obtain ⟨-, -, -, hoe⟩ := hidle hm
    exact engineInv_receiving (by simp) rfl ⟨hoe, Nat.zero_le _, Nat.zero_le _, rfl⟩
  | claim p q ht _ _ hq =>
    have hl := loaded_of_dequeue hi ht hq
    exact engineInv_sending hl.buffer rfl ⟨rfl, hl.fits, Nat.zero_le _, fun _ => rfl⟩

/-! ### H between two micro-steps (20_memory.md R60) -/

/-- H's claims rest on its own phase and indices, on SQ not being full and on RQ not being empty. -/
theorem hostInv_mono (hcfg : t.cfg = s.cfg) (hhost : t.host = s.host) (htail : t.sq.tail = s.sq.tail)
    (hhead : t.rq.head = s.rq.head)
    (hroom : s.sq.isFull s.cfg.sqCap = false → t.sq.isFull s.cfg.sqCap = false)
    (hpacket : s.rq.isEmpty = false → t.rq.isEmpty = false) (h : hostInv s = true) : hostInv t = true := by
  unfold hostInv at h ⊢
  rw [hhost, hcfg, htail, hhead]
  revert h
  cases s.host with
  | idle | sendHeld | getHeld | enqRead | deqRead => exact id
  | enqTest =>
    simp only [Bool.and_eq_true, Bool.or_eq_true, Bool.not_eq_true']
    exact fun ⟨hown, h⟩ => ⟨hown, h.imp_right hroom⟩
  | deqTest =>
    simp only [Bool.and_eq_true, Bool.or_eq_true, Bool.not_eq_true']
    exact fun ⟨hown, h⟩ => ⟨hown, h.imp_right hpacket⟩
  | enqBound | enqCopy =>
    simp only [Bool.and_eq_true, Bool.not_eq_true']
    exact fun ⟨hown, h⟩ => ⟨hown, hroom h⟩
  | deqScan | deqCopy =>
    simp only [Bool.and_eq_true, Bool.not_eq_true']
    exact fun ⟨hown, h⟩ => ⟨hown, hpacket h⟩

theorem TickWrite.host (h : TickWrite line s t) (hi : Inv s) : hostInv t = true := by
  obtain ⟨hcfg, -, -, -, hhost, -⟩ := h.keeps_host_fields
  have htail : t.sq.tail = s.sq.tail := by rcases h.sq_eq with e | e <;> rw [e]
  have hhead : t.rq.head = s.rq.head := by rcases h.rq_eq with e | e <;> rw [e]
  exact hostInv_mono hcfg hhost htail hhead (h.sq_stays_not_full hi.sq) h.rq_stays_nonempty hi.host

/-! ### The queues (40_queue.md R121) and the other terms -/

theorem TickWrite.sq_wf (h : TickWrite line s t) (hi : Inv s) : t.sq.wf s.cfg.payloadCap s.cfg.sqCap := by
  rcases h.sq_eq with e | e <;> rw [e]
  · exact hi.sq
  · exact Queue.wf_head hi.sq _

theorem TickWrite.rq_wf (h : TickWrite line s t) (hi : Inv s) : t.rq.wf s.cfg.payloadCap s.cfg.rqCap := by
  cases h with
  | deliverPacket q _ _ _ _ hq =>
    exact Queue.wf_enqueue hi.rq (by simpa [PacketOf.toPacket] using hi.engine.1) hq
  | _ => exact hi.rq

theorem TickWrite.bidx_lt (h : TickWrite line s t) (hi : Inv s) : t.bidx < 2 ^ s.cfg.bidxW := by
  rcases h.bidx_cases with e | e | ⟨-, e⟩ <;> rw [e]
  · exact hi.bidxWidth
  · exact Nat.two_pow_pos _
  · exact nextBit_lt _ _

/-- No fault code sets a reserved FAULT bit (60_exceptions.md R213). -/
theorem raise_faultBits (c : FaultCode) (h : s.fault &&& 0xC0#8 = 0#8) : (raise c s).fault &&& 0xC0#8 = 0#8 := by
  have hmask : faultMask c &&& 0xC0#8 = 0#8 := by cases c <;> rfl
  rw [raise_fault, BitVec.and_comm, BitVec.and_or_distrib_left, BitVec.and_comm, h, BitVec.and_comm, hmask]
  rfl

theorem TickWrite.faultBits (h : TickWrite line s t) (hi : Inv s) : t.fault &&& 0xC0#8 = 0#8 := by
  cases h with
  | raised c => exact raise_faultBits c hi.faultBits
  | _ => exact hi.faultBits

/-- Before INIT no tick reaches E. -/
theorem TickWrite.of_not_ready (h : TickWrite line s t) (hr : t.ready = false) : t = s := by
  obtain ⟨-, hready, -⟩ := h.keeps_host_fields
  have hgate : ¬ Ticking s := fun ht => by rw [hready, ht.1] at hr; cases hr
  cases h with
  | gated => rfl
  | _ => exact absurd ‹Ticking s› hgate

/-- A tick keeps the invariant. -/
theorem TickWrite.inv (h : TickWrite line s t) (hi : Inv s) : Inv t := by
  obtain ⟨hcfg, -⟩ := h.keeps_host_fields
  have hboot (hr : t.ready = false) : t = s := h.of_not_ready hr
  exact {
    legal := hcfg ▸ hi.legal
    sq := hcfg ▸ h.sq_wf hi
    rq := hcfg ▸ h.rq_wf hi
    bidxWidth := hcfg ▸ h.bidx_lt hi
    engine := h.engine hi
    host := h.host hi
    boot := fun hr => hboot hr ▸ hi.boot (hboot hr ▸ hr)
    faultBits := h.faultBits hi }

end Sys2Proof.Machine
end

section
/-! SUPPORT. A host turn, whole or one micro-step, keeps the invariant of the block: SQ, whose producer H is, and what H
has read between two micro-steps (20_memory.md R60), then the rest, which no host turn but INIT writes. -/

namespace Sys2Proof.Machine

open Sys2Proof

variable {s t : State}

/-! ### H's part of the invariant -/

/-- The terms of `Inv` that a host turn has to restore. -/
structure HostPart (s : State) : Prop where
  sq : s.sq.wf s.cfg.payloadCap s.cfg.sqCap
  phase : hostInv s = true
  boot : s.ready = false → s.host = .idle

theorem Inv.hostPart (h : Inv s) : HostPart s := ⟨h.sq, h.host, fun hr => (h.boot hr).2⟩

/-- An idle H has read nothing. -/
theorem hostPart_of_idle (hsq : s.sq.wf s.cfg.payloadCap s.cfg.sqCap) (hh : s.host = .idle) : HostPart s :=
  ⟨hsq, by simp [hostInv, hh], fun _ => hh⟩

/-- After INIT H may be anywhere that its claims hold. -/
theorem hostPart_of_ready (hsq : s.sq.wf s.cfg.payloadCap s.cfg.sqCap) (hr : s.ready = true) (hh : hostInv s = true) :
    HostPart s :=
  ⟨hsq, hh, fun hn => by rw [hr] at hn; cases hn⟩

/-- A busy H has been started by an operation after INIT. -/
theorem HostPart.ready_of_busy (h : HostPart s) (hb : s.host ≠ .idle) : s.ready = true := by
  cases hr : s.ready with
  | true => rfl
  | false => exact absurd (h.boot hr) hb

theorem HostPart.raise (h : HostPart s) (c : FaultCode) : HostPart (raise c s) := ⟨h.sq, h.phase, h.boot⟩

theorem HostPart.commit {r : Except FaultCode State} (h : HostPart s) (hc : commit s r = t)
    (hr : ∀ u, r = .ok u → HostPart u) : HostPart t := by
  rcases commit_cases hc with hok | ⟨c, -, rfl⟩
  · exact hr t hok
  · exact h.raise c

theorem HostPart.finish (h : HostPart s) (r : Result) : HostPart (finish r s) := hostPart_of_idle h.sq rfl

/-! ### Whole operations (42_link_api.md R181 to R190) -/

theorem HostPart.hostOp {run : State → Except FaultCode State} (h : HostPart s) (ho : hostOp s run = .next t)
    (hr : s.ready = true → ∀ u, run s = .ok u → HostPart u) : HostPart t := by
  obtain ⟨hready, -, ⟨-, rfl⟩ | ⟨-, hc⟩⟩ := hostOp_cases ho
  · exact h
  · exact h.commit hc (hr hready)

/-- An operation that only answers on RES. -/
theorem HostPart.hostOp_answer {r : State → Result} (h : HostPart s)
    (ho : Machine.hostOp s (fun s => .ok (Machine.finish (r s) s)) = .next t) : HostPart t :=
  h.hostOp ho fun _ u hu => by
    cases hu
    exact h.finish _

theorem HostPart.trySend {p : Packet} (h : HostPart s) (hr : s.ready = true) (hp : p.pay.length = s.cfg.payloadCap)
    (ht : trySend p s = .ok t) : HostPart t := by
  rcases trySend_ok ht with ⟨-, rfl⟩ | ⟨q, hq, rfl⟩
  · exact hostPart_of_ready h.sq hr (by simpa [hostInv] using hp)
  · exact hostPart_of_idle (Queue.wf_enqueue h.sq hp hq) rfl

theorem HostPart.tryGet (h : HostPart s) (hr : s.ready = true) (ht : tryGet s = .ok t) : HostPart t := by
  rcases tryGet_ok ht with ⟨-, rfl⟩ | ⟨p, q, -, rfl⟩
  · exact hostPart_of_ready h.sq hr rfl
  · exact hostPart_of_idle h.sq rfl

theorem HostPart.execInit (h : HostPart s) (he : execInit s = .next t) : HostPart t := by
  unfold Machine.execInit at he
  split_ifs at he <;> cases he
  · exact h
  · exact hostPart_of_idle (Queue.wf_new h.sq) rfl

theorem HostPart.execSqEnq {snd dst : NodeId} {size : PayloadSize} (h : HostPart s)
    (he : execSqEnq snd dst size s = .next t) : HostPart t :=
  h.hostOp he fun _ u hu => by
    split at hu <;> cases hu
    · exact h.finish _
    · rename_i q hq
      exact hostPart_of_idle (Queue.wf_enqueue h.sq (hostPacket_length ..) hq) rfl

theorem HostPart.execRqDeq (h : HostPart s) (he : execRqDeq s = .next t) : HostPart t :=
  h.hostOp he fun _ u hu => by
    split at hu <;> cases hu
    · exact h.finish _
    · exact hostPart_of_idle h.sq rfl

theorem HostPart.execSend {snd dst : NodeId} {size : PayloadSize} (h : HostPart s)
    (he : execSend snd dst size s = .next t) : HostPart t :=
  h.hostOp he fun hr u hu => by
    split at hu
    · cases hu
      exact h.finish _
    · exact h.trySend hr (hostPacket_length ..) hu

/-- Every operation that a host command word decodes to. -/
theorem HostPart.exec {w : Hcw} {i : Instr} (h : HostPart s) (hi : decodeHcw w = .ok i) (he : exec i s = .next t) :
    HostPart t := by
  rcases decodeHcw_host hi with rfl | rfl | rfl | ⟨a, b, c, rfl⟩ | rfl | rfl | rfl | ⟨a, b, c, rfl⟩ | rfl | rfl |
    ⟨a, b, rfl⟩ | ⟨a, b, rfl⟩
  · exact h.execInit he
  · exact h.hostOp_answer (r := fun s => .bit s.sq.isEmpty) he
  · exact h.hostOp_answer (r := fun s => .bit (s.sq.isFull s.cfg.sqCap)) he
  · exact h.execSqEnq he
  · exact h.hostOp_answer (r := fun s => .bit s.rq.isEmpty) he
  · exact h.hostOp_answer (r := fun s => .bit (s.rq.isFull s.cfg.rqCap)) he
  · exact h.execRqDeq he
  · exact h.execSend he
  · exact h.hostOp he fun hr u => h.tryGet hr
  · exact h.hostOp_answer (r := fun s => .bit (!s.rq.isEmpty)) he
  · exact absurd he refuseWord_not_next
  · exact absurd he refuseWord_not_next

/-- The start of an operation in micro-steps. -/
theorem HostPart.beginMicro {w : Hcw} {i : Instr} (h : HostPart s) (hi : decodeHcw w = .ok i)
    (hb : beginMicro i s = .next t) : HostPart t := by
  unfold Machine.beginMicro at hb
  split at hb
  case h_1 =>
    exact h.hostOp hb fun hr u hu => by cases hu; exact hostPart_of_ready h.sq hr (by simp [hostInv, hostPacket_length])
  case h_2 =>
    refine h.hostOp hb fun hr u hu => ?_
    cases hu
    split
    · exact h.finish _
    · exact hostPart_of_ready h.sq hr (by simp [hostInv, hostPacket_length])
  case h_3 | h_4 => exact h.hostOp hb fun hr u hu => by cases hu; exact hostPart_of_ready h.sq hr rfl
  all_goals exact h.exec hi hb

/-! ### Micro-steps (40_queue.md R117, R118) -/

/-- E4: one access unit of a packet that fits leaves a slot well-formed. -/
theorem slotWf_writeField {cap : Nat} {p sl : Packet} (f : SlotField) (hp : p.size.toNat ≤ cap) (h : slotWf cap sl) :
    slotWf cap (writeField p f sl) := by
  refine ⟨by rw [writeField_length]; exact h.1, ?_⟩
  cases f with
  | size => exact hp
  | _ => exact h.2

/-- The answer of an enqueue frees H, or holds SEND. -/
theorem hostPart_enqAnswer {c : EnqCaller} {p : Packet} {accepted : Bool}
    (hsq : s.sq.wf s.cfg.payloadCap s.cfg.sqCap) (hr : s.ready = true) (hp : p.pay.length = s.cfg.payloadCap) :
    HostPart (enqAnswer c p accepted s) := by
  cases c with
  | sqEnq => exact hostPart_of_idle hsq rfl
  | send =>
    cases accepted with
    | true => exact hostPart_of_idle hsq rfl
    | false => exact hostPart_of_ready hsq hr (by simpa [enqAnswer, hostInv] using hp)

/-- The answer of a dequeue frees H, or holds GET. -/
theorem hostPart_deqAnswer {c : DeqCaller} {r : Option Packet} (hsq : s.sq.wf s.cfg.payloadCap s.cfg.sqCap)
    (hr : s.ready = true) : HostPart (deqAnswer c r s) := by
  cases c with
  | rqDeq => exact hostPart_of_idle hsq rfl
  | get =>
    cases r with
    | some p => exact hostPart_of_idle hsq rfl
    | none => exact hostPart_of_ready hsq hr rfl

/-- Each micro-step reads what its next phase claims. -/
theorem HostPart.microStep {pick : Nat} (h : HostPart s) (hb : s.host ≠ .idle) (hm : microStep pick s = .ok t) :
    HostPart t := by
  have hr := h.ready_of_busy hb
  have hsq := h.sq
  have hphase := h.phase
  cases hh : s.host with
  | idle => exact absurd hh hb
  | sendHeld p =>
    rw [microStep_sendHeld hh] at hm
    cases hm
    split
    · exact h
    · exact hostPart_of_ready hsq hr (by simpa [hostInv, hh] using hphase)
  | getHeld =>
    rw [microStep_getHeld hh] at hm
    cases hm
    split
    · exact h
    · exact hostPart_of_ready hsq hr rfl
  | enqRead c p =>
    rw [microStep_enqRead hh] at hm
    cases hm
    refine hostPart_of_ready hsq hr ?_
    simp only [hostInv, hh] at hphase ⊢
    simp [hphase, Queue.isFull]
  | enqTest c p i j =>
    simp only [hostInv, hh, Bool.and_eq_true, Bool.or_eq_true, beq_iff_eq] at hphase
    obtain ⟨⟨hp, rfl⟩, hroom⟩ := hphase
    rw [microStep_enqTest hh] at hm
    cases hm
    split
    · exact hostPart_enqAnswer hsq hr hp
    · rename_i hne
      exact hostPart_of_ready hsq hr (by simpa [hostInv, hp] using hroom.resolve_left (by simpa using hne))
  | enqBound c p j =>
    rw [microStep_enqBound hh] at hm
    split_ifs at hm with hs
    cases hm
    simp only [hostInv, hh, Bool.and_eq_true] at hphase
    exact hostPart_of_ready hsq hr (by simpa [hostInv, hphase] using hs)
  | enqCopy c p j fs =>
    simp only [hostInv, hh, Bool.and_eq_true, beq_iff_eq, decide_eq_true_eq] at hphase
    obtain ⟨⟨⟨hp, hs⟩, rfl⟩, hroom⟩ := hphase
    cases fs with
    | nil =>
      rw [microStep_enqCopy_nil hh] at hm
      cases hm
      exact hostPart_enqAnswer (s := { s with sq := _ }) (Queue.wf_tail hsq _) hr hp
    | cons f fs =>
      rw [microStep_enqCopy_cons hh] at hm
      cases hm
      have hslot := slotWf_writeField ((f :: fs).getD (pick % (fs.length + 1)) f) hs (Queue.wf_slotAt hsq hsq.2.1)
      refine hostPart_of_ready (Queue.wf_set hsq hslot) hr ?_
      simp only [hostInv, enqWrite, hp, hs, beq_self_eq_true, decide_true, Bool.true_and]
      exact hroom
  | deqRead c =>
    rw [microStep_deqRead hh] at hm
    cases hm
    exact hostPart_of_ready hsq hr (by simp [hostInv, Queue.isEmpty])
  | deqTest c i j =>
    simp only [hostInv, hh, Bool.and_eq_true, Bool.or_eq_true, beq_iff_eq] at hphase
    obtain ⟨rfl, hpacket⟩ := hphase
    rw [microStep_deqTest hh] at hm
    cases hm
    split
    · exact hostPart_deqAnswer hsq hr
    · rename_i hne
      exact hostPart_of_ready hsq hr (by simpa [hostInv] using hpacket.resolve_left (by simpa using hne))
  | deqScan c i j =>
    rw [microStep_deqScan hh] at hm
    unfold deqScanByte at hm
    split at hm
    case h_1 | h_2 => cases hm
    case h_3 b _ =>
      cases hm
      cases b == 0#8 <;> exact hostPart_of_ready hsq hr (by simpa [hostInv, hh] using hphase)
  | deqCopy c i fs acc =>
    cases fs with
    | nil =>
      rw [microStep_deqCopy_nil hh] at hm
      cases hm
      exact hostPart_deqAnswer (s := { s with rq := _ }) hsq hr
    | cons f fs =>
      rw [microStep_deqCopy_cons hh] at hm
      cases hm
      exact hostPart_of_ready hsq hr (by simpa [hostInv, hh] using hphase)

/-! ### Turns -/

/-- The next command, presented and run whole or begun in micro-steps. -/
theorem HostPart.fetchHost {run : Instr → State → Out} (h : HostPart s) (hf : fetchHost run s = .next t)
    (hr : ∀ {u w i}, HostPart u → decodeHcw w = .ok i → run i u = .next t → HostPart t) : HostPart t := by
  rcases fetchHost_cases hf with ⟨-, rfl⟩ | ⟨c, rest, i, -, hi, hrun⟩
  · exact h
  · exact hr (u := present c rest s) ⟨h.sq, h.phase, h.boot⟩ hi hrun

/-- Every turn that is no tick. -/
theorem HostPart.runTurn {turn : Turn} (h : HostPart s) (hn : isTick turn = false) (ht : runTurn turn s = .next t) :
    HostPart t := by
  cases turn with
  | tick => cases hn
  | host =>
    rcases hostTurn_cases ht with ⟨-, hf⟩ | ⟨p, hh, -, hc⟩ | ⟨hh, -, hc⟩ | ⟨hb, -, hc⟩
    · exact h.fetchHost hf HostPart.exec
    · have hp : p.pay.length = s.cfg.payloadCap := by simpa [hostInv, hh] using h.phase
      exact h.commit hc fun _ => h.trySend (h.ready_of_busy (by simp [hh])) hp
    · exact h.commit hc fun _ => h.tryGet (h.ready_of_busy (by simp [hh]))
    · exact h.commit hc fun _ => h.microStep hb
  | micro pick =>
    rcases microTurn_cases ht with ⟨-, hf⟩ | ⟨hb, -, hc⟩
    · exact h.fetchHost hf HostPart.beginMicro
    · exact h.commit hc fun _ => h.microStep hb

/-- With H's part restored, a host turn keeps the invariant: of the rest it writes FAULT by a code of R213, RQ's head,
and at INIT the line and RQ. -/
theorem HostWrite.inv (h : HostWrite s t) (hi : Inv s) (hp : HostPart t) : Inv t := by
  have hboot : t.ready = false → t.mode = .idle := by
    cases h with
    | init => exact nofun
    | _ => exact fun hr => (hi.boot hr).1
  have hrq : t.rq.wf t.cfg.payloadCap t.cfg.rqCap := by
    cases h with
    | init => exact Queue.wf_new hi.rq
    | publishHead i => exact Queue.wf_head hi.rq i
    | _ => exact hi.rq
  have hengine : EngineInv t := by
    cases h with
    | init x hr =>
      obtain ⟨hm, -⟩ := hi.boot hr
      obtain ⟨hbuffer, -, hidle, -⟩ := hi.engine
      obtain ⟨hbidx, hpar, hwp, -⟩ := hidle hm
      exact engineInv_idle hbuffer hm ⟨hbidx, hpar, hwp, rfl⟩
    | _ => exact hi.engine
  have hfault : t.fault &&& 0xC0#8 = 0#8 := by
    cases h with
    | raised c => exact raise_faultBits c hi.faultBits
    | _ => exact hi.faultBits
  have hkept : t.cfg = s.cfg ∧ t.bidx = s.bidx := by cases h <;> exact ⟨rfl, rfl⟩
  obtain ⟨hcfg, hbidx⟩ := hkept
  exact {
    legal := hcfg ▸ hi.legal
    sq := hp.sq
    rq := hrq
    bidxWidth := by rw [hcfg, hbidx]; exact hi.bidxWidth
    engine := hengine
    host := hp.phase
    boot := fun hr => ⟨hboot hr, hp.boot hr⟩
    faultBits := hfault }

/-- Every turn keeps the invariant. -/
theorem runTurn_inv {turn : Turn} (hi : Inv s) (h : runTurn turn s = .next t) : Inv t := by
  cases turn with
  | tick peers noise draw =>
    have hmark : Inv (markContention (s.drive :: peers) s) :=
      ⟨hi.legal, hi.sq, hi.rq, hi.bidxWidth, hi.engine, hi.host, hi.boot, hi.faultBits⟩
    exact (tickAt_write h).inv hmark
  | host => exact (runTurn_hostWrite rfl h).inv hi (hi.hostPart.runTurn rfl h)
  | micro pick => exact (runTurn_hostWrite rfl h).inv hi (hi.hostPart.runTurn rfl h)

end Sys2Proof.Machine
end

section
/-! SUPPORT. The statement of 41_engine.md R155, with 40_queue.md R121 and 20_memory.md R60, about every step. -/

namespace Sys2Proof.Proofs

open Sys2Proof Sys2Proof.Machine

/-- Settles O45: taking the turn writes nothing the invariant speaks of, and a tick and a host turn each keep it. -/
theorem stepKeepsInvariant : Obligations.StepKeepsInvariant := by
  intro s s' hi h
  have htaken : Inv (takeTurn s) :=
    ⟨hi.legal, hi.sq, hi.rq, hi.bidxWidth, hi.engine, hi.host, hi.boot, hi.faultBits⟩
  exact runTurn_inv htaken h

end Sys2Proof.Proofs
end

section
/-! SUPPORT. A receiver from the claim it samples to the parity bit (41_engine.md R142 to R144, R149): the packet it has
assembled after each tick, and what becomes of it. -/

namespace Sys2Proof.Machine

open Sys2Proof

variable {s : State} {w p : WorkPacket} {n : PayloadSize} {bs : List Bool} {line : Bool}

/-! ### The arms of a receiver (41_engine.md R141) -/

theorem armEffect_start (hm : s.mode = .idle) :
    armEffect false s =
      .ok { s with mode := .receiving, wp := zeroPacket s.cfg.payloadCap, bidx := 0, par := false } := by
  simp [armEffect, hm]

theorem storeDataBit_of_setFrameBit (h : setFrameBit s.cfg.payloadCap s.wp s.bidx line = .ok w) :
    storeDataBit line s = .ok { s with wp := w, par := parityAdd s.par line, bidx := nextBit s.cfg.bidxW s.bidx } := by
  simp [storeDataBit, h]

/-- RX_HDR and RX_PAY inside the buffer. -/
theorem armEffect_store (hm : s.mode = .receiving) (hb : s.bidx < 16 ∨ s.bidx < 16 + 8 * s.wp.size.toNat)
    (hcap : s.bidx < 16 + 8 * s.cfg.payloadCap) : armEffect line s = storeDataBit line s := by
  have hbyte : 16 ≤ s.bidx → ¬ s.cfg.payloadCap ≤ byteIndex s.bidx := by unfold byteIndex; omega
  rcases Nat.lt_or_ge s.bidx 16 with h16 | h16
  · simp [armEffect, hm, h16]
  · simp [armEffect, hm, Nat.not_lt.2 h16, hb.resolve_left (Nat.not_lt.2 h16), hbyte h16]

theorem armEffect_check (hm : s.mode = .receiving) (hb : s.bidx = 16 + 8 * s.wp.size.toNat) :
    armEffect line s = rxPar line s := by
  simp [armEffect, hm, hb]

/-- RX_PAR on a packet that fits: a delivery where the parity passes, and the return to IDLE in any case. -/
theorem rxPar_of_fits (h : s.wp.size.toNat ≤ s.cfg.payloadCap) :
    rxPar line s = .ok (toIdle (if parityPasses s.par line then deliver s.wp s else s)) := by
  unfold rxPar deliver
  rcases s.rq.enqueue_cases s.cfg s.cfg.rqCap s.wp.toPacket with ⟨-, e⟩ | ⟨-, hover, -⟩ | ⟨-, -, e⟩
  · rw [e]; split <;> rfl
  · exact absurd hover (Nat.not_lt.2 h)
  · rw [e]; split <;> rfl

/-- A delivery takes of a packet its header and the bytes within its size. -/
theorem deliver_congr (hheader : headerWord p = headerWord w)
    (hpay : p.pay.take w.size.toNat = w.pay.take w.size.toNat) (s : State) : deliver p s = deliver w s := by
  rw [deliver, Queue.enqueue_congr hheader hpay, deliver]

/-! ### The ticks of a frame -/

/-- The receiver `s` once it has sampled the bits `bs` and assembled them into `p`. -/
def receivingAt (s : State) (p : WorkPacket) (bs : List Bool) : State :=
  { s with mode := .receiving, wp := p, bidx := bs.length, par := xorBits bs }

@[simp] theorem receivingAt_cfg (s : State) (p : WorkPacket) (bs : List Bool) : (receivingAt s p bs).cfg = s.cfg := rfl
@[simp] theorem receivingAt_rq (s : State) (p : WorkPacket) (bs : List Bool) : (receivingAt s p bs).rq = s.rq := rfl

/-- The return to IDLE leaves the receiver as it was before the frame. -/
theorem toIdle_receivingAt (hm : s.mode = .idle) (hi : IdleInv s) : toIdle (receivingAt s p bs) = s := by
  obtain ⟨hbidx, hpar, hwp, -⟩ := hi
  simp only [toIdle, receivingAt, ← hm, ← hbidx, ← hpar, ← hwp]

/-- … and RQ as the delivery leaves it. -/
theorem toIdle_deliver_receivingAt (hm : s.mode = .idle) (hi : IdleInv s) (w : WorkPacket) :
    toIdle (deliver w (receivingAt s p bs)) = deliver w s := by
  have hback := toIdle_receivingAt (p := p) (bs := bs) hm hi
  simp only [deliver, receivingAt_rq, receivingAt_cfg]
  rcases s.rq.enqueue s.cfg s.cfg.rqCap w.toPacket with _ | _ | q
  · exact hback
  · exact hback
  · exact congrArg (fun s : State => { s with rq := q }) hback

/-- RX_HDR and RX_PAY: one more bit of a frame whose size field is `n` joins the packet. -/
theorem afterTick_store (ht : Ticking s) (hlegal : s.cfg.legal = true) (hn : SizeField n bs)
    (hfits : n.toNat ≤ s.cfg.payloadCap) (hlt : bs.length < 16 + 8 * n.toNat) (h : Assembled s.cfg.payloadCap bs p) :
    ∃ p', Assembled s.cfg.payloadCap (bs ++ [line]) p' ∧
      afterTick line (receivingAt s p bs) = receivingAt s p' (bs ++ [line]) := by
  obtain ⟨p', hset, hp'⟩ := h.store (by omega) line
  refine ⟨p', hp', ?_⟩
  have harm : armEffect line (receivingAt s p bs) = storeDataBit line (receivingAt s p bs) := by
    refine armEffect_store rfl ?_ (show bs.length < 16 + 8 * s.cfg.payloadCap by omega)
    refine (Nat.lt_or_ge bs.length 16).imp_right fun h16 => ?_
    rw [show (receivingAt s p bs).wp.size = n from h.size_eq hn h16]
    exact hlt
  have hstore : storeDataBit line (receivingAt s p bs) = .ok { receivingAt s p bs with
      wp := p', par := parityAdd (xorBits bs) line, bidx := nextBit s.cfg.bidxW bs.length } :=
    storeDataBit_of_setFrameBit hset
  have hwidth := bidxW_of_legal hlegal
  have hsize := n.isLt
  rw [afterTick_of_ticking (s := receivingAt s p bs) ht, harm, hstore, commit_ok, nextBit_of_lt (by omega)]
  simp only [receivingAt, xorBits_concat, List.length_append, List.length_singleton]

/-- After the claim, every bit of a frame up to its parity bit is in the packet. -/
theorem afterTicks_data (ht : Ticking s) (hlegal : s.cfg.legal = true) (hm : s.mode = .idle)
    (hfits : n.toNat ≤ s.cfg.payloadCap) (hn : SizeField n bs) (hlen : bs.length ≤ 16 + 8 * n.toNat) :
    ∃ p, Assembled s.cfg.payloadCap bs p ∧ afterTicks (false :: bs) s = receivingAt s p bs := by
  induction bs using List.reverseRecOn with
  | nil =>
    refine ⟨zeroPacket s.cfg.payloadCap, assembled_nil (zeroPacket_length _), ?_⟩
    rw [afterTicks_cons, afterTick_of_ticking ht, armEffect_start hm]
    rfl
  | append_singleton bs b ih =>
    rw [List.length_append, List.length_singleton] at hlen
    obtain ⟨p, hp, hrun⟩ := ih hn.of_append (by omega)
    obtain ⟨p', hp', hnext⟩ := afterTick_store (line := b) ht hlegal hn.of_append hfits (by omega) hp
    exact ⟨p', hp', by rw [← List.cons_append, afterTicks_concat, hrun, hnext]⟩

/-- RX_PAR: with the last bit the parity of the whole frame decides. -/
theorem afterTick_check (ht : Ticking s) (hm : s.mode = .idle) (hi : IdleInv s)
    (hfits : p.size.toNat ≤ s.cfg.payloadCap) (hlen : bs.length = 16 + 8 * p.size.toNat) :
    afterTick line (receivingAt s p bs) = if xorBits (bs ++ [line]) then deliver p s else s := by
  have hpasses : parityPasses (receivingAt s p bs).par line = xorBits (bs ++ [line]) := by
    rw [xorBits_concat, parityAdd, parityPasses, receivingAt, Bool.xor_comm]
  rw [afterTick_of_ticking (s := receivingAt s p bs) ht, armEffect_check rfl hlen, rxPar_of_fits hfits, commit_ok,
    hpasses]
  split
  · exact toIdle_deliver_receivingAt hm hi p
  · exact toIdle_receivingAt hm hi

/-- An idle receiver that samples the claim and then as many bits as their size field announces: with odd parity it
delivers the packet that holds the data bits, and else it is as it was. -/
theorem afterTicks_received (hinv : Inv s) (ht : Ticking s) (hm : s.mode = .idle) (hfits : n.toNat ≤ s.cfg.payloadCap)
    (hn : SizeField n bs) (hlen : bs.length = 16 + 8 * n.toNat) (b : Bool) :
    ∃ p, Assembled s.cfg.payloadCap bs p ∧
      afterTicks (false :: (bs ++ [b])) s = if xorBits (bs ++ [b]) then deliver p s else s := by
  obtain ⟨p, hp, hrun⟩ := afterTicks_data ht hinv.legal hm hfits hn hlen.le
  have hsize : p.size = n := hp.size_eq hn (by omega)
  refine ⟨p, hp, ?_⟩
  rw [← List.cons_append, afterTicks_concat, hrun]
  exact afterTick_check ht hm (hinv.idle hm) (hsize ▸ hfits) (hsize ▸ hlen)

/-- A frame with even parity leaves it as it was. -/
theorem afterTicks_even (hinv : Inv s) (ht : Ticking s) (hm : s.mode = .idle) (hfits : n.toNat ≤ s.cfg.payloadCap)
    (hn : SizeField n bs) (hlen : bs.length = frameLength n.toNat) (heven : xorBits bs = false) :
    afterTicks (false :: bs) s = s := by
  rw [frameLength] at hlen
  obtain rfl | ⟨cs, b, rfl⟩ := List.eq_nil_or_concat' bs
  · rw [List.length_nil] at hlen
    omega
  · rw [List.length_append, List.length_singleton] at hlen
    obtain ⟨p, -, hrun⟩ := afterTicks_received hinv ht hm hfits hn.of_append (by omega) b
    rw [hrun, heven]
    rfl

/-! ### One bit inverted by noise (60_exceptions.md R223) -/

/-- The bits with the one at index `i` inverted. -/
def invertBit (i : Nat) (bs : List Bool) : List Bool := bs.set i (!bs.getD i false)

@[simp] theorem invertBit_length (i : Nat) (bs : List Bool) : (invertBit i bs).length = bs.length := List.length_set

/-- One inverted bit inverts the parity. -/
theorem xorBits_invertBit {i : Nat} (h : i < bs.length) : xorBits (invertBit i bs) = !xorBits bs := by
  induction bs generalizing i with
  | nil => simp at h
  | cons a bs ih =>
    cases i with
    | zero => simp [invertBit]
    | succ i =>
      have hi : xorBits (bs.set i (!bs.getD i false)) = !xorBits bs := ih (Nat.lt_of_succ_lt_succ h)
      rw [invertBit, List.set_cons_succ, List.getD_cons_succ, xorBits_cons, hi, xorBits_cons, Bool.xor_not]

/-- An inverted bit outside the size field leaves the size. -/
theorem sizeField_invertBit_frame {i : Nat} (hw : w.size.toNat ≤ w.pay.length) (hi : i < 8 ∨ 16 ≤ i) :
    SizeField w.size (invertBit i (frame w)) := fun k b hk hb => by
  rw [invertBit, List.getElem?_set_ne (by omega), getElem?_frame_data hw (by omega)] at hb
  exact sizeField_dataBits w k b hk hb

end Sys2Proof.Machine
end

section
/-! SUPPORT. The statements of 41_engine.md R156 and R157 about a receiver. -/

namespace Sys2Proof.Proofs

open Sys2Proof Sys2Proof.Machine

/-- Settles O57, by induction over the frame: the packet assembled holds the data bits, the frame's parity is odd, and
RQ takes of a packet only what those bits fix. -/
theorem receiverDeliversFrame : Obligations.ReceiverDeliversFrame := by
  intro s w hinv ht hm hbuffer hfits
  have hlen := dataBits_length (hbuffer ▸ hfits)
  obtain ⟨p, hp, hrun⟩ :=
    afterTicks_received hinv ht hm hfits (sizeField_dataBits w) hlen (!xorBits (dataBits w))
  have hodd : xorBits (dataBits w ++ [!xorBits (dataBits w)]) = true := xorBits_frame w
  rw [frame, hrun, hodd, if_pos rfl]
  exact deliver_congr hp.headerWord_eq (hp.take_pay_eq hbuffer hfits) s

/-- Settles O58: the inverted bit leaves the size, so the receiver checks the parity at the right tick, and there it is
even. -/
theorem singleBitErrorIsDiscarded : Obligations.SingleBitErrorIsDiscarded := by
  intro s w i hinv ht hm hbuffer hfits hi hout
  have hsize : w.size.toNat ≤ w.pay.length := hbuffer ▸ hfits
  have hlen := frame_length hsize
  have heven : xorBits (invertBit i (frame w)) = false := by
    rw [xorBits_invertBit (hlen ▸ hi), xorBits_frame]
    rfl
  exact afterTicks_even hinv ht hm hfits (sizeField_invertBit_frame hsize hout) ((invertBit_length ..).trans hlen) heven

end Sys2Proof.Proofs
end

section
/-! SUPPORT. The tick arms on a block that ticks (41_engine.md R140): an arm that answers a state ends in it, one that
faults sets its FAULT bit alone (60_exceptions.md R212). -/

namespace Sys2Proof.Machine

open Sys2Proof

variable {s t : State} {line : Bool} {arm : State → Except FaultCode State}

/-! ### The gate (R140) -/

theorem engineTick_of_ok (ht : Ticking s) (h : arm s = .ok t) : engineTick s arm = .next t := by
  rw [engineTick_of_ticking ht, h, commit_ok]

theorem engineTick_of_error {c : FaultCode} (ht : Ticking s) (h : arm s = .error c) :
    engineTick s arm = .next { s with fault := faultMask c } := by
  rw [engineTick_of_ticking ht, h, commit_error, raise_of_fault_zero c ht.2]

/-! ### One bit -/

theorem driveDataBit_beyond_buffer (h : 16 + 8 * s.cfg.payloadCap ≤ s.bidx) : driveDataBit s = .error .txOvr := by
  rcases frameBit_cases s.cfg.payloadCap s.wp s.bidx with ⟨hlt, -⟩ | ⟨-, e⟩
  · omega
  · simp [driveDataBit, e]

/-! ### IDLE_CLAIM (R150) -/

/-- A copy into a buffer of definite bytes. -/
theorem copyOut_id (sl : Slot) (bs : List Byte) (d : WorkPacket) :
    copyOut id sl bs d = ⟨sl.snd, sl.dst, sl.size, bs ++ d.pay.drop bs.length⟩ := by
  simp [copyOut]

/-- The copy of the head slot's scanned bytes over WP. -/
theorem idleClaim_of_scan {bs : List Byte} (hne : s.sq.isEmpty = false)
    (hs : scanSlot s.cfg.payloadCap (s.sq.slotAt s.sq.head) = .ok bs) :
    idleClaim s = .ok { s with
      lineOe := true, lineOut := false, sq := { s.sq with head := nextIndex s.cfg.sqCap s.sq.head }
      wp := copyOut id (s.sq.slotAt s.sq.head) bs s.wp, mode := .sending, bidx := 0, par := false } := by
  simp [idleClaim, Queue.dequeue, hne, hs]

/-- A fault of the scan is the arm's. -/
theorem idleClaim_of_scan_error {c : FaultCode} (hne : s.sq.isEmpty = false)
    (hs : scanSlot s.cfg.payloadCap (s.sq.slotAt s.sq.head) = .error c) : idleClaim s = .error c := by
  simp [idleClaim, Queue.dequeue, hne, hs]

/-! ### Another SQ (R154) -/

/-- `s` with `q` as its SQ. -/
def State.withSq (q : Queue) (s : State) : State := { s with sq := q }

section
variable (q : Queue)

@[simp] theorem withSq_cfg (s : State) : (s.withSq q).cfg = s.cfg := rfl
@[simp] theorem withSq_mode (s : State) : (s.withSq q).mode = s.mode := rfl
@[simp] theorem withSq_bidx (s : State) : (s.withSq q).bidx = s.bidx := rfl
@[simp] theorem withSq_par (s : State) : (s.withSq q).par = s.par := rfl
@[simp] theorem withSq_wp (s : State) : (s.withSq q).wp = s.wp := rfl
@[simp] theorem withSq_rq (s : State) : (s.withSq q).rq = s.rq := rfl
@[simp] theorem withSq_fault (s : State) : (s.withSq q).fault = s.fault := rfl
@[simp] theorem withSq_ready (s : State) : (s.withSq q).ready = s.ready := rfl

theorem storeDataBit_withSq (b : Bool) (s : State) :
    storeDataBit b (s.withSq q) = (storeDataBit b s).map (State.withSq q) := by
  simp only [storeDataBit, withSq_cfg, withSq_wp, withSq_bidx]
  cases setFrameBit s.cfg.payloadCap s.wp s.bidx b <;> rfl

theorem driveDataBit_withSq (s : State) : driveDataBit (s.withSq q) = (driveDataBit s).map (State.withSq q) := by
  simp only [driveDataBit, withSq_cfg, withSq_wp, withSq_bidx]
  cases frameBit s.cfg.payloadCap s.wp s.bidx <;> rfl

theorem rxPar_withSq (line : Bool) (s : State) : rxPar line (s.withSq q) = (rxPar line s).map (State.withSq q) := by
  cases hp : parityPasses s.par line with
  | true =>
    simp only [rxPar, withSq_cfg, withSq_wp, withSq_rq, withSq_par, hp, if_true]
    rcases s.rq.enqueue s.cfg s.cfg.rqCap s.wp.toPacket with _ | _ | _ <;> rfl
  | false =>
    simp only [rxPar, withSq_par, hp, Bool.false_eq_true, if_false]
    rfl

/-- Outside IDLE no arm reads SQ. -/
theorem armEffect_withSq (line : Bool) (hm : s.mode ≠ .idle) :
    armEffect line (s.withSq q) = (armEffect line s).map (State.withSq q) := by
  cases hmode : s.mode with
  | idle => exact absurd hmode hm
  | receiving =>
    by_cases hhdr : s.bidx < 16
    · simp [armEffect, hmode, hhdr, storeDataBit_withSq]
    by_cases hpay : s.bidx < 16 + 8 * s.wp.size.toNat
    · by_cases hcap : s.cfg.payloadCap ≤ byteIndex s.bidx
      · simp [armEffect, hmode, hhdr, hpay, hcap, Except.map]
      · simp [armEffect, hmode, hhdr, hpay, hcap, storeDataBit_withSq]
    by_cases hpar : s.bidx = 16 + 8 * s.wp.size.toNat
    · simp [armEffect, hmode, hpar, rxPar_withSq]
    · simp [armEffect, hmode, hhdr, hpay, hpar, Except.map]
  | sending =>
    by_cases hdata : s.bidx < 16 + 8 * s.wp.size.toNat
    · simp [armEffect, hmode, hdata, driveDataBit_withSq]
    by_cases hpar : s.bidx = 16 + 8 * s.wp.size.toNat
    · simp [armEffect, hmode, hpar, Except.map, State.withSq]
    · simp [armEffect, hmode, hdata, hpar, Except.map, State.withSq, toIdle]
  | reserved => simp [armEffect, hmode, Except.map]

/-- Outside IDLE a tick does the same beside any SQ. -/
theorem tickAt_withSq (hm : s.mode ≠ .idle) (h : tickAt line s = .next t) :
    tickAt line (s.withSq q) = .next (t.withSq q) := by
  rw [tickAt_eq] at h ⊢
  simp only [engineTick, withSq_ready, withSq_fault, armEffect_withSq q line hm] at h ⊢
  injection h with h
  rw [← h]
  split
  · cases armEffect line s <;> rfl
  · rfl

end

/-- Outside IDLE a tick writes nothing of SQ. -/
theorem TickWrite.sq_outside_idle (h : TickWrite line s t) (hm : s.mode ≠ .idle) : t.sq = s.sq := by
  cases h with
  | claim _ _ _ hidle => exact absurd hidle hm
  | _ => rfl

/-! ### A tick turn (R140; 60_exceptions.md R221 to R224) -/

/-- The sample, from the level or from the contention draw. -/
theorem sampleLine_eq {ds : List Drive} {noise draw : Bool}
    (hlevel : ∀ v, resolveLine ds = .level v → line = xor v noise)
    (hcontended : resolveLine ds = .contended → line = draw) : sampleLine ds noise draw = line := by
  rcases sampleLine_cases ds noise draw with ⟨b, hr, e⟩ | ⟨hr, e⟩
  · rw [e, hlevel b hr]
  · rw [e, hcontended hr]

/-- A step whose next turn is a tick. -/
theorem step_tick {peers : List Drive} {noise draw : Bool} {rest : List Turn}
    (ha : s.agenda = .tick peers noise draw :: rest) :
    step s = tickAt (sampleLine (s.drive :: peers) noise draw) (markContention (s.drive :: peers) (takeTurn s)) := by
  simp only [step, nextTurn, ha]
  rfl

end Sys2Proof.Machine
end

section
/-! SUPPORT. The statements of 41_engine.md about each arm, the gate of a tick, and what an arm reads. -/

namespace Sys2Proof.Proofs

open Sys2Proof Sys2Proof.Machine

/-! ### Receive arms (R142 to R144) -/

/-- Settles O14, by the one bit of the header word that a header index sets. -/
theorem rxHdrStoresHeaderBit : Obligations.RxHdrStoresHeaderBit := by
  intro s line sqne ht hb
  obtain ⟨w, hset, hpay, hbits⟩ := setFrameBit_header hb s.cfg.payloadCap s.wp line
  exact ⟨w, engineTick_of_ok ht (storeDataBit_of_setFrameBit hset), hpay, hbits⟩

/-- Settles O15: a payload index inside the buffer sets one bit of one byte, and beyond it the arm's own test faults. -/
theorem rxPayStoresPayloadBitOrOverflows : Obligations.RxPayStoresPayloadBitOrOverflows := by
  intro s line sqne ht hbuffer h16
  rw [exec, execRxPay]
  refine ⟨fun hin => ?stored, fun hover => ?overflows⟩
  case stored =>
    have hset := setFrameBit_pay h16 (show s.bidx < 16 + 8 * s.cfg.payloadCap by omega) s.wp line
    refine ⟨_, engineTick_of_ok ht ((if_neg (Nat.not_le.2 hin)).trans (storeDataBit_of_setFrameBit hset)), rfl,
      by simpa using hbuffer, fun j k _ _ => ?_⟩
    exact getLsbD_set_setBit _ (hbuffer ▸ hin) (Nat.mod_lt _ (by decide)) line j k
  case overflows => exact engineTick_of_error (c := .rxOvf) ht (if_pos hover)

/-- Settles O16: WP fits a slot, so RX_PAR answers one of two states, and RQ is the same or what the enqueue makes of
it. -/
theorem rxParDeliversOrDrops : Obligations.RxParDeliversOrDrops := by
  intro s line sqne ht hfits
  have hexec : exec (.rxPar line sqne) s =
      .next (toIdle (if parityPasses s.par line then deliver s.wp s else s)) :=
    engineTick_of_ok ht (rxPar_of_fits hfits)
  rw [hexec]
  cases hp : xor line s.par with
  | false => exact ⟨s.rq, by simp [parityPasses, hp, toIdle], fun _ => rfl, fun _ => rfl, nofun⟩
  | true =>
    rcases s.rq.enqueue_cases s.cfg s.cfg.rqCap s.wp.toPacket with ⟨hf, e⟩ | ⟨-, hover, -⟩ | ⟨hf, -, e⟩
    · refine ⟨s.rq, by simp [parityPasses, hp, deliver, e, toIdle], nofun, fun _ => rfl, fun _ hroom => ?_⟩
      rw [hf] at hroom
      cases hroom
    · exact absurd hover (Nat.not_lt.2 hfits)
    · refine ⟨_, by simp [parityPasses, hp, deliver, e, toIdle], nofun, fun hfull => ?_, fun _ _ => e⟩
      rw [hf] at hfull
      cases hfull

/-! ### Send arms (R145 to R148) -/

/-- Settles O17, by the bit of the header word that a header index reads. -/
theorem txHdrDrivesHeaderBit : Obligations.TxHdrDrivesHeaderBit :=
  fun _ _ _ ht hb => engineTick_of_ok ht (driveDataBit_of_frameBit (frameBit_header hb))

/-- Settles O18: a payload index reads one bit of one byte of the buffer. -/
theorem txPayDrivesPayloadBit : Obligations.TxPayDrivesPayloadBit := by
  intro s line sqne ht h16
  refine ⟨fun hin hbyte => ?drives, fun hover => engineTick_of_error ht (driveDataBit_beyond_buffer (by omega))⟩
  case drives =>
    have hbit := frameBit_pay (p := s.wp) h16 (show s.bidx < 16 + 8 * s.cfg.payloadCap by omega)
    rw [show s.wp.pay.getD (byteIndex s.bidx) 0 = s.wp.pay[(s.bidx - 16) / 8] from List.getD_eq_getElem _ _ hbyte]
      at hbit
    exact ⟨_, List.getElem?_eq_getElem hbyte, engineTick_of_ok ht (driveDataBit_of_frameBit hbit)⟩

/-- Settles O19: the arm has no branch, and the open gate commits its writes. -/
theorem txParDrivesParityBit : Obligations.TxParDrivesParityBit := by
  intro s _ _ ht
  rw [exec, execTxPar, engineTick_of_ticking ht]
  rfl

/-- Settles O20, by the return to IDLE with the line released. -/
theorem txRelReleasesLine : Obligations.TxRelReleasesLine := by
  intro s _ _ ht
  rw [exec, execTxRel, engineTick_of_ticking ht]
  rfl

/-! ### Idle arms and reserved selectors (R149 to R152) -/

/-- Settles O21: the arm writes the registers of a fresh reception and nothing of SQ. -/
theorem idleRxstartBeginsReception : Obligations.IdleRxstartBeginsReception := by
  intro s _ _ ht
  rw [exec, execIdleRxstart, engineTick_of_ticking ht]
  rfl

/-- Settles O22, by the three answers of the scan of SQ's head slot. -/
theorem idleClaimLoadsHeadPacketOrFaults : Obligations.IdleClaimLoadsHeadPacketOrFaults := by
  intro s ph ht hne
  have hne := s.sq.isEmpty_eq_false_iff.2 hne
  refine ⟨fun bs hs => ?loads, fun hs => ?undef, fun hs => ?overrun⟩
  case loads =>
    have hclaim := idleClaim_of_scan hne hs
    rw [copyOut_id] at hclaim
    exact engineTick_of_ok ht hclaim
  case undef => exact engineTick_of_error ht (idleClaim_of_scan_error hne hs)
  case overrun => exact engineTick_of_error ht (idleClaim_of_scan_error hne hs)

/-- Settles O23: the row is read off the 64 selectors, and the arm answers the state it is given. -/
theorem idleNopWritesNothing : Obligations.IdleNopWritesNothing :=
  ⟨by decide, fun _ _ ht => engineTick_of_ok ht rfl⟩

/-- Settles O24: both rows answer the one fault, from FAULT = 0. -/
theorem reservedSelectorRaisesUnreachable : Obligations.ReservedSelectorRaisesUnreachable :=
  fun _ _ _ _ ht =>
    ⟨engineTick_of_error (arm := fun _ => .error .unreachable) ht rfl,
      engineTick_of_error (arm := fun _ => .error .unreachable) ht rfl⟩

/-! ### The tick -/

/-- Settles O25: the gate around every arm is closed. -/
theorem tickNeedsReadyAndNoFault : Obligations.TickNeedsReadyAndNoFault := by
  intro s line h
  have hgate : ¬ Ticking s := fun ⟨hready, hfault⟩ => h.elim (by simp [hready]) (absurd hfault)
  rw [tickAt_eq, engineTick_of_not_ticking hgate]

/-- Settles O47, by the writes a tick can make: each stands under its guard, and a fault would show in FAULT. -/
theorem modeTransitionGraph : Obligations.ModeTransitionGraph := by
  intro s t line ht h hf
  cases tickAt_write h with
  | gated hg => exact absurd ht hg
  | raised c => exact absurd hf (raise_fault_ne_zero c s)
  | storeBit p _ hm hb => simp [hm, hb]
  | dropPacket _ hm hb => simp [hm, hb]
  | deliverPacket q _ hm hb => simp [hm, hb]
  | driveBit b _ hm hb => simp [hm, hb.le]
  | driveParity _ hm hb => simp [hm, hb]
  | release _ hm hb => simp [hm, hb]
  | startReceive _ hm hl => simp [hm, hl]
  | nop _ hm hl he => simp [hm, hl, s.sq.isEmpty_iff.1 he]
  | claim p q _ hm hl hq => simp [hm, hl, s.sq.isEmpty_eq_false_iff.1 (Queue.not_isEmpty_of_dequeue hq)]

/-- Settles O48: the SENDING arms do not mention LINE, and the arms outside IDLE commute with a write to SQ. -/
theorem engineReadsLineAndSqOnlyWhereStated : Obligations.EngineReadsLineAndSqOnlyWhereStated := by
  refine ⟨fun s hm => ?line, fun s t line q hm h => ?sq⟩
  case line =>
    have harm : armEffect true s = armEffect false s := by simp only [armEffect, hm]
    simp only [tickAt_eq, engineTick, harm]
  case sq => exact ⟨(tickAt_write h).sq_outside_idle hm, tickAt_withSq q hm h⟩

/-- Settles O11: the sample is fixed by the two premises, and taking the turn and marking a contention are the two
writes around the arm. -/
theorem stepRunsSelectedArm : Obligations.StepRunsSelectedArm := by
  intro s peers noise draw rest line ha hlevel hcontended
  rw [step_tick ha, sampleLine_eq hlevel hcontended, takeTurn_eq ha]
  rfl

end Sys2Proof.Proofs
end

section
/-! SUPPORT. The checks before a host operation (42_link_api.md R180): INIT's own, those that every other operation has in
common, and those of a further step of an operation already started. -/

namespace Sys2Proof.Machine

open Sys2Proof

variable {s : State} {w : Hcw} {i : Instr}

/-! ### A fresh operation -/

/-- R181: the one INIT of a block. -/
theorem exec_init_before_boot (hr : s.ready = false) (hf : s.fault = 0#8) (hh : s.host = .idle) :
    exec .init s = .next (initBlock s) := by
  simp [exec, execInit, hr, hf, hh, HostPhase.isIdle]

/-- R181: a second INIT. -/
theorem exec_init_of_accepting (h : Accepting s) : exec .init s = .refused .reinit := by
  obtain ⟨hready, hfault, hhost⟩ := h
  simp [exec, execInit, hready, hfault, hhost, HostPhase.isIdle]

theorem exec_init_of_fault (hf : s.fault ≠ 0#8) : exec .init s = .fault .stopped := by
  simp [exec, execInit, hf]

theorem refuseWord_before_init (hr : s.ready = false) (r : Refusal) : refuseWord false r s = .refused .preInit := by
  simp [refuseWord, hr]

/-- An operation other than INIT runs behind the common checks, or its OP is reserved and it is only refused. -/
theorem exec_of_decoded (h : decodeHcw w = .ok i) :
    i = .init ∨ (∃ run, ∀ s, exec i s = hostOp s run) ∨
      10 ≤ (hcwOp w).toNat ∧ ∀ s, exec i s = refuseWord false .reservedOp s := by
  obtain ⟨hcode, hwf⟩ := encode_of_decodeHcw h
  cases i with
  | init => exact .inl rfl
  | sqIsempty | sqIsfull | sqEnq | rqIsempty | rqIsfull | rqDeq | send | get | has =>
    exact .inr (.inl ⟨_, fun _ => rfl⟩)
  | reservedOpAB op rest =>
    cases hcode
    have hop : op.toNat = 10 ∨ op.toNat = 11 := by simpa [Instr.wf] using hwf
    exact .inr (.inr ⟨by rw [hcwOp_append]; omega, fun _ => rfl⟩)
  | reservedOpCF op rest =>
    cases hcode
    have hop : 12 ≤ op.toNat := by simpa [Instr.wf] using hwf
    exact .inr (.inr ⟨by rw [hcwOp_append]; omega, fun _ => rfl⟩)
  | rxHdr | rxPay | rxPar | txHdr | txPay | txPar | txRel | idleRxstart | idleClaim | idleNop | reservedRxPh11
  | reservedMode11 => cases hcode

/-! ### A further step of an operation -/

theorem hostStep_of_running (hf : s.fault = 0#8) (run : State → Except FaultCode State) :
    hostStep s run = .next (commit s (run s)) := by
  simp [hostStep, hf]

theorem hostStep_of_fault (hf : s.fault ≠ 0#8) (run : State → Except FaultCode State) :
    hostStep s run = .fault .stopped := by
  simp [hostStep, hf]

/-- A host turn of a busy H is a further step of its operation. -/
theorem hostTurn_of_busy (hb : s.host ≠ .idle) : ∃ run, hostTurn s = hostStep s run := by
  unfold hostTurn
  split
  · exact absurd ‹_› hb
  all_goals exact ⟨_, rfl⟩

/-- A micro turn of a busy H is the next micro-step of its operation. -/
theorem microTurn_of_busy (hb : s.host ≠ .idle) (pick : Nat) : microTurn pick s = hostStep s (microStep pick) := by
  unfold microTurn
  split
  · exact absurd ‹_› hb
  · rfl

/-- R193: a retry of a held SEND. -/
theorem hostTurn_sendHeld {p : Packet} (hh : s.host = .sendHeld p) (hf : s.fault = 0#8) :
    hostTurn s = .next (commit s (enqWhole .send p s)) := by
  rw [← trySend_eq_enqWhole, ← hostStep_of_running hf (trySend p)]
  simp only [hostTurn, hh]

/-- R193: a retry of a held GET. -/
theorem hostTurn_getHeld (hh : s.host = .getHeld) (hf : s.fault = 0#8) :
    hostTurn s = .next (commit s (deqWhole .get s)) := by
  rw [← tryGet_eq_deqWhole, ← hostStep_of_running hf tryGet]
  simp only [hostTurn, hh]

/-! ### The end of an operation -/

/-- An operation of an idle H that ends writes RES and not H's phase. -/
theorem finish_of_idle (hh : s.host = .idle) (r : Result) : finish r s = { s with res := r } := by
  rw [finish, ← hh]

/-- An operation held again writes RES and not H's phase. -/
theorem hold_of_held {h : HostPhase} (hh : s.host = h) : hold h s = { s with res := .empty } := by
  rw [hold, ← hh]

end Sys2Proof.Machine
end

section
/-! SUPPORT. What a whole enqueue and a whole dequeue of the host make of a block without a fault (42_link_api.md R184,
R187 to R189), and the packet that goes in or comes out (30_encoding.md R94; 40_queue.md R111, R114, R116). -/

namespace Sys2Proof.Machine

open Sys2Proof

variable {s : State} {p : Packet} {sl : Slot} {cap : Nat} {snd dst : NodeId} {size : PayloadSize} {din : List Byte}

/-! ### The packet of an operation (R94) -/

theorem carries_hostPacket (cap : Nat) (snd dst : NodeId) (size : PayloadSize) (din : List Byte) :
    carries cap (hostPacket cap snd dst size din) snd dst size din := by
  refine ⟨rfl, rfl, rfl, fun j b _ hcap hb => ?_⟩
  obtain ⟨hlen, -⟩ := List.getElem?_eq_some_iff.1 hb
  rw [hostPacket, List.getElem?_take_of_lt hcap, List.getElem?_append_left (by simpa using hlen), List.getElem?_map, hb]
  rfl

/-- A slot filled with the packet of an operation holds what the packet does. -/
theorem FilledFrom.carries (h : FilledFrom cap p sl) (hp : carries cap p snd dst size din) :
    carries cap sl snd dst size din := by
  obtain ⟨rfl, rfl, rfl, hbytes⟩ := hp
  have hpay : ∀ (j : Nat) (b : Byte), j < p.size.toNat → j < cap → din[j]? = some b → sl.pay[j]? = some (some b) :=
    fun j b hj hcap hb => (h.getElem?_pay hj).trans (hbytes j b hj hcap hb)
  obtain ⟨-, -, old, rfl⟩ := h
  exact ⟨rfl, rfl, rfl, hpay⟩

/-! ### A whole enqueue (R184, R188) -/

theorem commit_enqWhole_full {c : EnqCaller} (hf : s.sq.isFull s.cfg.sqCap = true) (p : Packet) :
    commit s (enqWhole c p s) = enqAnswer c p false s := by
  rw [enqWhole_full hf, commit_ok]

/-- R114: a size above PAYLOAD_CAP raises F_ENQ_OVR, on a queue that is not full. -/
theorem commit_enqWhole_overrun {c : EnqCaller} (h0 : s.fault = 0#8) (hf : s.sq.isFull s.cfg.sqCap = false)
    (hs : s.cfg.payloadCap < p.size.toNat) : commit s (enqWhole c p s) = { s with fault := 0x02#8 } := by
  have herror : enqWhole c p s = .error .enqOvr := by simp [enqWhole, Queue.enqueue, hf, hs]
  rw [herror, commit_error, raise_of_fault_zero .enqOvr h0, faultMask]

theorem commit_enqWhole_accepted {c : EnqCaller} (hf : s.sq.isFull s.cfg.sqCap = false)
    (hs : p.size.toNat ≤ s.cfg.payloadCap) :
    ∃ q, s.sq.enqueue s.cfg s.cfg.sqCap p = .ok (some q) ∧
      commit s (enqWhole c p s) = enqAnswer c p true { s with sq := q } := by
  refine ⟨_, Queue.enqueue_of_not_isFull hf hs, ?_⟩
  rw [enqWhole_accepted hf hs, commit_ok]
  rfl

/-- The slot at the old `tail` after an accepted enqueue of an operation's packet. -/
theorem Queue.enqueue_hostPacket_carries {c : Params} {q q' : Queue}
    (h : q.enqueue c cap (hostPacket c.payloadCap snd dst size din) = .ok (some q')) (htail : q.tail < q.slots.length) :
    ∃ sl, q'.slots[q.tail]? = some sl ∧ carries c.payloadCap sl snd dst size din := by
  refine ⟨_, ?_, (Queue.filledFrom_of_enqueue (hostPacket_length ..) h).carries (carries_hostPacket ..)⟩
  rw [Queue.enqueue_some h]
  exact List.getElem?_set_self htail

/-! ### A whole dequeue (R187, R189) -/

/-- The head packet of RQ as a dequeue returns it, in an undefined buffer, with `bs` the bytes scanned. -/
def returnedPacket (s : State) (bs : List Byte) : Packet where
  snd := (s.rq.slotAt s.rq.head).snd
  dst := (s.rq.slotAt s.rq.head).dst
  size := (s.rq.slotAt s.rq.head).size
  pay := bs.map some ++ List.replicate (s.cfg.payloadCap - bs.length) none

/-- R116: no byte after the scanned ones is defined. -/
theorem copyOut_undefBuffer (s : State) (bs : List Byte) :
    copyOut some (s.rq.slotAt s.rq.head) bs (undefBuffer s.cfg.payloadCap) = returnedPacket s bs := by
  simp [copyOut, undefBuffer, returnedPacket]

theorem commit_deqWhole_empty {c : DeqCaller} (he : s.rq.head = s.rq.tail) :
    commit s (deqWhole c s) = deqAnswer c none s := by
  rw [deqWhole_empty (s.rq.isEmpty_iff.2 he), commit_ok]

theorem commit_deqWhole_fault {c : DeqCaller} {e : FaultCode} (h0 : s.fault = 0#8) (he : s.rq.head ≠ s.rq.tail)
    (hs : scanSlot s.cfg.payloadCap (s.rq.slotAt s.rq.head) = .error e) :
    commit s (deqWhole c s) = { s with fault := faultMask e } := by
  have herror : deqWhole c s = .error e := by
    simp [deqWhole, Queue.dequeue, s.rq.isEmpty_eq_false_iff.2 he, hs]
  rw [herror, commit_error, raise_of_fault_zero e h0]

theorem commit_deqWhole_answered {c : DeqCaller} {bs : List Byte} (he : s.rq.head ≠ s.rq.tail)
    (hs : scanSlot s.cfg.payloadCap (s.rq.slotAt s.rq.head) = .ok bs) :
    commit s (deqWhole c s) =
      deqAnswer c (some (returnedPacket s bs)) { s with rq := { s.rq with head := (s.rq.head + 1) % s.cfg.rqCap } } := by
  rw [deqWhole_answered (s.rq.isEmpty_eq_false_iff.2 he) hs, commit_ok, copyOut_undefBuffer]
  rfl

/-! ### `new` (R111) -/

/-- `new` sets the payload bytes of every slot and leaves its header. -/
theorem Queue.getElem?_new {c : Params} {q : Queue} {k : Nat} (h : (q.new c).slots[k]? = some sl) :
    ∃ old, q.slots[k]? = some old ∧ headerWord sl = headerWord old ∧
      sl.pay = List.replicate c.payloadCap (slotFill c.slotInit) := by
  rw [Queue.new, List.getElem?_map, Option.map_eq_some_iff] at h
  obtain ⟨old, hold, rfl⟩ := h
  exact ⟨old, hold, rfl, rfl⟩

end Sys2Proof.Machine
end

section
/-! SUPPORT. The two arms that lift a hold (42_link_api.md R193), as selectors of a tick (41_engine.md R141). -/

namespace Sys2Proof.Machine

open Sys2Proof

variable {s : State} {line : Bool}

theorem armAt_claim (hm : s.mode = .idle) (hl : line = true) (he : s.sq.isEmpty = false) :
    armAt line s = .idleClaim (framePhase s.bidx s.wp.size.toNat) := by
  simp [armAt, hm, hl, he]

theorem armAt_parity (hm : s.mode = .receiving) (hb : s.bidx = 16 + 8 * s.wp.size.toNat) :
    armAt line s = .rxPar line (!s.sq.isEmpty) := by
  simp [armAt, hm, hb]

end Sys2Proof.Machine
end

section
/-! SUPPORT. The statements of 42_link_api.md about the host operations. -/

namespace Sys2Proof.Proofs

open Sys2Proof Sys2Proof.Machine

/-! ### INIT and the checks (R180, R181) -/

/-- Settles O26: INIT passes the checks before READY, and `new` keeps the slots' number and headers. -/
theorem initBuildsBlock : Obligations.InitBuildsBlock := by
  intro s hr hf hh
  refine ⟨(s.sq.new s.cfg).slots, (s.rq.new s.cfg).slots, ?next, by simp [Queue.new], by simp [Queue.new], ?sq, ?rq⟩
  case next =>
    rw [exec_init_before_boot hr hf hh, initBlock, finish, ← hh]
    rfl
  case sq | rq =>
    intro k sl hk
    obtain ⟨old, hold, hheader, hpay⟩ := Queue.getElem?_new hk
    refine ⟨old, hold, hheader, hpay.trans ?_⟩
    cases s.cfg.slotInit <;> rfl

/-- Settles O34: the first of the common checks is READY's, a reserved OP makes it too, and INIT's own is the last. -/
theorem operationsOutOfBootOrderRefused : Obligations.OperationsOutOfBootOrderRefused := by
  refine ⟨fun s w i hr hi hne => ?preInit, fun s ha => exec_init_of_accepting ha⟩
  case preInit =>
    rcases exec_of_decoded hi with hinit | ⟨run, hrun⟩ | ⟨-, hrefused⟩
    · exact absurd hinit hne
    · rw [hrun, hostOp_of_not_ready hr]
    · rw [hrefused, refuseWord_before_init hr]

/-- Settles O36: INIT's checks, the common ones and those of a further step all stop on a FAULT that is not 0. -/
theorem stoppedBlockRunsNoHostStep : Obligations.StoppedBlockRunsNoHostStep := by
  refine fun s hr hf => ⟨fun w i hi hop => ?fresh, fun hb => ⟨?turn, fun pick => ?micro⟩⟩
  case fresh =>
    rcases exec_of_decoded hi with rfl | ⟨run, hrun⟩ | ⟨hreserved, -⟩
    · exact exec_init_of_fault hf
    · rw [hrun, hostOp_of_fault hr hf]
    · omega
  case turn =>
    obtain ⟨run, hrun⟩ := hostTurn_of_busy hb
    rw [hrun, hostStep_of_fault hf]
  case micro => rw [microTurn_of_busy hb, hostStep_of_fault hf]

/-! ### Non-blocking operations (R184, R187, R190) -/

/-- Settles O29: the answer is the negation of the emptiness test, which compares the two indices. -/
theorem hasReportsReceivedPacket : Obligations.HasReportsReceivedPacket := by
  refine ⟨rfl, fun s ha => ⟨!s.rq.isEmpty, hostOp_answer ha fun s => .bit (!s.rq.isEmpty), ?nonempty, ?complement⟩⟩
  case nonempty => rw [Bool.not_eq_true', Queue.isEmpty_eq_false_iff]
  case complement =>
    rw [Bool.not_not]
    exact hostOp_answer ha fun s => .bit s.rq.isEmpty

/-- Settles O30, by the three answers of the enqueue of the operation's packet. -/
theorem sqEnqAcceptsRefusesOrFaults : Obligations.SqEnqAcceptsRefusesOrFaults := by
  intro s snd dst size ha
  rw [exec_sqEnq snd dst size ha]
  obtain ⟨-, hfault, hidle⟩ := ha
  refine ⟨fun hfull => ?full, fun hroom hover => ?overrun, fun hroom hfits => ?accepted⟩
  case full =>
    rw [commit_enqWhole_full hfull]
    exact congrArg _ (finish_of_idle hidle _)
  case overrun => rw [commit_enqWhole_overrun hfault hroom hover]
  case accepted =>
    obtain ⟨q, henq, hcommit⟩ := commit_enqWhole_accepted (c := .sqEnq) hroom
      (p := hostPacket s.cfg.payloadCap snd dst size s.din) hfits
    rw [hcommit]
    exact ⟨q, henq, congrArg _ (finish_of_idle (s := { s with sq := q }) hidle _),
      Queue.enqueue_hostPacket_carries henq⟩

/-- Settles O31, by the three answers of the dequeue of RQ. -/
theorem rqDeqReturnsHeadPacket : Obligations.RqDeqReturnsHeadPacket := by
  intro s ha
  rw [exec_rqDeq ha]
  obtain ⟨-, hfault, hidle⟩ := ha
  refine ⟨fun he => ?empty, fun e hne hs => ?fault, fun bs hne hs => ?answered⟩
  case empty =>
    rw [commit_deqWhole_empty he]
    exact congrArg _ (finish_of_idle hidle _)
  case fault => rw [commit_deqWhole_fault hfault hne hs]
  case answered =>
    rw [commit_deqWhole_answered hne hs]
    exact congrArg _ (finish_of_idle (s := { s with rq := s.rq.pop s.cfg.rqCap }) hidle _)

/-! ### Blocking operations (R188, R189, R193) -/

/-- Settles O32: past the destination test SEND is the enqueue of the operation's packet, with its three answers. -/
theorem sendDropsHoldsOrEnqueues : Obligations.SendDropsHoldsOrEnqueues := by
  intro s snd dst size ha
  rw [exec_send snd dst size ha]
  obtain ⟨-, hfault, hidle⟩ := ha
  refine ⟨fun hdrop => ?dropped, fun hdst hfull => ?held, fun hdst hroom hover => ?overrun,
    fun hdst hroom hfits => ?accepted⟩
  case dropped => rw [if_pos hdrop, commit_ok, finish_of_idle hidle]
  case held =>
    rw [if_neg (Nat.not_lt.2 hdst), commit_enqWhole_full hfull]
    exact ⟨rfl, carries_hostPacket ..⟩
  case overrun => rw [if_neg (Nat.not_lt.2 hdst), commit_enqWhole_overrun hfault hroom hover]
  case accepted =>
    obtain ⟨q, henq, hcommit⟩ := commit_enqWhole_accepted (c := .send) hroom
      (p := hostPacket s.cfg.payloadCap snd dst size s.din) hfits
    rw [if_neg (Nat.not_lt.2 hdst), hcommit]
    exact ⟨q, henq, congrArg _ (finish_of_idle (s := { s with sq := q }) hidle _),
      Queue.enqueue_hostPacket_carries henq⟩

/-- Settles O33, by the three answers of the dequeue of RQ. -/
theorem getHoldsOrReturnsHeadPacket : Obligations.GetHoldsOrReturnsHeadPacket := by
  intro s ha
  rw [exec_get ha]
  obtain ⟨-, hfault, hidle⟩ := ha
  refine ⟨fun he => ?held, fun e hne hs => ?fault, fun bs hne hs => ?answered⟩
  case held =>
    rw [commit_deqWhole_empty he]
    rfl
  case fault => rw [commit_deqWhole_fault hfault hne hs]
  case answered =>
    rw [commit_deqWhole_answered hne hs]
    exact congrArg _ (finish_of_idle (s := { s with rq := s.rq.pop s.cfg.rqCap }) hidle _)

/-- Settles O37: a retry is the enqueue, or the dequeue, of the operation whole, so it has the same three answers. -/
theorem heldOperationRetries : Obligations.HeldOperationRetries := by
  intro s p hfault
  refine ⟨fun hh hfull => ?sendHeld, fun hh hroom hfits => ?sendAccepted, fun hh hroom hover => ?sendOverrun,
    fun hh he => ?getHeld, fun e hh hne hs => ?getFault, fun bs hh hne hs => ?getAnswered⟩
  case sendHeld =>
    rw [hostTurn_sendHeld hh hfault, commit_enqWhole_full hfull]
    exact congrArg _ (hold_of_held hh)
  case sendAccepted =>
    obtain ⟨q, henq, hcommit⟩ := commit_enqWhole_accepted (c := .send) hroom hfits
    rw [hostTurn_sendHeld hh hfault, hcommit]
    exact ⟨q, henq, rfl⟩
  case sendOverrun => rw [hostTurn_sendHeld hh hfault, commit_enqWhole_overrun hfault hroom hover]
  case getHeld =>
    rw [hostTurn_getHeld hh hfault, commit_deqWhole_empty he]
    exact congrArg _ (hold_of_held hh)
  case getFault => rw [hostTurn_getHeld hh hfault, commit_deqWhole_fault hfault hne hs]
  case getAnswered =>
    rw [hostTurn_getHeld hh hfault, commit_deqWhole_answered hne hs]
    rfl

/-- Settles O54: of the writes a tick can make one touches SQ, the claim's, and one touches RQ, the delivery's; the guard
of each is the selector of its arm. -/
theorem holdLiftedOnlyByItsArm : Obligations.HoldLiftedOnlyByItsArm := by
  intro s t line h
  rw [decodeSel_formSel]
  refine ⟨fun hfull hroom => ?sq, fun hempty hpacket => ?rq⟩
  case sq =>
    cases tickAt_write h with
    | claim p q _ hm hl hq =>
      exact ⟨_, armAt_claim hm hl (Queue.not_isEmpty_of_dequeue hq), by rw [Queue.dequeue_some hq]; rfl⟩
    | _ => exact absurd (hfull.symm.trans hroom) nofun
  case rq =>
    cases tickAt_write h with
    | deliverPacket q _ hm hb hp hq =>
      exact ⟨_, _, armAt_parity hm hb, hp, by rw [Queue.enqueue_some hq]; rfl⟩
    | _ => exact absurd (hempty.symm.trans hpacket) nofun

end Sys2Proof.Proofs
end

section
/-! SUPPORT. The level of the line from its drivers (60_exceptions.md R222), and the line of a single driver. -/

namespace Sys2Proof.Machine

open Sys2Proof

variable {ds : List Drive} {d : Drive} {v : Bool}

/-! ### The levels driven -/

/-- The levels that the drivers of a line put on it. -/
def drivenLevels (ds : List Drive) : List Bool := (ds.filter (·.oe)).map (·.out)

theorem mem_drivenLevels : v ∈ drivenLevels ds ↔ ∃ d ∈ ds, d.oe = true ∧ d.out = v := by
  simp [drivenLevels, and_assoc]

theorem resolveLine_of_nil (h : drivenLevels ds = []) : resolveLine ds = .level true := by
  simp only [drivenLevels] at h
  simp only [resolveLine, h]

theorem resolveLine_of_cons {vs : List Bool} (h : drivenLevels ds = v :: vs) :
    resolveLine ds = if vs.all (· == v) then .level v else .contended := by
  simp only [drivenLevels] at h
  simp only [resolveLine, h]

/-! ### The three cases of R222 -/

theorem resolveLine_of_no_driver (h : ∀ d ∈ ds, d.oe = false) : resolveLine ds = .level true := by
  refine resolveLine_of_nil (List.eq_nil_iff_forall_not_mem.2 fun v hv => ?_)
  obtain ⟨d, hd, hoe, -⟩ := mem_drivenLevels.1 hv
  exact Bool.false_ne_true ((h d hd).symm.trans hoe)

theorem resolveLine_of_agreeing (hd : d ∈ ds) (hoe : d.oe = true) (h : ∀ e ∈ ds, e.oe = true → e.out = v) :
    resolveLine ds = .level v := by
  have hall : ∀ x ∈ drivenLevels ds, x = v := fun x hx => by
    obtain ⟨e, he, heoe, rfl⟩ := mem_drivenLevels.1 hx
    exact h e he heoe
  have hmem : d.out ∈ drivenLevels ds := mem_drivenLevels.2 ⟨d, hd, hoe, rfl⟩
  cases hl : drivenLevels ds with
  | nil => simp [hl] at hmem
  | cons x xs =>
    rw [hl, List.forall_mem_cons] at hall
    obtain ⟨rfl, hxs⟩ := hall
    rw [resolveLine_of_cons hl, if_pos (List.all_eq_true.2 fun y hy => beq_iff_eq.2 (hxs y hy))]

theorem resolveLine_of_disagreeing (hhigh : true ∈ drivenLevels ds) (hlow : false ∈ drivenLevels ds) :
    resolveLine ds = .contended := by
  cases hl : drivenLevels ds with
  | nil => simp [hl] at hlow
  | cons x xs =>
    rw [resolveLine_of_cons hl, if_neg]
    intro hall
    have heq : ∀ y ∈ drivenLevels ds, y = x := fun y hy => by
      rcases List.mem_cons.1 (hl ▸ hy) with e | hy
      · exact e
      · exact beq_iff_eq.1 (List.all_eq_true.1 hall y hy)
    exact Bool.false_ne_true ((heq _ hlow).trans (heq _ hhigh).symm)

/-! ### A single driver -/

/-- The level of a line on which no configuration but this one may drive. -/
def soleLevel (d : Drive) : Bool := if d.oe then d.out else true

/-- Where every driver has the configuration `d`, which is on the line, the level is the one `d` gives. -/
theorem resolveLine_of_single (hd : d ∈ ds) (h : ∀ e ∈ ds, e.oe = true → e = d) :
    resolveLine ds = .level (soleLevel d) := by
  cases hoe : d.oe with
  | true =>
    rw [soleLevel, hoe, if_pos rfl]
    exact resolveLine_of_agreeing hd hoe fun e he heoe => by rw [h e he heoe]
  | false =>
    rw [soleLevel, hoe, if_neg Bool.false_ne_true]
    refine resolveLine_of_no_driver fun e he => Bool.eq_false_iff.2 fun heoe => ?_
    rw [h e he heoe, hoe] at heoe
    cases heoe

end Sys2Proof.Machine
end

section
/-! SUPPORT. A fault commits nothing else (60_exceptions.md R212): the effect of every arm, operation and micro-step that
does not fault leaves FAULT, so FAULT changes only where a code is raised. -/

namespace Sys2Proof.Machine

open Sys2Proof

variable {s t : State}

/-! ### The end of a step -/

/-- A step that leaves FAULT, or that raises one code and writes nothing else. -/
def FaultWritesAlone (s t : State) : Prop := t.fault = s.fault ∨ ∃ c : FaultCode, t = raise c s

theorem commit_faultWritesAlone {r : Except FaultCode State} (h : commit s r = t)
    (hr : ∀ u, r = .ok u → u.fault = s.fault) : FaultWritesAlone s t :=
  (commit_cases h).imp (hr t) fun ⟨c, _, ht⟩ => ⟨c, ht⟩

theorem engineTick_faultWritesAlone {arm : State → Except FaultCode State} (h : engineTick s arm = .next t)
    (hr : ∀ u, arm s = .ok u → u.fault = s.fault) : FaultWritesAlone s t := by
  rcases engineTick_cases h with ⟨-, rfl⟩ | ⟨-, h⟩
  · exact .inl rfl
  · exact commit_faultWritesAlone h hr

theorem hostOp_faultWritesAlone {run : State → Except FaultCode State} (h : hostOp s run = .next t)
    (hr : ∀ u, run s = .ok u → u.fault = s.fault) : FaultWritesAlone s t := by
  obtain ⟨-, -, ⟨-, rfl⟩ | ⟨-, h⟩⟩ := hostOp_cases h
  · exact .inl rfl
  · exact commit_faultWritesAlone h hr

/-- An operation that only answers on RES. -/
theorem hostOp_answer_faultWritesAlone {r : State → Result} (h : hostOp s (fun s => .ok (finish (r s) s)) = .next t) :
    FaultWritesAlone s t :=
  hostOp_faultWritesAlone h fun u hu => by cases hu; rfl

/-! ### The tick arms -/

theorem storeDataBit_keeps_fault {b : Bool} (h : storeDataBit b s = .ok t) : t.fault = s.fault := by
  obtain ⟨_, -, rfl⟩ := storeDataBit_ok h
  rfl

theorem driveDataBit_keeps_fault (h : driveDataBit s = .ok t) : t.fault = s.fault := by
  obtain ⟨_, -, rfl⟩ := driveDataBit_ok h
  rfl

theorem rxPar_keeps_fault {line : Bool} (h : rxPar line s = .ok t) : t.fault = s.fault := by
  rcases rxPar_ok h with rfl | ⟨_, -, -, rfl⟩ <;> rfl

theorem idleClaim_keeps_fault (h : idleClaim s = .ok t) : t.fault = s.fault := by
  obtain ⟨_, _, -, rfl⟩ := idleClaim_ok h
  rfl

theorem execRxPay_faultWritesAlone {line sqne : Bool} (h : execRxPay line sqne s = .next t) : FaultWritesAlone s t :=
  engineTick_faultWritesAlone h fun u hu => by
    split at hu
    · cases hu
    · exact storeDataBit_keeps_fault hu

/-! ### Whole operations -/

theorem trySend_keeps_fault {p : Packet} (h : trySend p s = .ok t) : t.fault = s.fault := by
  rcases trySend_ok h with ⟨-, rfl⟩ | ⟨_, -, rfl⟩ <;> rfl

theorem tryGet_keeps_fault (h : tryGet s = .ok t) : t.fault = s.fault := by
  rcases tryGet_ok h with ⟨-, rfl⟩ | ⟨_, _, -, rfl⟩ <;> rfl

/-- INIT raises no fault and does not clear FAULT (42_link_api.md R181). -/
theorem execInit_keeps_fault (h : execInit s = .next t) : t.fault = s.fault := by
  unfold execInit at h
  split_ifs at h <;> cases h <;> rfl

theorem execSqEnq_faultWritesAlone {snd dst : NodeId} {size : PayloadSize} (h : execSqEnq snd dst size s = .next t) :
    FaultWritesAlone s t :=
  hostOp_faultWritesAlone h fun u hu => by split at hu <;> cases hu <;> rfl

theorem execRqDeq_faultWritesAlone (h : execRqDeq s = .next t) : FaultWritesAlone s t :=
  hostOp_faultWritesAlone h fun u hu => by split at hu <;> cases hu <;> rfl

theorem execSend_faultWritesAlone {snd dst : NodeId} {size : PayloadSize} (h : execSend snd dst size s = .next t) :
    FaultWritesAlone s t :=
  hostOp_faultWritesAlone h fun u hu => by
    split at hu
    · cases hu
      rfl
    · exact trySend_keeps_fault hu

/-- Every instruction leaves FAULT or writes it alone. -/
theorem exec_faultWritesAlone {i : Instr} (h : exec i s = .next t) : FaultWritesAlone s t := by
  cases i with
  | rxHdr => exact engineTick_faultWritesAlone h fun _ => storeDataBit_keeps_fault
  | rxPay line sqne => exact execRxPay_faultWritesAlone (sqne := sqne) h
  | rxPar => exact engineTick_faultWritesAlone h fun _ => rxPar_keeps_fault
  | txHdr => exact engineTick_faultWritesAlone h fun _ => driveDataBit_keeps_fault
  | txPay => exact engineTick_faultWritesAlone h fun _ => driveDataBit_keeps_fault
  | txPar | txRel | idleRxstart | idleNop =>
    simp only [exec, execTxPar, execTxRel, execIdleRxstart, execIdleNop] at h
    exact engineTick_faultWritesAlone h fun u hu => by cases hu; rfl
  | reservedRxPh11 | reservedMode11 =>
    exact engineTick_faultWritesAlone (arm := fun _ => .error .unreachable) h fun _ hu => nomatch hu
  | idleClaim => exact engineTick_faultWritesAlone h fun _ => idleClaim_keeps_fault
  | init => exact .inl (execInit_keeps_fault h)
  | sqIsempty => exact hostOp_answer_faultWritesAlone (r := fun s => .bit s.sq.isEmpty) h
  | sqIsfull => exact hostOp_answer_faultWritesAlone (r := fun s => .bit (s.sq.isFull s.cfg.sqCap)) h
  | sqEnq => exact execSqEnq_faultWritesAlone h
  | rqIsempty => exact hostOp_answer_faultWritesAlone (r := fun s => .bit s.rq.isEmpty) h
  | rqIsfull => exact hostOp_answer_faultWritesAlone (r := fun s => .bit (s.rq.isFull s.cfg.rqCap)) h
  | rqDeq => exact execRqDeq_faultWritesAlone h
  | send => exact execSend_faultWritesAlone h
  | get => exact hostOp_faultWritesAlone h fun _ => tryGet_keeps_fault
  | has => exact hostOp_answer_faultWritesAlone (r := fun s => .bit (!s.rq.isEmpty)) h
  | reservedOpAB | reservedOpCF => exact absurd h refuseWord_not_next

/-! ### Micro-steps -/

@[simp] theorem enqAnswer_fault (c : EnqCaller) (p : Packet) (b : Bool) (s : State) :
    (enqAnswer c p b s).fault = s.fault := by
  obtain ⟨_, e⟩ := enqAnswer_eq c p b s
  rw [e]
  rfl

@[simp] theorem deqAnswer_fault (c : DeqCaller) (r : Option Packet) (s : State) : (deqAnswer c r s).fault = s.fault := by
  obtain ⟨_, e⟩ := deqAnswer_eq c r s
  rw [e]
  rfl

theorem deqScanByte_keeps_fault {c : DeqCaller} {i j : Nat} (h : deqScanByte c i j s = .ok t) : t.fault = s.fault := by
  unfold deqScanByte at h
  split at h <;> cases h
  rfl

theorem microStep_keeps_fault {pick : Nat} (h : microStep pick s = .ok t) : t.fault = s.fault := by
  cases hh : s.host with
  | idle | enqRead | deqRead =>
    simp only [microStep, hh] at h
    cases h
    rfl
  | sendHeld | getHeld | enqTest | deqTest =>
    simp only [microStep, hh] at h
    cases h
    split <;> simp
  | enqBound =>
    rw [microStep_enqBound hh] at h
    split at h <;> cases h
    rfl
  | deqScan =>
    rw [microStep_deqScan hh] at h
    exact deqScanByte_keeps_fault h
  | enqCopy _ _ _ fs =>
    cases fs with
    | nil => rw [microStep_enqCopy_nil hh] at h; cases h; simp
    | cons => rw [microStep_enqCopy_cons hh] at h; cases h; rfl
  | deqCopy _ _ fs =>
    cases fs with
    | nil => rw [microStep_deqCopy_nil hh] at h; cases h; simp
    | cons => rw [microStep_deqCopy_cons hh] at h; cases h; rfl

/-! ### A turn of a busy H -/

/-- A retry or a further micro-step leaves FAULT or writes it alone. -/
theorem runTurn_busy_faultWritesAlone {turn : Turn} (hn : isTick turn = false) (hb : s.host ≠ .idle)
    (h : runTurn turn s = .next t) : FaultWritesAlone s t := by
  cases turn with
  | tick => cases hn
  | host =>
    rcases hostTurn_cases h with ⟨hi, -⟩ | ⟨p, -, -, h⟩ | ⟨-, -, h⟩ | ⟨-, -, h⟩
    · exact absurd hi hb
    · exact commit_faultWritesAlone h fun _ => trySend_keeps_fault
    · exact commit_faultWritesAlone h fun _ => tryGet_keeps_fault
    · exact commit_faultWritesAlone h fun _ => microStep_keeps_fault
  | micro pick =>
    rcases microTurn_cases h with ⟨hi, -⟩ | ⟨-, -, h⟩
    · exact absurd hi hb
    · exact commit_faultWritesAlone h fun _ => microStep_keeps_fault

end Sys2Proof.Machine
end

section
/-! SUPPORT. Several blocks on a clean line of which one drives (60_exceptions.md R221 to R223): every block samples the
level of that one, and a listener takes up the frame whatever the buffers' sizes. -/

namespace Sys2Proof.Machine

open Sys2Proof

variable {s t : State} {w : WorkPacket} {q : Queue} {v line : Bool} {ls : List Bool}

/-! ### A global tick (R221) -/

/-- On a clean line whose drivers agree, a node samples their level and marks no contention. -/
theorem settle_tick_of_level {peers : List Drive} {draw : Bool} (h : resolveLine (s.drive :: peers) = .level v) :
    settle s (runTurn (.tick peers false draw) s) = afterTick v s := by
  have hsample : sampleLine (s.drive :: peers) false draw = v := by simp [sampleLine, h]
  have hmark : markContention (s.drive :: peers) s = s := by simp [markContention, h]
  rw [runTurn, tickTurn_eq, hsample, hmark, afterTick]

/-- A node's own line configuration and its peers' are those of the line. -/
theorem Bus.mem_drive_cons_peers {b : Bus} {i : Nat} (h : i < b.nodes.length) {d : Drive} :
    d ∈ b.nodes[i].drive :: b.peers i ↔ d ∈ b.drives := by
  have hi : i < b.drives.length := by rwa [Bus.drives, List.length_map]
  have hown : b.drives[i] = b.nodes[i].drive := List.getElem_map _
  rw [← hown, Bus.peers]
  exact (List.getElem_cons_eraseIdx_perm hi).mem_iff

/-- Where every driver has the configuration `d`, each node's tick samples the level `d` gives. -/
theorem Bus.globalTick_of_single {b : Bus} {d : Drive} (hd : d ∈ b.drives)
    (h : ∀ e ∈ b.drives, e.oe = true → e = d) :
    b.globalTick [] [] = ⟨b.nodes.map (afterTick (soleLevel d)), b.tick + 1, b.refused⟩ := by
  have hnodes : (b.globalTick [] []).nodes = b.nodes.map (afterTick (soleLevel d)) := by
    refine List.ext_getElem (by simp [Bus.globalTick]) fun i hi _ => ?_
    have hi : i < b.nodes.length := by simpa [Bus.globalTick] using hi
    have hlevel : resolveLine (b.nodes[i].drive :: b.peers i) = .level (soleLevel d) :=
      resolveLine_of_single ((Bus.mem_drive_cons_peers hi).2 hd) fun e he =>
        h e ((Bus.mem_drive_cons_peers hi).1 he)
    simpa [Bus.globalTick] using settle_tick_of_level hlevel
  rw [← hnodes]
  rfl

/-! ### Listeners -/

/-- A block that does not drive the line and cannot claim it. -/
structure Listening (s : State) : Prop where
  mode : s.mode ≠ .sending
  senses : s.lineOe = false
  empty : s.sq.isEmpty = true

theorem listening_of_idle (hinv : Inv s) (hm : s.mode = .idle) (hq : s.sq.head = s.sq.tail) : Listening s := by
  obtain ⟨-, -, -, hoe⟩ := hinv.idle hm
  exact ⟨(nomatch hm.symm.trans ·), hoe, s.sq.isEmpty_iff.2 hq⟩

/-- Whatever a listener samples, it goes on listening. -/
theorem TickWrite.listening (h : TickWrite line s t) (hl : Listening s) : Listening t := by
  obtain ⟨hmode, hoe, hempty⟩ := hl
  cases h with
  | gated | raised | nop | storeBit => exact ⟨hmode, hoe, hempty⟩
  | dropPacket | deliverPacket | startReceive => exact ⟨nofun, hoe, hempty⟩
  | driveBit _ _ hm | driveParity _ hm | release _ hm => exact absurd hm hmode
  | claim _ _ _ _ _ hq => exact absurd (hempty.symm.trans (Queue.not_isEmpty_of_dequeue hq)) nofun

theorem Listening.afterTick (h : Listening s) (line : Bool) : Listening (afterTick line s) := by
  obtain ⟨t, ht⟩ := tickAt_exists line s
  rw [Machine.afterTick, ht, settle]
  exact (tickAt_write ht).listening h

/-- On an idle line a listener stays as it is. -/
theorem afterTick_listening_idle (ht : Ticking s) (hm : s.mode = .idle) (h : Listening s) : afterTick true s = s := by
  rw [afterTick_of_ticking ht]
  simp [armEffect, hm, h.empty, commit_ok]

/-! ### Ticks on a line of one driver -/

/-- Beside listeners, every node samples the level that `s` drives. -/
theorem globalTick_beside_listeners {pre post : List State} {k : Nat} {m : Option (Nat × Refusal)}
    (h : ∀ r ∈ pre ++ post, Listening r) :
    Bus.globalTick [] [] ⟨pre ++ s :: post, k, m⟩ =
      ⟨pre.map (afterTick (soleLevel s.drive)) ++ afterTick (soleLevel s.drive) s ::
        post.map (afterTick (soleLevel s.drive)), k + 1, m⟩ := by
  have hsingle : ∀ e ∈ Bus.drives ⟨pre ++ s :: post, k, m⟩, e.oe = true → e = s.drive := fun e he hoe => by
    obtain ⟨r, hr, rfl⟩ := List.mem_map.1 he
    rcases List.mem_cons.1 (List.perm_middle.mem_iff.1 hr) with rfl | hr
    · rfl
    · exact absurd ((h r hr).senses.symm.trans hoe) Bool.false_ne_true
  rw [Bus.globalTick_of_single (by simp [Bus.drives]) hsingle, List.map_append, List.map_cons]

/-- The levels of a line that only `s` drives, one before each of `s`'s ticks. -/
def DrivesLevels : List Bool → State → Prop
  | [], _ => True
  | l :: ls, s => l = soleLevel s.drive ∧ DrivesLevels ls (afterTick l s)

/-- Beside listeners, every node samples over a run of ticks the levels that `s` drives. -/
theorem cleanTicks_of_levels {pre post : List State} {k : Nat} {m : Option (Nat × Refusal)} (hs : DrivesLevels ls s)
    (h : ∀ r ∈ pre ++ post, Listening r) :
    Bus.cleanTicks ls.length ⟨pre ++ s :: post, k, m⟩ =
      ⟨pre.map (afterTicks ls) ++ afterTicks ls s :: post.map (afterTicks ls), k + ls.length, m⟩ := by
  induction ls generalizing s pre post k with
  | nil =>
    have hid : afterTicks [] = id := rfl
    simp [Bus.cleanTicks, hid]
  | cons l ls ih =>
    obtain ⟨hl, hrest⟩ := hs
    have hstep : afterTicks (l :: ls) = afterTicks ls ∘ afterTick l := rfl
    have hnext : ∀ r ∈ pre.map (afterTick l) ++ post.map (afterTick l), Listening r := by
      rw [← List.map_append]
      exact List.forall_mem_map.2 fun r hr => (h r hr).afterTick l
    rw [List.length_cons, Bus.cleanTicks, globalTick_beside_listeners h, ← hl, ih hrest hnext, hstep,
      List.map_map, List.map_map]
    simp only [Function.comp_apply, Nat.add_assoc, Nat.add_comm 1]

/-- From any point of its frame on, a sender drives the rest of the frame. -/
theorem levels_sendingAt (h : Loaded s w) {k : Nat} (hls : (false :: frame w).drop k = ls) :
    DrivesLevels ls (sendingAt s w q k) := by
  induction ls generalizing k with
  | nil => trivial
  | cons l ls ih =>
    have hget : (false :: frame w)[k]? = some l := by rw [← List.head?_drop, hls, List.head?_cons]
    have hlevel : l = soleLevel (sendingAt s w q k).drive := by
      simp [soleLevel, State.drive, sendingAt, List.getD_eq_getElem?_getD, hget]
    refine ⟨hlevel, ?_⟩
    cases ls with
    | nil => trivial
    | cons l' ls =>
      have hlen : k + 2 + ls.length = frameLength w.size.toNat + 1 := by
        have := congrArg List.length hls
        simp only [List.length_drop, List.length_cons, frame_length h.size_le] at this
        omega
      rw [afterTick_frame h (by omega)]
      exact ih (by rw [← List.tail_drop, hls, List.tail_cons])

/-- A sender's levels from the tick of its claim on: the idle line, the claim, the frame. -/
theorem levels_of_claim (h : Loaded s w) (hm : s.mode = .idle) (hoe : s.lineOe = false)
    (hq : s.sq.dequeue s.cfg s.cfg.sqCap id s.wp = .ok (some (w, q))) : DrivesLevels (true :: false :: frame w) s := by
  refine ⟨by simp [soleLevel, State.drive, hoe], ?_⟩
  rw [afterTick_claim h.ticking hm hq]
  exact levels_sendingAt h rfl

/-! ### A frame from a sender with another buffer -/

/-- The packet `w` in a buffer of `cap` bytes, as far as its size goes. -/
def refit (cap : Nat) (w : WorkPacket) : WorkPacket :=
  { w with pay := w.pay.take w.size.toNat ++ List.replicate (cap - w.size.toNat) 0 }

theorem refit_take_pay {cap : Nat} (h : w.size.toNat ≤ w.pay.length) :
    (refit cap w).pay.take w.size.toNat = w.pay.take w.size.toNat :=
  List.take_left' (List.length_take_of_le h)

theorem refit_length {cap : Nat} (h : w.size.toNat ≤ w.pay.length) (hcap : w.size.toNat ≤ cap) :
    (refit cap w).pay.length = cap := by
  rw [refit, List.length_append, List.length_take_of_le h, List.length_replicate]
  omega

theorem frame_refit {cap : Nat} (h : w.size.toNat ≤ w.pay.length) : frame (refit cap w) = frame w := by
  have hdata : dataBits (refit cap w) = dataBits w := by
    rw [dataBits, show (refit cap w).size = w.size from rfl, refit_take_pay h]
    rfl
  rw [frame, frame, hdata]

theorem deliver_refit {cap : Nat} (h : w.size.toNat ≤ w.pay.length) (s : State) :
    deliver (refit cap w) s = deliver w s :=
  deliver_congr (p := refit cap w) (w := w) rfl (refit_take_pay h) s

/-- An idle block with an empty SQ that listens to a claim and a frame delivers the packet. -/
theorem afterTicks_listener (hinv : Inv s) (ht : Ticking s) (hm : s.mode = .idle) (hq : s.sq.head = s.sq.tail)
    (hsize : w.size.toNat ≤ w.pay.length) (hfits : w.size.toNat ≤ s.cfg.payloadCap) :
    afterTicks (true :: false :: frame w) s = deliver w s := by
  rw [afterTicks_cons, afterTick_listening_idle ht hm (listening_of_idle hinv hm hq), ← frame_refit hsize,
    Proofs.receiverDeliversFrame s _ hinv ht hm (refit_length hsize hfits) hfits]
  exact deliver_refit hsize s

end Sys2Proof.Machine
end

section
/-! SUPPORT. The statements of 60_exceptions.md: what a fault commits, the level of the line and a frame on it. -/

namespace Sys2Proof.Proofs

open Sys2Proof Sys2Proof.Machine

/-- Settles O52: an effect that does not fault leaves FAULT, and a fault commits its own bit alone. -/
theorem faultCommitsNothingElse : Obligations.FaultCommitsNothingElse :=
  ⟨fun _ _ _ h hne => (exec_faultWritesAlone h).resolve_left hne,
    fun _ _ _ hn hb h hne => (runTurn_busy_faultWritesAlone hn hb h).resolve_left hne⟩

/-- Settles O55, by the levels the drivers put on the line: none, one value, or both. -/
theorem lineResolution : Obligations.LineResolution := fun _ =>
  ⟨resolveLine_of_no_driver, fun _ ⟨_, hd, hoe⟩ hv => resolveLine_of_agreeing hd hoe hv,
    fun hhigh hlow => resolveLine_of_disagreeing (mem_drivenLevels.2 hhigh) (mem_drivenLevels.2 hlow)⟩

/-- Settles O59, by induction over the ticks: the line has the level that the sender drives, which every other node
samples and none disturbs; so the sender ends as after its own run and each listener as after the frame. -/
theorem busDeliversToEveryListener : Obligations.BusDeliversToEveryListener := by
  intro pre post s w q k m hinv ht hm hq hr
  have hl := loaded_of_dequeue hinv ht hq
  obtain ⟨-, -, -, hoe⟩ := hinv.idle hm
  have hlen : (true :: false :: frame w).length = 19 + 8 * w.size.toNat := by
    simp only [List.length_cons, frame_length hl.size_le, frameLength]
    omega
  have hsender := (senderDrivesItsFrame s w q hinv ht hm hq).2.2 (false :: frame w)
    (by rw [List.length_cons, frame_length hl.size_le])
  have hlisteners : ∀ r ∈ pre ++ post, Listening r := fun r hmem => by
    obtain ⟨hinv, -, hm, hempty, -⟩ := hr r hmem
    exact listening_of_idle hinv hm hempty
  have hdeliver (rs : List State) (hrs : rs ⊆ pre ++ post) :
      rs.map (afterTicks (true :: false :: frame w)) = rs.map (deliver w) :=
    List.map_congr_left fun r hmem => by
      obtain ⟨hinv, ht, hm, hempty, hfits⟩ := hr r (hrs hmem)
      exact afterTicks_listener hinv ht hm hempty hl.size_le hfits
  rw [← hlen, cleanTicks_of_levels (levels_of_claim hl hm hoe hq) hlisteners, hsender,
    hdeliver pre (List.subset_append_left ..), hdeliver post (List.subset_append_right ..)]

end Sys2Proof.Proofs
end

section
/-! SUPPORT. Power-on (70_reset_and_hazards.md R250): a fresh queue is well-formed, and a block built with legal
parameters (00_scope.md R8) meets the invariant before its first step. -/

namespace Sys2Proof.Machine

open Sys2Proof

variable {c : Params} {cap : Nat} {sl : Slot}

/-! ### Fresh queues (10_state.md R28, R29) -/

/-- A fresh queue holds copies of one slot. -/
theorem eq_freshSlot_of_mem (h : sl ∈ (freshQueue c cap).slots) : sl = freshSlot c := List.eq_of_mem_replicate h

@[simp] theorem freshQueue_slots_length (c : Params) (cap : Nat) : (freshQueue c cap).slots.length = cap :=
  List.length_replicate

@[simp] theorem headerWord_freshSlot (c : Params) : headerWord (freshSlot c) = 0#16 :=
  show 0#8 ++ 0#4 ++ 0#4 = 0#16 by decide

theorem freshSlot_wf (c : Params) : slotWf c.payloadCap (freshSlot c) := ⟨List.length_replicate, Nat.zero_le _⟩

theorem freshQueue_wf (hcap : 0 < cap) : (freshQueue c cap).wf c.payloadCap cap :=
  ⟨hcap, hcap, freshQueue_slots_length c cap, fun _ h => eq_freshSlot_of_mem h ▸ freshSlot_wf c⟩

/-! ### The block -/

/-- Legal capacities are at least one slot. -/
theorem queueCaps_pos_of_legal (h : c.legal = true) : 0 < c.sqCap ∧ 0 < c.rqCap := by
  simp only [Params.legal, Bool.and_eq_true, decide_eq_true_eq] at h
  obtain ⟨⟨⟨⟨⟨hsq, hrq⟩, -⟩, -⟩, -⟩, -⟩ := h
  exact ⟨hsq, hrq⟩

/-- The engine is at rest at power-on, the line released. -/
theorem engineInv_powerOn (c : Params) : EngineInv (State.powerOn c) :=
  engineInv_idle (zeroPacket_length c.payloadCap) rfl ⟨rfl, rfl, rfl, rfl⟩

theorem inv_powerOn (h : c.legal = true) : Inv (State.powerOn c) where
  legal := h
  sq := freshQueue_wf (queueCaps_pos_of_legal h).1
  rq := freshQueue_wf (queueCaps_pos_of_legal h).2
  bidxWidth := Nat.two_pow_pos _
  engine := engineInv_powerOn c
  host := rfl
  boot := fun _ => ⟨rfl, rfl⟩
  faultBits := BitVec.zero_and

end Sys2Proof.Machine
end

section
/-! SUPPORT. The statements of 70_reset_and_hazards.md about power-on. -/

namespace Sys2Proof.Proofs

open Sys2Proof Sys2Proof.Machine

/-- Settles O43: the registers by definition, every slot of both queues as the one fresh slot. -/
theorem resetHasPowerOnValues : Obligations.ResetHasPowerOnValues := by
  refine ⟨fun c => ⟨rfl, rfl, rfl, rfl, rfl, rfl, rfl, rfl, rfl, rfl, rfl, freshQueue_slots_length c c.sqCap,
    freshQueue_slots_length c c.rqCap, fun sl hsl => ?slots, rfl, rfl⟩,
    Params.deployment, rfl, rfl, rfl, rfl, rfl, rfl, rfl, rfl, Nat.le_refl 1, rfl⟩
  case slots =>
    obtain rfl : sl = freshSlot c := (List.mem_append.1 hsl).elim eq_freshSlot_of_mem eq_freshSlot_of_mem
    exact ⟨headerWord_freshSlot c, rfl⟩

/-- Settles O44: the engine at rest, fresh queues and an idle H, once for each of the line's blocks. -/
theorem powerOnSatisfiesInvariant : Obligations.PowerOnSatisfiesInvariant := fun _ h =>
  ⟨inv_powerOn h, rfl, (Bus.wf_powerOn h).1, rfl⟩

end Sys2Proof.Proofs
end
